-- ==== Sys2Proof/Word.lean ====
section
/-! DEFINITION. The two word sizes of the engine (R11: "A word is 16 bits; a byte is 8 bits"). -/

namespace Sys2Proof

/-- A byte: a palette index, a byte of host memory, an opcode, `imm8` (R11). -/
abbrev Byte := BitVec 8

/-- A 16-bit word: a command word, a colour value, a result register (R11). -/
abbrev Word := BitVec 16

end Sys2Proof
end

