-- ==== Sys2Proof/Syntax.lean ====
section
/-! DEFINITION. The 29 commands of R85 with their operands as R82 and R83 read them: `s16` operands as integers,
`u16` operands and 32-bit addresses as natural numbers, `u8` operands and `imm8` as bytes. Bits that R88 calls
ignored are no part of a command. Operands stand in word order, `imm8` last (R90). -/

namespace Sys2Proof

/-- A command of the engine (R85). One constructor per row of the opcode table. -/
inductive Instr where
  /-- NOP (R200). -/
  | nop
  /-- PAL_DEFAULT (R101). -/
  | palDefault
  /-- PAL_LOAD @addr, count (R102). -/
  | palLoad (addr count : Nat)
  /-- PAL_READ #idx (R103). -/
  | palRead (idx : Byte)
  /-- GETPIXEL x, y (R117). -/
  | getPixel (x y : Int)
  /-- POINT x, y, #c (R118). -/
  | point (x y : Int) (c : Byte)
  /-- FILLSCREEN #c (R119). -/
  | fillScreen (c : Byte)
  /-- CROP start, len, view (R120). -/
  | crop (start len view : Int)
  /-- HLINE x, y, len, #c (R132). -/
  | hline (x y len : Int) (c : Byte)
  /-- VLINE x, y, len, #c (R133). -/
  | vline (x y len : Int) (c : Byte)
  /-- LINE x0, y0, x1, y1, #c (R134). -/
  | line (x0 y0 x1 y1 : Int) (c : Byte)
  /-- RECT x, y, w, h, #c (R140). -/
  | rect (x y w h : Int) (c : Byte)
  /-- FRECT x, y, w, h, #c (R141). -/
  | frect (x y w h : Int) (c : Byte)
  /-- TRI x0, y0, x1, y1, x2, y2, #c (R142). -/
  | tri (x0 y0 x1 y1 x2 y2 : Int) (c : Byte)
  /-- FTRI x0, y0, x1, y1, x2, y2, #c (R143). -/
  | ftri (x0 y0 x1 y1 x2 y2 : Int) (c : Byte)
  /-- CIRC x, y, r, #c (R151). -/
  | circ (x y r : Int) (c : Byte)
  /-- FCIRC x, y, r, #c (R152). -/
  | fcirc (x y r : Int) (c : Byte)
  /-- BLIT x, y, w, h, stride, @addr (R161). -/
  | blit (x y w h : Int) (stride addr : Nat)
  /-- BLITK x, y, w, h, stride, @addr, #key (R162). -/
  | blitk (x y w h : Int) (stride addr : Nat) (key : Byte)
  /-- GRAB x, y, w, h, stride, @addr (R163). -/
  | grab (x y w h : Int) (stride addr : Nat)
  /-- XFORM @src, sw, sh, sstride, sx, sy, angle, @dst, #bg (R175). -/
  | xform (src : Nat) (sw sh : Int) (ss sx sy : Nat) (ang : Int) (dst : Nat) (bg : Byte)
  /-- MONO x, y, w, h, @addr, #c (R187). -/
  | mono (x y w h : Int) (addr : Nat) (c : Byte)
  /-- MONO2X x, y, w, h, @addr, #c (R189). -/
  | mono2x (x y w h : Int) (addr : Nat) (c : Byte)
  /-- FONT @addr, width, height (R190). -/
  | font (addr : Nat) (width height : Int)
  /-- CHAR x, y, code, #c (R192). -/
  | char (x y : Int) (code : Byte) (c : Byte)
  /-- CHAR2X x, y, code, #c (R193). -/
  | char2x (x y : Int) (code : Byte) (c : Byte)
  /-- STR x, y, @addr, len, #c (R194). -/
  | str (x y : Int) (addr len : Nat) (c : Byte)
  /-- STR2X x, y, @addr, len, #c (R195). -/
  | str2x (x y : Int) (addr len : Nat) (c : Byte)
  /-- FLUSH (R203). -/
  | flush
deriving DecidableEq, Repr

/-- The 29 assigned operations of R85, without operands: what the opcode byte of a header names. -/
inductive Op where
  | nop | palDefault | palLoad | palRead | getPixel | point | fillScreen | crop | hline | vline | line
  | rect | frect | tri | ftri | circ | fcirc | blit | blitk | grab | xform | mono | mono2x | font
  | char | char2x | str | str2x | flush
deriving DecidableEq, Repr

end Sys2Proof
end

