-- ==== Sys2Proof/Decode.lean ====
section
/-! DEFINITION. Reading commands from command words and writing them (30_encoding.md): the field extractions of R81,
R83 and R84, the opcode map of R85, the decoder of R86 (total on any words, rejecting by name), and the encoder. -/

namespace Sys2Proof

/-! ## Fields of a word -/

/-- `sext_16(v)`: the word read as two's complement (R14). -/
def sext16 (v : Word) : Int :=
  if v.toNat < 32768 then (v.toNat : Int) else (v.toNat : Int) - 65536

/-- `zext_16(v)`: the word read as unsigned (R14). -/
def zext16 (v : Word) : Nat :=
  v.toNat

/-- `addr32(lo, hi)`: a host address from two operand words, low half first (R84). -/
def addr32 (lo hi : Word) : Nat :=
  zext16 lo + 65536 * zext16 hi

/-- `v[7:0]`: `imm8` of a header word, or a `u8` operand, whose bits 15:8 are ignored (R81, R83). -/
def lowByte (v : Word) : Byte :=
  v.extractLsb' 0 8

/-- `v[15:8]`: the opcode of a header word (R81). -/
def opcodeOf (h : Word) : Byte :=
  h.extractLsb' 8 8

/-! ## The opcode map -/

/-- The opcode value of each operation (R85). -/
def Op.code : Op → Byte
  | .nop => 0x00#8
  | .palDefault => 0x01#8
  | .palLoad => 0x02#8
  | .palRead => 0x03#8
  | .getPixel => 0x10#8
  | .point => 0x11#8
  | .fillScreen => 0x12#8
  | .crop => 0x13#8
  | .hline => 0x20#8
  | .vline => 0x21#8
  | .line => 0x22#8
  | .rect => 0x30#8
  | .frect => 0x31#8
  | .tri => 0x32#8
  | .ftri => 0x33#8
  | .circ => 0x40#8
  | .fcirc => 0x41#8
  | .blit => 0x50#8
  | .blitk => 0x51#8
  | .grab => 0x52#8
  | .xform => 0x60#8
  | .mono => 0x70#8
  | .mono2x => 0x71#8
  | .font => 0x72#8
  | .char => 0x73#8
  | .char2x => 0x74#8
  | .str => 0x75#8
  | .str2x => 0x76#8
  | .flush => 0x80#8

/-- How many operand words follow the header: the format `W<N>` of R82. -/
def Op.operandWords : Op → Nat
  | .nop => 0
  | .palDefault => 0
  | .palLoad => 3
  | .palRead => 0
  | .getPixel => 2
  | .point => 2
  | .fillScreen => 0
  | .crop => 3
  | .hline => 3
  | .vline => 3
  | .line => 4
  | .rect => 4
  | .frect => 4
  | .tri => 6
  | .ftri => 6
  | .circ => 3
  | .fcirc => 3
  | .blit => 7
  | .blitk => 7
  | .grab => 7
  | .xform => 10
  | .mono => 6
  | .mono2x => 6
  | .font => 4
  | .char => 3
  | .char2x => 3
  | .str => 5
  | .str2x => 5
  | .flush => 0

/-- The assigned operations, in the order of R85's table. -/
def assignedOps : List Op :=
  [.nop, .palDefault, .palLoad, .palRead, .getPixel, .point, .fillScreen, .crop, .hline, .vline] ++
  [.line, .rect, .frect, .tri, .ftri, .circ, .fcirc, .blit, .blitk, .grab] ++
  [.xform, .mono, .mono2x, .font, .char, .char2x, .str, .str2x, .flush]

/-- The operation an opcode byte names, or none for the 227 values R87 leaves unassigned. -/
def opOf (b : Byte) : Option Op :=
  assignedOps.find? (fun o => o.code == b)

/-! ## Decoding -/

/-- What the decoder finds at the front of a list of words (R86). -/
inductive Decoded where
  /-- A whole command, and the words after it. -/
  | command (i : Instr) (rest : List Word)
  /-- The header word's opcode is not assigned (R87). -/
  | illegal (header : Word)
  /-- The words end before the command does; `missing` more are needed (R86: the engine waits). -/
  | incomplete (missing : Nat)
deriving DecidableEq, Repr

/-- `x[i]` of a command's words, `x[0]` being the header (R14, R81). -/
def wordAt (x : List Word) (i : Nat) : Word :=
  x.getD i 0

/-- The `s16` operand in word `i` (R83). -/
def s16At (x : List Word) (i : Nat) : Int :=
  sext16 (wordAt x i)

/-- The `u16` operand in word `i` (R83). -/
def u16At (x : List Word) (i : Nat) : Nat :=
  zext16 (wordAt x i)

/-- The 32-bit address in words `i` and `i + 1` (R84). -/
def addrAt (x : List Word) (i : Nat) : Nat :=
  addr32 (wordAt x i) (wordAt x (i + 1))

/-- The command of operation `o` whose words are `x` (the operand lists of R82, read as R83 says). -/
def assemble (o : Op) (x : List Word) : Instr :=
  let imm8 := lowByte (wordAt x 0)
  match o with
  | .nop => .nop
  | .palDefault => .palDefault
  | .palLoad => .palLoad (addrAt x 1) (u16At x 3)
  | .palRead => .palRead imm8
  | .getPixel => .getPixel (s16At x 1) (s16At x 2)
  | .point => .point (s16At x 1) (s16At x 2) imm8
  | .fillScreen => .fillScreen imm8
  | .crop => .crop (s16At x 1) (s16At x 2) (s16At x 3)
  | .hline => .hline (s16At x 1) (s16At x 2) (s16At x 3) imm8
  | .vline => .vline (s16At x 1) (s16At x 2) (s16At x 3) imm8
  | .line => .line (s16At x 1) (s16At x 2) (s16At x 3) (s16At x 4) imm8
  | .rect => .rect (s16At x 1) (s16At x 2) (s16At x 3) (s16At x 4) imm8
  | .frect => .frect (s16At x 1) (s16At x 2) (s16At x 3) (s16At x 4) imm8
  | .tri => .tri (s16At x 1) (s16At x 2) (s16At x 3) (s16At x 4) (s16At x 5) (s16At x 6) imm8
  | .ftri => .ftri (s16At x 1) (s16At x 2) (s16At x 3) (s16At x 4) (s16At x 5) (s16At x 6) imm8
  | .circ => .circ (s16At x 1) (s16At x 2) (s16At x 3) imm8
  | .fcirc => .fcirc (s16At x 1) (s16At x 2) (s16At x 3) imm8
  | .blit => .blit (s16At x 1) (s16At x 2) (s16At x 3) (s16At x 4) (u16At x 5) (addrAt x 6)
  | .blitk => .blitk (s16At x 1) (s16At x 2) (s16At x 3) (s16At x 4) (u16At x 5) (addrAt x 6) imm8
  | .grab => .grab (s16At x 1) (s16At x 2) (s16At x 3) (s16At x 4) (u16At x 5) (addrAt x 6)
  | .xform => .xform (addrAt x 1) (s16At x 3) (s16At x 4) (u16At x 5) (u16At x 6) (u16At x 7) (s16At x 8)
      (addrAt x 9) imm8
  | .mono => .mono (s16At x 1) (s16At x 2) (s16At x 3) (s16At x 4) (addrAt x 5) imm8
  | .mono2x => .mono2x (s16At x 1) (s16At x 2) (s16At x 3) (s16At x 4) (addrAt x 5) imm8
  | .font => .font (addrAt x 1) (s16At x 3) (s16At x 4)
  | .char => .char (s16At x 1) (s16At x 2) (lowByte (wordAt x 3)) imm8
  | .char2x => .char2x (s16At x 1) (s16At x 2) (lowByte (wordAt x 3)) imm8
  | .str => .str (s16At x 1) (s16At x 2) (addrAt x 3) (u16At x 5) imm8
  | .str2x => .str2x (s16At x 1) (s16At x 2) (addrAt x 3) (u16At x 5) imm8
  | .flush => .flush

/-- The decoder (R86): an illegal header is found before any operand word is looked at; a command is taken only when
all its words are there. -/
def decode : List Word → Decoded
  | [] => .incomplete 1
  | h :: ws =>
    match opOf (opcodeOf h) with
    | none => .illegal h
    | some o =>
      if ws.length < o.operandWords then .incomplete (o.operandWords - ws.length)
      else .command (assemble o (h :: ws.take o.operandWords)) (ws.drop o.operandWords)

/-! ## Encoding -/

/-- The header word `{opcode, imm8}` (R81, R90). -/
def header (o : Op) (imm8 : Byte) : Word :=
  o.code ++ imm8

/-- An `s16` operand as its word: two's complement (R90). -/
def s16Word (v : Int) : Word :=
  BitVec.ofInt 16 v

/-- A `u16` operand as its word. -/
def u16Word (n : Nat) : Word :=
  BitVec.ofNat 16 n

/-- A `u8` operand as its word, bits 15:8 written as 0 (R88). -/
def u8Word (b : Byte) : Word :=
  b.setWidth 16

/-- A 32-bit address as its two words, low half first (R84, R90). -/
def addrWords (a : Nat) : List Word :=
  [BitVec.ofNat 16 a, BitVec.ofNat 16 (a / 65536)]

/-- The words of a command, header first, `imm8` = 0 where the command does not use it (R80, R90). -/
def encode : Instr → List Word
  | .nop => [header .nop 0]
  | .palDefault => [header .palDefault 0]
  | .palLoad addr count => header .palLoad 0 :: (addrWords addr ++ [u16Word count])
  | .palRead idx => [header .palRead idx]
  | .getPixel x y => [header .getPixel 0, s16Word x, s16Word y]
  | .point x y c => [header .point c, s16Word x, s16Word y]
  | .fillScreen c => [header .fillScreen c]
  | .crop start len view => [header .crop 0, s16Word start, s16Word len, s16Word view]
  | .hline x y len c => [header .hline c, s16Word x, s16Word y, s16Word len]
  | .vline x y len c => [header .vline c, s16Word x, s16Word y, s16Word len]
  | .line x0 y0 x1 y1 c => [header .line c, s16Word x0, s16Word y0, s16Word x1, s16Word y1]
  | .rect x y w h c => [header .rect c, s16Word x, s16Word y, s16Word w, s16Word h]
  | .frect x y w h c => [header .frect c, s16Word x, s16Word y, s16Word w, s16Word h]
  | .tri x0 y0 x1 y1 x2 y2 c =>
    [header .tri c, s16Word x0, s16Word y0, s16Word x1, s16Word y1, s16Word x2, s16Word y2]
  | .ftri x0 y0 x1 y1 x2 y2 c =>
    [header .ftri c, s16Word x0, s16Word y0, s16Word x1, s16Word y1, s16Word x2, s16Word y2]
  | .circ x y r c => [header .circ c, s16Word x, s16Word y, s16Word r]
  | .fcirc x y r c => [header .fcirc c, s16Word x, s16Word y, s16Word r]
  | .blit x y w h stride addr =>
    [header .blit 0, s16Word x, s16Word y, s16Word w, s16Word h, u16Word stride] ++ addrWords addr
  | .blitk x y w h stride addr key =>
    [header .blitk key, s16Word x, s16Word y, s16Word w, s16Word h, u16Word stride] ++ addrWords addr
  | .grab x y w h stride addr =>
    [header .grab 0, s16Word x, s16Word y, s16Word w, s16Word h, u16Word stride] ++ addrWords addr
  | .xform src sw sh ss sx sy ang dst bg =>
    header .xform bg :: (addrWords src ++
      [s16Word sw, s16Word sh, u16Word ss, u16Word sx, u16Word sy, s16Word ang] ++ addrWords dst)
  | .mono x y w h addr c =>
    [header .mono c, s16Word x, s16Word y, s16Word w, s16Word h] ++ addrWords addr
  | .mono2x x y w h addr c =>
    [header .mono2x c, s16Word x, s16Word y, s16Word w, s16Word h] ++ addrWords addr
  | .font addr width height => header .font 0 :: (addrWords addr ++ [s16Word width, s16Word height])
  | .char x y code c => [header .char c, s16Word x, s16Word y, u8Word code]
  | .char2x x y code c => [header .char2x c, s16Word x, s16Word y, u8Word code]
  | .str x y addr len c => [header .str c, s16Word x, s16Word y] ++ addrWords addr ++ [u16Word len]
  | .str2x x y addr len c => [header .str2x c, s16Word x, s16Word y] ++ addrWords addr ++ [u16Word len]
  | .flush => [header .flush 0]

/-! ## Words of the opcode table -/

/-- The words of an instruction given as one number, its first word in bits 15..0, bits from `nbits` on being 0: the
eleven words of the longest command (XFORM, R82). -/
def tableWords (nbits w : Nat) : List Word :=
  (List.range 11).map (fun k => BitVec.ofNat 16 ((w % 2 ^ nbits) >>> (16 * k)))

/-- The same, cut to the words of the command its header names: what a host writes to CMD for it (one word where the
opcode is not assigned). -/
def commandWords (nbits w : Nat) : List Word :=
  let x := tableWords nbits w
  match opOf (opcodeOf (wordAt x 0)) with
  | some o => x.take (1 + o.operandWords)
  | none => x.take 1

/-- The instruction the decoder reads from an instruction of the opcode table given as one number. -/
def decodeTableWord (nbits w : Nat) : Option Instr :=
  match decode (commandWords nbits w) with
  | .command i _ => some i
  | .illegal _ => none
  | .incomplete _ => none

end Sys2Proof
end

