-- ==== Sys2Proof/Config.lean ====
section
/-! DEFINITION. What an instance of the engine fixes: the parameters of R9 as one record of plain data, and the free
values, opaque constants that no proof can evaluate. The values of THIS hardware stand in Machine/Params.lean. -/

namespace Sys2Proof

/-- When the interlace parity flips (R9 `PARITY_TOGGLE`, R205). -/
inductive ParityToggle where
  | everyFlush
  | interlacedOnly
deriving DecidableEq, Repr

/-- The parameters of R9. `PAL_N` (256) and `TRIG` are fixed by the spec and no field; `NB` is computed
(`Machine.bandCount`). -/
structure Config where
  /-- `W`: canvas width in pixels. -/
  w : Nat
  /-- `H`: canvas height in pixels. -/
  h : Nat
  /-- `K`: first row of the bottom sector. -/
  k : Nat
  /-- `BAND_W`: columns per dirty band. -/
  bandW : Nat
  /-- `THRESH`: a flush of more dirty bands than this is interlaced. -/
  thresh : Nat
  /-- `FIFO_DEPTH`: words the command FIFO holds. -/
  fifoDepth : Nat
  /-- `DEFPAL[0..15]`: the default colours. -/
  defpal : List Word
  /-- `HValid` as a list of address ranges, first and last address included. -/
  hvalid : List (Nat × Nat)
  /-- `PARITY_TOGGLE`. -/
  parityToggle : ParityToggle
  /-- `STR2X_ADV`. -/
  str2xAdv : Nat
deriving DecidableEq, Repr

/-- FREE VALUE (log 3, DESIGN CHOICE): the sixteen colours of `DEFPAL`, an open parameter for which no source gives
values (R9, 91_not_in_source.md N3). -/
opaque Config.defaultColour : Nat → Word

/-- FREE VALUE (log 1): the byte a canvas cell holds after a reset and before anything is written to it, "any byte
value, not necessarily the same after two resets" (R37, I2). Arguments: how many resets came before, whether the
cell is in the bottom sector, its offset in the sector. -/
opaque Config.freeCanvasByte : Nat → Bool → Nat → Byte

/-- FREE VALUE (log 7): how many of its external effects an abandoned command had performed when the reset came;
"which two is not specified" (R252, I7). Argument: how many resets came before. -/
opaque Config.freeAbandonPoint : Nat → Nat

/-- FREE VALUE (log 24, DESIGN CHOICE): what FIFO_FREE reads where the number of free words does not fit its 16 bits (R28,
R38; R9 gives FIFO_DEPTH no upper bound). Argument: that number. -/
opaque Config.freeFifoFree : Nat → Word

end Sys2Proof
end

