-- ==== Sys2Proof/Machine/Params.lean ====
section
/-! DEFINITION. The instance this hardware is (the "value" column of R9), the sizes computed from the parameters, and
the reset values that need computing (R37). -/

namespace Sys2Proof.Machine

/-- `NB = ceil(W / BAND_W)`: bands per row (R9). -/
def bandCount (p : Config) : Nat :=
  (p.w + p.bandW - 1) / p.bandW

/-- Bytes in sector TOP (R21). -/
def topSize (p : Config) : Nat :=
  p.k * p.w

/-- Bytes in sector BOT (R21). -/
def botSize (p : Config) : Nat :=
  (p.h - p.k) * p.w

/-- This hardware (R9): the reference values, the defaults of the open parameters, and, DESIGN CHOICE (log 4, unsafe for
claims about runs from reset), every host address valid. -/
def hardware : Config where
  w := 320
  h := 480
  k := 240
  bandW := 64
  thresh := 900
  fifoDepth := 64
  defpal := (List.range 16).map Config.defaultColour
  hvalid := [(0, 4294967295)]
  parityToggle := .everyFlush
  str2xAdv := 2

/-- The default palette: `DEFPAL` in entries 0..15, zero in entries 16..255 (R37, R101). -/
def defaultPalette (p : Config) : List Word :=
  p.defpal ++ List.replicate 240 0

/-- A sector of `n` bytes none of which has been written since reset (R37). -/
def blankSector (n : Nat) : List (Nat × Option Byte) :=
  if n = 0 then [] else [(n, none)]

/-- Every dirty flag set (R37). -/
def allDirty (p : Config) : List Bool :=
  List.replicate (p.h * bandCount p) true

end Sys2Proof.Machine
end

