-- ==== Sys2Proof/Machine/State.lean ====
section
/-! DEFINITION. The state of the machine as plain data (R20; INVENTORY.md "State"), what a host can do to it, the
reasons a step can stop, and the state right after reset (R37). -/

namespace Sys2Proof.Machine

/-- A state of the FSTATE machine (R25). -/
inductive FlushState where
  | idle
  | flushing
deriving DecidableEq, Repr

/-- Which of the two sector memories (R21). -/
inductive Sector where
  | top
  | bot
deriving DecidableEq, Repr

/-- A sector memory: its bytes by rising offset, as runs (length, content). `none` is a byte nothing has written since
reset. Canonical form: no empty run, neighbouring runs differ (`SectorMem.wf`, log 12). -/
abbrev SectorMem := List (Nat × Option Byte)

/-- Host memory: (address, byte) pairs in canonical form (`Memory.wf`, log 2). -/
abbrev Memory := List Host.Cell

/-- A Display Sink transaction (R206). -/
inductive SinkTx where
  /-- `Sink.SetWindow(x, y, w, h)`. -/
  | setWindow (x y w h : Nat)
  /-- `Sink.WritePixels(p)`. -/
  | writePixels (p : List Word)
deriving DecidableEq, Repr

/-- The fault causes (R221). -/
inductive Cause where
  | illegalOpcode
  | badOperand
  | hostMemFault
  | noFont
  | fifoOverrun
deriving DecidableEq, Repr

/-- What the outside world does, one event a step (R16, R28, R52, R250; log 6). -/
inductive HostEvent where
  /-- The host writes `v` at byte offset `off` of the register block with an access of `width` bits (R28). -/
  | regWrite (off width : Nat) (v : Word)
  /-- The host reads at byte offset `off` of the register block with an access of `width` bits (R28). -/
  | regRead (off width : Nat)
  /-- The host writes a byte of host memory (R52). -/
  | memWrite (a : BitVec 32) (v : Byte)
  /-- The platform's hardware reset (R250). -/
  | hwReset
  /-- The engine fetches, and its command is then in execution (EXEC = 1) while the host acts (R86, R224). -/
  | engineBegin
  /-- The engine takes a whole turn: it completes the command in execution, or fetches one and runs it (R86). -/
  | engineTurn
deriving DecidableEq, Repr

/-- Why the machine stops with a fault. The faults of R221 are no stops: they are entered, `raiseFault`. -/
inductive Fault where
  /-- A canvas access outside `0 <= x < W`, `0 <= y < H`, which "must never be dereferenced" (R51, R112, I3; log 11).
  Raised by `setPixel` and `grabPixel` only, and by no command (`Obligations.EveryCommandAnswersANextState`). Safe. -/
  | canvasRange
deriving DecidableEq, Repr

/-- Why the machine gives a step no meaning. -/
inductive Refusal where
  /-- An instruction without a meaning yet, raised by no arm of `exec`. Safe. -/
  | notModelled (mnemonic : String)
  /-- A register access that is not an aligned 16-bit access to a listed register: "not specified and a model refuses
  it" (R28, I6; log 9). Raised by the host's register events. Safe. -/
  | registerAccess
  /-- A host write to a byte that a queued or executing command reads or writes: a race, which a model may refuse
  (R65, I5; log 8). Raised by the host's memory writes. Safe. -/
  | bufferRace
deriving DecidableEq, Repr

/-- The whole machine: the engine's state (R20), host memory and the sink's trace (R36), and the model's own fields
(`cfg`, `resets`, `bus`, `inputs`, `hostReads`). -/
structure State where
  /-- The instance's parameters (R9; log 4). No step changes them. -/
  cfg : Config
  /-- `TOP` (R21). -/
  top : SectorMem
  /-- `BOT` (R21). -/
  bot : SectorMem
  /-- `PAL[0..255]` (R22). -/
  pal : List Word
  /-- `DIRTY[y][b]`, row after row: entry `y*NB + b` (R23). -/
  dirty : List Bool
  /-- `PARITY`: true is 1, odd rows (R24). -/
  parity : Bool
  /-- `FSTATE` (R25). -/
  fstate : FlushState
  /-- `ILACE` (R35). -/
  ilace : Bool
  /-- `FONT_ADDR` (R26). -/
  fontAddr : BitVec 32
  /-- `FONT_W` (R26). -/
  fontW : Word
  /-- `FONT_H` (R26). -/
  fontH : Word
  /-- `FONTV` (R26). -/
  fontV : Bool
  /-- `FIFO`, front first (R27). -/
  fifo : List Word
  /-- `EXEC`, with the command it stands for: EXEC = 1 iff some command is here (R27; log 15). -/
  cur : Option Instr
  /-- `RES0` (R31). -/
  res0 : Word
  /-- `RES1` (R31). -/
  res1 : Word
  /-- `RES2` (R31). -/
  res2 : Word
  /-- `FAULT` (R32). -/
  fault : Bool
  /-- `FCAUSE` (R32). -/
  fcause : Word
  /-- `FINFO` (R32). -/
  finfo : BitVec 32
  /-- `HMEM` (R52). -/
  hmem : Memory
  /-- The Display Sink's output trace, oldest first (R206). -/
  sink : List SinkTx
  /-- MODEL's: the engine's host-memory writes, oldest first (log 13). -/
  bus : List Host.Cell
  /-- MODEL's: how many resets came before (log 1, log 7). -/
  resets : Nat
  /-- MODEL's: what the outside world does next, oldest first (log 6). -/
  inputs : List HostEvent
  /-- MODEL's: the values the host's register reads returned, oldest first (log 17). -/
  hostReads : List Word
deriving DecidableEq, Repr

/-- How a stretch of a command's pseudocode ends. -/
inductive Run where
  /-- It ran to its end. -/
  | ok (s : State)
  /-- It reached `raise c(info)` in state `s` (R224). -/
  | raise (c : Cause) (info : Int) (s : State)
  /-- It made an access that has no meaning. -/
  | bad (f : Fault)
deriving DecidableEq, Repr

/-- The machine right after reset (R37, R251), host memory and the sink's trace empty, nothing pending outside. -/
def State.reset : State where
  cfg := hardware
  top := blankSector (topSize hardware)
  bot := blankSector (botSize hardware)
  pal := defaultPalette hardware
  dirty := allDirty hardware
  parity := false
  fstate := .idle
  ilace := false
  fontAddr := 0
  fontW := 0
  fontH := 0
  fontV := false
  fifo := []
  cur := none
  res0 := 0
  res1 := 0
  res2 := 0
  fault := false
  fcause := 0
  finfo := 0
  hmem := []
  sink := []
  bus := []
  resets := 0
  inputs := []
  hostReads := []

end Sys2Proof.Machine
end

