-- ==== Sys2Proof/Machine/Flags.lean ====
section
/-! DEFINITION. The flags: the dirty map with its marking and counting (R23, R113, R114, R201, R202), the interlace
parity (R205), and the status bits a host reads (R29, R38). -/

namespace Sys2Proof.Machine

/-! ## The dirty map -/

/-- `Band(x) = x div BAND_W` (R113). -/
def bandOf (p : Config) (x : Int) : Nat :=
  x.toNat / p.bandW

/-- Where `DIRTY[y][b]` stands in `State.dirty` (R23). -/
def dirtyIndex (p : Config) (y b : Nat) : Nat :=
  y * bandCount p + b

/-- `DIRTY[y][b]` (R23). -/
def dirtyFlag (y b : Nat) (s : State) : Bool :=
  s.dirty.getD (dirtyIndex s.cfg y b) false

/-- `DIRTY[y][b] <- v` (R23). -/
def setDirty (y b : Nat) (v : Bool) (s : State) : State :=
  { s with dirty := s.dirty.set (dirtyIndex s.cfg y b) v }

/-- `Mark(x, y)`: set the flag of the band of `x` in row `y` (R114). -/
def mark (x y : Int) (s : State) : State :=
  setDirty y.toNat (bandOf s.cfg x) true s

/-- `DirtyCount()`: how many flags are set, rows of both parities (R201). -/
def dirtyCount (s : State) : Nat :=
  s.dirty.count true

/-- `BandX(b)`: the first column of band `b` (R202). -/
def bandStart (p : Config) (b : Nat) : Nat :=
  b * p.bandW

/-- `BandW(b)`: how many columns band `b` has (R202). -/
def bandWidth (p : Config) (b : Nat) : Nat :=
  min p.bandW (p.w - b * p.bandW)

/-! ## Interlacing -/

/-- Whether a flush of the current dirty map runs interlaced: the count strictly exceeds THRESH (R203). -/
def flushInterlaced (s : State) : Bool :=
  decide (s.cfg.thresh < dirtyCount s)

/-- Whether a flush that runs as `interlaced` says visits row `y`: not a row of the other parity (R203). -/
def rowVisited (interlaced parity : Bool) (y : Nat) : Bool :=
  !interlaced || (y % 2 == parity.toNat)

/-- `UpdateParity(interlaced)` (R205). -/
def updateParity (interlaced : Bool) (s : State) : State :=
  if s.cfg.parityToggle = .everyFlush ∨ interlaced = true then { s with parity := !s.parity } else s

/-! ## Status bits -/

/-- `EXEC`: 1 iff a command is in execution (R27; log 15). -/
def execBit (s : State) : Bool :=
  s.cur.isSome

/-- STATUS bit 0, BUSY (R29). -/
def busy (s : State) : Bool :=
  !s.fifo.isEmpty || execBit s

/-- A flag at bit `n` of a register. -/
def flagAt (n : Nat) (b : Bool) : Word :=
  BitVec.ofNat 16 (b.toNat * 2 ^ n)

/-- STATUS: BUSY, FLUSHING, FAULT, PARITY, ILACE, FONTV, FULL in bits 0 to 6, bits 15:7 zero (R29). -/
def statusWord (s : State) : Word :=
  flagAt 0 (busy s) ||| flagAt 1 (s.fstate == .flushing) ||| flagAt 2 s.fault ||| flagAt 3 s.parity
    ||| flagAt 4 s.ilace ||| flagAt 5 s.fontV ||| flagAt 6 (s.fifo.length == s.cfg.fifoDepth)

/-- FIFO_FREE: the words that can still be written (R38). What the 16 bits read where that number is 65536 or more, which
R9 does not exclude, the spec does not say: a free value (DESIGN CHOICE; log 24). -/
def fifoFree (s : State) : Word :=
  if s.cfg.fifoDepth - s.fifo.length < 65536 then BitVec.ofNat 16 (s.cfg.fifoDepth - s.fifo.length)
  else Config.freeFifoFree (s.cfg.fifoDepth - s.fifo.length)

end Sys2Proof.Machine
end

