-- ==== Sys2Proof/Machine/Operands.lean ====
section
/-! DEFINITION. Operands of the commands' rules: the effective host addresses (R93), computed in unbounded integers
(R54), and the sizes they are made of. -/

namespace Sys2Proof.Machine

/-- `ceil(a / b)`, `b > 0` (R13). -/
def ceilDiv (a b : Int) : Int :=
  -((-a) / b)

/-- PAL_LOAD: the address of colour `i` (R93, R102). -/
def colourAddr (addr : Nat) (i : Nat) : Int :=
  addr + 2 * i

/-- BLIT, BLITK, GRAB: the address of the bitmap pixel in column `ox + c` of row `oy + r` (R93, R160, R164). -/
def bitmapAddr (addr stride : Nat) (ox oy : Int) (r c : Nat) : Int :=
  addr + (oy + r) * stride + ox + c

/-- XFORM: the address of source pixel `(su, sv)` (R93, R175). -/
def xformSrcAddr (src ss : Nat) (su sv : Int) : Int :=
  src + sv * ss + su

/-- XFORM: the address of destination pixel `(i, j)`, rows tightly packed (R93, R175). -/
def xformDstAddr (dst : Nat) (dw : Int) (i j : Nat) : Int :=
  dst + j * dw + i

/-- `rb = ceil(w / 8)`: bytes in a row of a monochrome bitmap (R185). -/
def rowBytes (w : Int) : Int :=
  ceilDiv w 8

/-- MONO and MONO2X, and glyphs: the address of the byte that holds column `c` of row `r` (R93, R186). -/
def monoAddr (addr w r c : Int) : Int :=
  addr + r * rowBytes w + c / 8

/-- `GS`: bytes in a glyph of the active font (R196). -/
def glyphStride (s : State) : Int :=
  rowBytes s.fontW.toNat * s.fontH.toNat

/-- `GlyphAddr(code)` (R196). -/
def glyphAddr (s : State) (code : Byte) : Int :=
  s.fontAddr.toNat + glyphStride s * code.toNat

/-- STR and STR2X: the address of string byte `k` (R93, R194). -/
def stringAddr (addr k : Nat) : Int :=
  addr + k

end Sys2Proof.Machine
end

