-- ==== Sys2Proof/Machine/Ops.lean ====
section
/-! DEFINITION. The named operations every meaning is built from: host memory and sector memories in their canonical
forms, taking a fault and leaving it by reset, running pseudocode, host-memory accesses, the canvas primitives of
41_canvas.md, and the runs of pixels that lines and filled shapes are made of. -/

namespace Sys2Proof.Machine

/-! ## Host memory -/

/-- What a byte of host memory that no entry lists reads as: 0 (DESIGN CHOICE, unsafe; log 2). -/
def unlistedByte : Byte := 0

/-- `HMEM[a]` (R57). -/
def Memory.read : Memory → Nat → Byte
  | [], _ => unlistedByte
  | (b, u) :: m, a => if a = b then u else Memory.read m a

/-- `HMEM[a] <- v` (R58), keeping the canonical form. -/
def Memory.write : Memory → Nat → Byte → Memory
  | [], a, v => if v = unlistedByte then [] else [(a, v)]
  | (b, u) :: m, a, v =>
    if a < b then (if v = unlistedByte then (b, u) :: m else (a, v) :: (b, u) :: m)
    else if a = b then (if v = unlistedByte then m else (a, v) :: m)
    else (b, u) :: Memory.write m a v

/-- The canonical form: addresses strictly rising and below 2^32, no entry equal to what an unlisted byte reads as. -/
def Memory.wf : Memory → Bool
  | [] => true
  | (a, v) :: m => decide (v ≠ unlistedByte) && decide (a < 4294967296) && m.all (fun c => decide (a < c.1)) && Memory.wf m

/-! ## Sector memories -/

/-- A run in front of others, merged where it must be. -/
def SectorMem.push (n : Nat) (v : Option Byte) (m : SectorMem) : SectorMem :=
  match m with
  | [] => if n = 0 then [] else [(n, v)]
  | (k, u) :: m' => if n = 0 then (k, u) :: m' else if v = u then (n + k, u) :: m' else (n, v) :: (k, u) :: m'

/-- The content at an offset; `none` where nothing has been written since reset (and beyond the sector's end). -/
def SectorMem.get : SectorMem → Nat → Option Byte
  | [], _ => none
  | (n, v) :: m, i => if i < n then v else SectorMem.get m (i - n)

/-- Store a byte at an offset (beyond the end: nothing). -/
def SectorMem.set : SectorMem → Nat → Byte → SectorMem
  | [], _, _ => []
  | (n, u) :: m, i, v =>
    if i < n then SectorMem.push i u (SectorMem.push 1 (some v) (SectorMem.push (n - 1 - i) u m))
    else SectorMem.push n u (SectorMem.set m (i - n) v)

/-- The sector of `n` bytes all equal to `v`. -/
def SectorMem.fill (n : Nat) (v : Byte) : SectorMem :=
  SectorMem.push n (some v) []

/-- How many bytes the sector has. -/
def SectorMem.size : SectorMem → Nat
  | [] => 0
  | (n, _) :: m => n + SectorMem.size m

/-- The canonical form: no empty run, neighbouring runs differ. -/
def SectorMem.wf : SectorMem → Bool
  | [] => true
  | (n, v) :: m => decide (n ≠ 0) && decide ((m.head?.map Prod.snd) ≠ some v) && SectorMem.wf m

/-- The sector memory of a name (R21). -/
def sectorOf (d : Sector) (s : State) : SectorMem :=
  match d with
  | .top => s.top
  | .bot => s.bot

/-- Replace a sector memory. -/
def withSector (d : Sector) (m : SectorMem) (s : State) : State :=
  match d with
  | .top => { s with top := m }
  | .bot => { s with bot := m }

/-! ## Taking a fault, and leaving it -/

/-- The cause code of FCAUSE (R221). -/
def causeCode : Cause → Word
  | .illegalOpcode => 1
  | .badOperand => 2
  | .hostMemFault => 3
  | .noFont => 4
  | .fifoOverrun => 5

/-- FAULT ENTRY (R224), the meaning of `raise c(info)`: the first fault is recorded, every queued word is discarded,
and, where the engine raised it, the command stops. There is no handler and no saved program counter (R34). -/
def raiseFault (byEngine : Bool) (c : Cause) (info : Int) (s : State) : State :=
  { s with
    fault := true
    fcause := if s.fault then s.fcause else causeCode c
    finfo := if s.fault then s.finfo else BitVec.ofInt 32 info
    fifo := []
    cur := if byEngine then none else s.cur
    fstate := if byEngine then .idle else s.fstate }

/-- RESET (R251), the only way out of the fault state (R229): every item of the engine's state at its value of R37;
host memory, the sink and the parameters untouched (R253). The canvas becomes unspecified anew: the free bytes of
the next `resets` (log 1). -/
def resetEngine (s : State) : State :=
  { s with
    top := blankSector (topSize s.cfg)
    bot := blankSector (botSize s.cfg)
    pal := defaultPalette s.cfg
    dirty := allDirty s.cfg
    parity := false
    fstate := .idle
    ilace := false
    fontAddr := 0
    fontW := 0
    fontH := 0
    fontV := false
    fifo := []
    cur := none
    res0 := 0
    res1 := 0
    res2 := 0
    fault := false
    fcause := 0
    finfo := 0
    resets := s.resets + 1 }

/-! ## Running pseudocode -/

/-- The outcome of a command. -/
abbrev Out := Host.Outcome State Fault Refusal

/-- One statement after another (R15): what follows a `raise` is not executed (R224). -/
def Run.bind (r : Run) (f : State → Run) : Run :=
  match r with
  | .ok s => f s
  | .raise c info s => .raise c info s
  | .bad e => .bad e

/-- A command's outcome from how its pseudocode ended: a raised fault is taken, and the fault state is the next state. -/
def Run.outcome : Run → Out
  | .ok s => .next s
  | .raise c info s => .next (raiseFault true c info s)
  | .bad e => .fault e

/-- `n` passes of a loop body, the loop variable starting at `i`. -/
def loopFrom (body : Nat → State → Run) : Nat → Nat → State → Run
  | 0, _, s => .ok s
  | n + 1, i, s => (body i s).bind (loopFrom body n (i + 1))

/-- `for i in 0..n-1: body(i)` (R15). -/
def forRange (n : Nat) (body : Nat → State → Run) (s : State) : Run :=
  loopFrom body n 0 s

/-! ## Host-memory accesses -/

/-- `HValid(a)` (R53). -/
def hValid (p : Config) (a : Nat) : Bool :=
  p.hvalid.any (fun r => decide (r.1 ≤ a) && decide (a ≤ r.2))

/-- Whether the engine may access the computed address `a`: in `0..2^32-1`, and HValid (R53, R54). -/
def accessible (p : Config) (a : Int) : Bool :=
  decide (0 ≤ a) && decide (a.toNat < 4294967296) && hValid p a.toNat

/-- `accessible` as a proposition. -/
abbrev Accessible (p : Config) (a : Int) : Prop :=
  accessible p a = true

/-- `v = MemRead(a, 1)`, then `k v` (R57). -/
def readByte (a : Int) (s : State) (k : Byte → Run) : Run :=
  if Accessible s.cfg a then k (Memory.read s.hmem a.toNat) else .raise .hostMemFault a s

/-- `v = MemRead(a, 2)`, then `k v`: two byte reads, the low byte first (R55, R57). -/
def readWord (a : Int) (s : State) (k : Word → Run) : Run :=
  readByte a s fun lo => readByte (a + 1) s fun hi => k (hi ++ lo)

/-- The state after the engine has stored byte `v` at address `a`. -/
def storeByte (a : Nat) (v : Byte) (s : State) : State :=
  { s with hmem := Memory.write s.hmem a v, bus := s.bus ++ [(a, v)] }

/-- `MemWrite(a, 1, v)` (R58). -/
def writeByte (a : Int) (v : Byte) (s : State) : Run :=
  if Accessible s.cfg a then .ok (storeByte a.toNat v s) else .raise .hostMemFault a s

/-! ## The canvas -/

/-- `(x, y)` is a coordinate of the canvas (R21, R51). -/
abbrev InCanvas (p : Config) (x y : Int) : Prop :=
  0 ≤ x ∧ x < p.w ∧ 0 ≤ y ∧ y < p.h

/-- `Translate(x, y)`, defined in range only (R111). -/
def translate (p : Config) (x y : Int) : Option (Sector × Nat) :=
  if InCanvas p x y then
    if y < p.k then some (.top, (y * p.w + x).toNat) else some (.bot, ((y - p.k) * p.w + x).toNat)
  else none

/-- The byte at an offset of a sector: what was last written there, or, where nothing has been since reset, the free
value of this reset (R37; log 1). -/
def sectorByte (d : Sector) (off : Nat) (s : State) : Byte :=
  (SectorMem.get (sectorOf d s) off).getD (Config.freeCanvasByte s.resets (d == .bot) off)

/-- `CanvasRead(x, y)`, defined in range only (R112). -/
def canvasRead (x y : Int) (s : State) : Option Byte :=
  match translate s.cfg x y with
  | some (d, off) => some (sectorByte d off s)
  | none => none

/-- `CanvasWrite(x, y, v)`, defined in range only (R112). -/
def canvasWrite (x y : Int) (v : Byte) (s : State) : Option State :=
  match translate s.cfg x y with
  | some (d, off) => some (withSector d (SectorMem.set (sectorOf d s) off v) s)
  | none => none

/-- `SetPixel(x, y, c)`: `Mark(x, y)`, then `CanvasWrite(x, y, c)` (R115). -/
def setPixel (x y : Int) (c : Byte) (s : State) : Run :=
  match canvasWrite x y c (mark x y s) with
  | some t => .ok t
  | none => .bad .canvasRange

/-- `Point(x, y, c)`: bounds-checked (R124). -/
def point (x y : Int) (c : Byte) (s : State) : Run :=
  if InCanvas s.cfg x y then setPixel x y c s else .ok s

/-- `SetPixel` on each pixel of a list, in order, all in colour `c` (R115). -/
def setPixels (c : Byte) : List (Int × Int) → State → Run
  | [], s => .ok s
  | q :: qs, s => (setPixel q.1 q.2 c s).bind (setPixels c qs)

/-- `Crop(start, len, view)`, the third component being `last` or NONE (R116). -/
def crop (start len view : Int) : Int × Int × Option Int :=
  if len ≤ 0 ∨ view ≤ 0 ∨ start ≥ view ∨ start + len - 1 < 0 then (0, 0, none)
  else
    let first := max start 0
    let last := min (start + len - 1) (view - 1)
    (first, last - first + 1, some last)

/-! ## Runs of pixels

A drawing command that reads no memory is the list of the pixels it calls `SetPixel` on, in the order of its
pseudocode; `setPixels` draws the list. -/

/-- The pixel `Point(x, y)` writes, if any (R124). -/
def pointPixels (p : Config) (x y : Int) : List (Int × Int) :=
  if InCanvas p x y then [(x, y)] else []

/-- The pixels `HLine(x, y, len)` writes (R130). -/
def hlinePixels (p : Config) (x y len : Int) : List (Int × Int) :=
  if y < 0 ∨ y ≥ p.h then []
  else
    match crop x len p.w with
    | (_, _, none) => []
    | (xs, n, some _) => (List.range n.toNat).map (fun (i : Nat) => (xs + (i : Int), y))

/-- The pixels `VLine(x, y, len)` writes (R131). -/
def vlinePixels (p : Config) (x y len : Int) : List (Int × Int) :=
  if x < 0 ∨ x ≥ p.w then []
  else
    match crop y len p.h with
    | (_, _, none) => []
    | (ys, n, some _) => (List.range n.toNat).map (fun (i : Nat) => (x, ys + (i : Int)))

/-- Draw a list of pixels: the whole meaning of a drawing command that reads no memory. -/
def drawPixels (c : Byte) (pixels : List (Int × Int)) (s : State) : Out :=
  (setPixels c pixels s).outcome

end Sys2Proof.Machine
end

