-- ==== Sys2Proof/Machine/Affine.lean ====
section
/-! DEFINITION. The affine transform resampler: XFORM (46_affine.md). -/

namespace Sys2Proof.Machine

/-- `TRIG[0..90]`: 32768 times the sine of whole degrees, rounded (R172). -/
def trigTable : List Nat :=
  [0, 572, 1144, 1715, 2286, 2856, 3425, 3993, 4560, 5126] ++
  [5690, 6252, 6813, 7371, 7927, 8481, 9032, 9580, 10126, 10668] ++
  [11207, 11743, 12275, 12803, 13328, 13848, 14365, 14876, 15384, 15886] ++
  [16384, 16877, 17364, 17847, 18324, 18795, 19261, 19720, 20174, 20622] ++
  [21063, 21498, 21926, 22348, 22763, 23170, 23571, 23965, 24351, 24730] ++
  [25102, 25466, 25822, 26170, 26510, 26842, 27166, 27482, 27789, 28088] ++
  [28378, 28660, 28932, 29197, 29452, 29698, 29935, 30163, 30382, 30592] ++
  [30792, 30983, 31164, 31336, 31499, 31651, 31795, 31928, 32052, 32166] ++
  [32270, 32365, 32449, 32524, 32588, 32643, 32688, 32723, 32748, 32763] ++
  [32768]

/-- `TRIG[d]`. -/
def trig (d : Nat) : Int :=
  (trigTable.getD d 0 : Nat)

/-- `SinQ(ang)` by quadrant folding (R173). -/
def sinQ (ang : Int) : Int :=
  let a := (ang % 360).toNat
  if a ≤ 90 then trig a
  else if a ≤ 180 then trig (180 - a)
  else if a ≤ 270 then -trig (a - 180)
  else -trig (360 - a)

/-- `CosQ(ang)` (R173). -/
def cosQ (ang : Int) : Int :=
  sinQ (ang + 90)

/-- A destination side from the source sides scaled: `ceil((A*|f| + B*|g|) / 2^23)` (R174). -/
def xformSide (a b f g : Int) : Int :=
  ceilDiv (a * f.natAbs + b * g.natAbs) 8388608

/-- `dw` (R174, R175). -/
def xformWidth (sw sh : Int) (sx sy : Nat) (ang : Int) : Int :=
  xformSide (sw * sx) (sh * sy) (cosQ ang) (sinQ ang)

/-- `dh` (R174, R175). -/
def xformHeight (sw sh : Int) (sx sy : Nat) (ang : Int) : Int :=
  xformSide (sw * sx) (sh * sy) (sinQ ang) (cosQ ang)

/-- `Un`: the inverse rotation's first coordinate, for destination pixel `(i, j)` (R175). -/
def xformU (ang dw dh : Int) (i j : Nat) : Int :=
  (2 * i + 1 - dw) * cosQ ang + (2 * j + 1 - dh) * sinQ ang

/-- `Vn`: the inverse rotation's second coordinate (R175). -/
def xformV (ang dw dh : Int) (i j : Nat) : Int :=
  -(2 * i + 1 - dw) * sinQ ang + (2 * j + 1 - dh) * cosQ ang

/-- Inverse scale, recentre, floor: `su` from `Un`, `sv` from `Vn` (R175; the divisor is positive). -/
def xformCoord (u : Int) (scale : Nat) (side : Int) : Int :=
  (2 * u + 256 * scale * side) / (512 * scale)

/-- `(su, sv)`: the source pixel of destination pixel `(i, j)` (R175). -/
def xformSource (sw sh : Int) (sx sy : Nat) (ang dw dh : Int) (i j : Nat) : Int × Int :=
  (xformCoord (xformU ang dw dh i j) sx sw, xformCoord (xformV ang dw dh i j) sy sh)

/-- XFORM's nothing to transform (R175). -/
abbrev XformEmpty (sw sh : Int) (sx sy : Nat) : Prop :=
  sw ≤ 0 ∨ sh ≤ 0 ∨ sx = 0 ∨ sy = 0

/-- XFORM's work on destination pixel `(i, j)`: the source byte, or the background, is written (R175). -/
def xformPixel (src : Nat) (sw sh : Int) (ss : Nat) (q : Int × Int) (a : Int) (bg : Byte) (s : State) : Run :=
  if 0 ≤ q.1 ∧ q.1 < sw ∧ 0 ≤ q.2 ∧ q.2 < sh then
    readByte (xformSrcAddr src ss q.1 q.2) s fun v => writeByte a v s
  else writeByte a bg s

/-- XFORM's two loops (R175). -/
def xformLoop (src : Nat) (sw sh : Int) (ss sx sy : Nat) (ang : Int) (dst : Nat) (bg : Byte) (dw dh : Int)
    (s : State) : Run :=
  forRange dh.toNat
    (fun j => forRange dw.toNat
      (fun i => xformPixel src sw sh ss (xformSource sw sh sx sy ang dw dh i j) (xformDstAddr dst dw i j) bg)) s

/-- XFORM (R175). -/
def execXform (src : Nat) (sw sh : Int) (ss sx sy : Nat) (ang : Int) (dst : Nat) (bg : Byte) (s : State) : Out :=
  if XformEmpty sw sh sx sy then .next { s with res0 := 0, res1 := 0 }
  else
    let dw := xformWidth sw sh sx sy ang
    let dh := xformHeight sw sh sx sy ang
    if dw > 32767 ∨ dh > 32767 then Run.outcome (.raise .badOperand 0 s)
    else
      ((xformLoop src sw sh ss sx sy ang dst bg dw dh s).bind fun t =>
        .ok { t with res0 := BitVec.ofInt 16 dw, res1 := BitVec.ofInt 16 dh }).outcome

end Sys2Proof.Machine
end

