-- ==== Sys2Proof/Machine/Blit.lean ====
section
/-! DEFINITION. The bitmap blit engine: BLIT, BLITK, GRAB (45_blit.md). -/

namespace Sys2Proof.Machine

/-- What `BlitClip` returns where something is visible (R164): the visible rectangle and the columns and rows cut off
on the left and at the top. -/
structure BlitBox where
  xs : Int
  ys : Int
  wn : Nat
  hn : Nat
  ox : Int
  oy : Int
deriving DecidableEq, Repr

/-- `BlitClip(x, y, w, h)`, `none` being NOTHING (R164). -/
def blitClip (p : Config) (x y w h : Int) : Option BlitBox :=
  if w ≤ 0 ∨ h ≤ 0 then none
  else if x ≥ p.w ∨ y ≥ p.h ∨ x + w - 1 < 0 ∨ y + h - 1 < 0 then none
  else
    let cx := crop x w p.w
    let cy := crop y h p.h
    some ⟨cx.1, cy.1, cx.2.1.toNat, cy.2.1.toNat, cx.1 - x, cy.1 - y⟩

/-- The loops the three copies share: row by row, column by column, `body` at the canvas coordinate and the host address
that correspond (R161 to R164). -/
def blitLoop (k : BlitBox) (addr stride : Nat) (body : Int → Int → Int → State → Run) (s : State) : Run :=
  forRange k.hn
    (fun r => forRange k.wn
      (fun c => body (k.xs + (c : Int)) (k.ys + (r : Int)) (bitmapAddr addr stride k.ox k.oy r c))) s

/-- BLIT's copy of one pixel (R161). -/
def blitPixel (x y a : Int) (s : State) : Run :=
  readByte a s fun v => setPixel x y v s

/-- BLITK's copy of one pixel: the source byte equal to the key is skipped (R162). -/
def blitkPixel (key : Byte) (x y a : Int) (s : State) : Run :=
  readByte a s fun v => if v ≠ key then setPixel x y v s else .ok s

/-- GRAB's copy of one pixel (R163). -/
def grabPixel (x y a : Int) (s : State) : Run :=
  match canvasRead x y s with
  | some v => writeByte a v s
  | none => .bad .canvasRange

/-- BLIT (R161). -/
def execBlit (x y w h : Int) (stride addr : Nat) (s : State) : Out :=
  match blitClip s.cfg x y w h with
  | none => .next s
  | some k => (blitLoop k addr stride blitPixel s).outcome

/-- BLITK (R162). -/
def execBlitk (x y w h : Int) (stride addr : Nat) (key : Byte) (s : State) : Out :=
  match blitClip s.cfg x y w h with
  | none => .next s
  | some k => (blitLoop k addr stride (blitkPixel key) s).outcome

/-- GRAB (R163). -/
def execGrab (x y w h : Int) (stride addr : Nat) (s : State) : Out :=
  match blitClip s.cfg x y w h with
  | none => .next s
  | some k => (blitLoop k addr stride grabPixel s).outcome

end Sys2Proof.Machine
end

