-- ==== Sys2Proof/Machine/Canvas.lean ====
section
/-! DEFINITION. The canvas commands: GETPIXEL, POINT, FILLSCREEN, CROP (41_canvas.md). -/

namespace Sys2Proof.Machine

/-- GETPIXEL (R117): 0 outside the canvas, without an access (log 14). -/
def execGetPixel (x y : Int) (s : State) : Out :=
  match canvasRead x y s with
  | some v => .next { s with res0 := v.setWidth 16 }
  | none => .next { s with res0 := 0 }

/-- POINT (R118). -/
def execPoint (x y : Int) (c : Byte) (s : State) : Out :=
  drawPixels c (pointPixels s.cfg x y) s

/-- FILLSCREEN (R119): every canvas byte `c`, every dirty flag set; PARITY unchanged. -/
def execFillScreen (c : Byte) (s : State) : Out :=
  .next { s with
    top := SectorMem.fill (topSize s.cfg) c
    bot := SectorMem.fill (botSize s.cfg) c
    dirty := allDirty s.cfg }

/-- CROP (R120): NONE is 0xFFFF in RES2. -/
def execCrop (start len view : Int) (s : State) : Out :=
  let r := crop start len view
  .next { s with
    res0 := BitVec.ofInt 16 r.1
    res1 := BitVec.ofInt 16 r.2.1
    res2 := match r.2.2 with
      | some last => BitVec.ofInt 16 last
      | none => 0xFFFF }

end Sys2Proof.Machine
end

