-- ==== Sys2Proof/Machine/Circles.lean ====
section
/-! DEFINITION. The circle rasterizer: CIRC, FCIRC (44_circles.md). -/

namespace Sys2Proof.Machine

/-- R150's decision loop from `(px, py)` with `dx`, `dy`, `err`: the pairs it emits, at most as many as the fuel. The
loop ends by itself where `px < py`; `circlePairs` gives it fuel enough (`circleSteps_fuel`). -/
def circleSteps : Nat → Int → Int → Int → Int → Int → List (Int × Int)
  | 0, _, _, _, _, _ => []
  | n + 1, px, py, dx, dy, err =>
    if px < py then []
    else
      (px, py) ::
        (if 2 * (err + dy) + dx > 0 then circleSteps n (px - 1) (py + 1) (dx + 2) (dy + 2) (err + dy + dx)
         else circleSteps n px (py + 1) dx (dy + 2) (err + dy))

/-- The `(px, py)` pairs of radius `r`, in order (R150; at most `r + 1` passes, R271). -/
def circlePairs (r : Int) : List (Int × Int) :=
  circleSteps (r + 1).toNat r 0 (1 - 2 * r) 1 0

/-- CIRC's Emit: the eight symmetric points (R151). -/
def circlePoints (xc yc px py : Int) : List (Int × Int) :=
  [(xc + px, yc + py), (xc - px, yc + py), (xc + px, yc - py), (xc - px, yc - py),
   (xc + py, yc + px), (xc - py, yc + px), (xc + py, yc - px), (xc - py, yc - px)]

/-- The pixels CIRC writes: each point bounds-checked (R151). -/
def circPixels (p : Config) (xc yc r : Int) : List (Int × Int) :=
  (circlePairs r).flatMap
    (fun q => (circlePoints xc yc q.1 q.2).filter (fun z => decide (InCanvas p z.1 z.2)))

/-- The pixels FCIRC writes: four runs a pass (R152). -/
def fcircPixels (p : Config) (xc yc r : Int) : List (Int × Int) :=
  (circlePairs r).flatMap (fun q =>
    hlinePixels p (xc - q.1) (yc + q.2) (2 * q.1 + 1) ++ hlinePixels p (xc - q.1) (yc - q.2) (2 * q.1 + 1) ++
      hlinePixels p (xc - q.2) (yc + q.1) (2 * q.2 + 1) ++ hlinePixels p (xc - q.2) (yc - q.1) (2 * q.2 + 1))

/-- CIRC (R151). -/
def execCirc (x y r : Int) (c : Byte) (s : State) : Out :=
  drawPixels c (circPixels s.cfg x y r) s

/-- FCIRC (R152). -/
def execFcirc (x y r : Int) (c : Byte) (s : State) : Out :=
  drawPixels c (fcircPixels s.cfg x y r) s

end Sys2Proof.Machine
end

