-- ==== Sys2Proof/Machine/Palette.lean ====
section
/-! DEFINITION. The palette unit: PAL_DEFAULT, PAL_LOAD, PAL_READ (40_palette.md). -/

namespace Sys2Proof.Machine

/-- `PAL[i]`, and `PalMap(i)` (R22, R100). -/
def palMap (i : Byte) (s : State) : Word :=
  s.pal.getD i.toNat 0

/-- `PAL[i] <- v` (R22). -/
def setPal (i : Nat) (v : Word) (s : State) : State :=
  { s with pal := s.pal.set i v }

/-- PAL_DEFAULT (R101): entries 0..15 from DEFPAL, 16..255 zero. -/
def execPalDefault (s : State) : Out :=
  .next { s with pal := defaultPalette s.cfg }

/-- PAL_LOAD's copy loop: entry `i` from the two bytes at `addr + 2*i` (R102). -/
def palLoadLoop (addr count : Nat) (s : State) : Run :=
  forRange count (fun i s => readWord (colourAddr addr i) s fun v => .ok (setPal i v s)) s

/-- PAL_LOAD (R102): BadOperand before any change where `count > 256`; else zero the table and copy. -/
def execPalLoad (addr count : Nat) (s : State) : Out :=
  if 256 < count then Run.outcome (.raise .badOperand count s)
  else (palLoadLoop addr count { s with pal := List.replicate 256 0 }).outcome

/-- PAL_READ (R103). -/
def execPalRead (idx : Byte) (s : State) : Out :=
  .next { s with res0 := palMap idx s }

end Sys2Proof.Machine
end

