-- ==== Sys2Proof/Machine/Flush.lean ====
section
/-! DEFINITION. NOP, and the flush scheduler: FLUSH (48_flush.md). -/

namespace Sys2Proof.Machine

/-- NOP (R200): nothing. -/
def execNop (s : State) : Out :=
  .next s

/-- The canvas bytes of band `b` of row `y`, left to right; its columns are all on the canvas (R202). -/
def bandBytes (y b : Nat) (s : State) : List Byte :=
  (List.range (bandWidth s.cfg b)).filterMap (fun (i : Nat) => canvasRead ((bandStart s.cfg b : Int) + (i : Int)) y s)

/-- `EmitBand(y, b)`: the window, the colours of the band's pixels, the flag cleared (R204). -/
def emitBand (y b : Nat) (s : State) : State :=
  setDirty y b false
    { s with
      sink := s.sink ++
        [.setWindow (bandStart s.cfg b) y (bandWidth s.cfg b) 1, .writePixels ((bandBytes y b s).map fun v => palMap v s)] }

/-- FLUSH's work on row `y`: every dirty band, in ascending order (R203). -/
def flushRow (y : Nat) (s : State) : State :=
  (List.range (bandCount s.cfg)).foldl (fun t b => if dirtyFlag y b t then emitBand y b t else t) s

/-- FLUSH's rows, those of the other parity skipped where the flush is interlaced (R203). -/
def flushRows (interlaced parity : Bool) (s : State) : State :=
  (List.range s.cfg.h).foldl (fun t y => if rowVisited interlaced parity y then flushRow y t else t) s

/-- FLUSH (R203): the mode is decided once, from the count at the start. -/
def execFlush (s : State) : Out :=
  let interlaced := flushInterlaced s
  .next { updateParity interlaced (flushRows interlaced s.parity { s with fstate := .flushing }) with
    ilace := interlaced
    fstate := .idle }

end Sys2Proof.Machine
end

