-- ==== Sys2Proof/Machine/Glyph.lean ====
section
/-! DEFINITION. Monochrome blits and the font renderer: MONO, MONO2X, FONT, CHAR, CHAR2X, STR, STR2X
(47_mono_font.md). -/

namespace Sys2Proof.Machine

/-! ## Monochrome bitmaps -/

/-- `b = MonoBit(addr, w, h, r, c)`, then `k b` (R185, R186): no access outside the bitmap. -/
def monoBit (addr w h r c : Int) (s : State) (k : Bool → Run) : Run :=
  if r < 0 ∨ r ≥ h ∨ c < 0 ∨ c ≥ w then k false
  else readByte (monoAddr addr w r c) s fun v => k (v.getLsbD (7 - (c % 8).toNat))

/-- `Mono(x, y, w, h, addr, col)`: the 1x blit (R188). -/
def monoBlit (x y w h addr : Int) (col : Byte) (s : State) : Run :=
  forRange h.toNat
    (fun r => forRange w.toNat
      (fun c s => monoBit addr w h r c s fun b => if b then point (x + c) (y + r) col s else .ok s)) s

/-- The four sub-pixels TL, TR, BL, BR of Scale2x from the bits E, U, D, L, R (R191). -/
def scale2x (e u d l r : Bool) : Bool × Bool × Bool × Bool :=
  (if l = u ∧ l ≠ d ∧ u ≠ r then u else e,
   if u = r ∧ u ≠ l ∧ r ≠ d then r else e,
   if l = d ∧ r ≠ d ∧ u ≠ l then l else e,
   if d = r ∧ u ≠ r ∧ l ≠ d then d else e)

/-- `Point` where the sub-pixel is set (R191). -/
def pointIf (b : Bool) (x y : Int) (col : Byte) (s : State) : Run :=
  if b then point x y col s else .ok s

/-- The 2 by 2 block of source pixel `(c, r)`, top left first (R191). -/
def drawBlock (q : Bool × Bool × Bool × Bool) (x y : Int) (col : Byte) (s : State) : Run :=
  (pointIf q.1 x y col s).bind fun s =>
  (pointIf q.2.1 (x + 1) y col s).bind fun s =>
  (pointIf q.2.2.1 x (y + 1) col s).bind fun s =>
  pointIf q.2.2.2 (x + 1) (y + 1) col s

/-- `Mono2x(x, y, w, h, addr, col)`: the 2x blit with Scale2x, the bits read in the order E, U, D, L, R (R191). -/
def mono2xBlit (x y w h addr : Int) (col : Byte) (s : State) : Run :=
  forRange h.toNat
    (fun r => forRange w.toNat
      (fun c s =>
        monoBit addr w h r c s fun e =>
        monoBit addr w h ((r : Int) - 1) c s fun u =>
        monoBit addr w h ((r : Int) + 1) c s fun d =>
        monoBit addr w h r ((c : Int) - 1) s fun l =>
        monoBit addr w h r ((c : Int) + 1) s fun rt =>
        drawBlock (scale2x e u d l rt) (x + 2 * c) (y + 2 * r) col s)) s

/-- MONO (R187). -/
def execMono (x y w h : Int) (addr : Nat) (c : Byte) (s : State) : Out :=
  (monoBlit x y w h addr c s).outcome

/-- MONO2X (R189). -/
def execMono2x (x y w h : Int) (addr : Nat) (c : Byte) (s : State) : Out :=
  (mono2xBlit x y w h addr c s).outcome

/-! ## Font -/

/-- FONT (R190): the offending operand word goes to FINFO; width before height. -/
def execFont (addr : Nat) (width height : Int) (s : State) : Out :=
  if width < 1 then Run.outcome (.raise .badOperand (BitVec.ofInt 16 width).toNat s)
  else if height < 1 then Run.outcome (.raise .badOperand (BitVec.ofInt 16 height).toNat s)
  else
    .next { s with
      fontAddr := BitVec.ofNat 32 addr
      fontW := BitVec.ofInt 16 width
      fontH := BitVec.ofInt 16 height
      fontV := true }

/-- The glyph of `code` at 1x (R192, R196). -/
def drawGlyph (x y : Int) (code col : Byte) (s : State) : Run :=
  monoBlit x y s.fontW.toNat s.fontH.toNat (glyphAddr s code) col s

/-- The glyph of `code` at 2x (R193, R196). -/
def drawGlyph2x (x y : Int) (code col : Byte) (s : State) : Run :=
  mono2xBlit x y s.fontW.toNat s.fontH.toNat (glyphAddr s code) col s

/-- A glyph command with no font set faults before any access (R222 NoFont). -/
def needFont (s : State) (body : State → Run) : Run :=
  if s.fontV then body s else .raise .noFont 0 s

/-- The walk over a string of R194 and R195, `n` bytes from byte `k` on, the cursor at `(cx, cy)`: backspace and advance
by `adv`, newline by `line`, any other byte drawn by `glyph`. -/
def stringLoop (glyph : Int → Int → Byte → State → Run) (addr : Nat) (x y adv line : Int) :
    Nat → Nat → Int → Int → State → Run
  | 0, _, _, _, s => .ok s
  | n + 1, k, cx, cy, s =>
    readByte (stringAddr addr k) s fun b =>
      if b = 0x08#8 then stringLoop glyph addr x y adv line n (k + 1) (cx - adv) cy s
      else if b = 0x0A#8 then stringLoop glyph addr x y adv line n (k + 1) 0 (cy + line) s
      else (glyph (x + cx) (y + cy) b s).bind (stringLoop glyph addr x y adv line n (k + 1) (cx + adv) cy)

/-- CHAR (R192). -/
def execChar (x y : Int) (code c : Byte) (s : State) : Out :=
  (needFont s (drawGlyph x y code c)).outcome

/-- CHAR2X (R193). -/
def execChar2x (x y : Int) (code c : Byte) (s : State) : Out :=
  (needFont s (drawGlyph2x x y code c)).outcome

/-- STR (R194). -/
def execStr (x y : Int) (addr len : Nat) (c : Byte) (s : State) : Out :=
  (needFont s
    (stringLoop (fun gx gy b => drawGlyph gx gy b c) addr x y s.fontW.toNat s.fontH.toNat len 0 0 0)).outcome

/-- STR2X (R195). -/
def execStr2x (x y : Int) (addr len : Nat) (c : Byte) (s : State) : Out :=
  (needFont s
    (stringLoop (fun gx gy b => drawGlyph2x gx gy b c) addr x y (s.cfg.str2xAdv * s.fontW.toNat : Nat)
      (2 * s.fontH.toNat : Nat) len 0 0 0)).outcome

end Sys2Proof.Machine
end

