-- ==== Sys2Proof/Machine/Lines.lean ====
section
/-! DEFINITION. The line rasterizer: HLINE, VLINE, LINE (42_lines.md). -/

namespace Sys2Proof.Machine

/-- R135's loop, `n` passes from `(x, y)` with error term `err`: the pixel comes before the error update. -/
def lineSteps (dx dy ystep : Int) : Nat → Int → Int → Int → List (Int × Int)
  | 0, _, _, _ => []
  | n + 1, x, y, err =>
    (x, y) ::
      (if err - dy < 0 then lineSteps dx dy ystep n (x + 1) (y + ystep) (err - dy + dx)
       else lineSteps dx dy ystep n (x + 1) y (err - dy))

/-- R135 from `dx = x1 - x0` on, for end points already ordered left to right. -/
def lineWalk (x0 y0 x1 y1 : Int) : List (Int × Int) :=
  lineSteps (x1 - x0) (y1 - y0).natAbs (if y0 < y1 then 1 else -1) (x1 - x0 + 1).toNat x0 y0 ((x1 - x0) / 2)

/-- R135's "left to right". -/
def lineLeftToRight (x0 y0 x1 y1 : Int) : List (Int × Int) :=
  if x0 > x1 then lineWalk x1 y1 x0 y0 else lineWalk x0 y0 x1 y1

/-- The candidate pixels of a general line, in plotting order: axes transposed where the line is strictly steeper than
45 degrees (R135). -/
def lineCandidates (x0 y0 x1 y1 : Int) : List (Int × Int) :=
  if (x1 - x0).natAbs < (y1 - y0).natAbs then (lineLeftToRight y0 x0 y1 x1).map Prod.swap
  else lineLeftToRight x0 y0 x1 y1

/-- The pixels `Line(x0, y0, x1, y1)` writes (R135): horizontal first, then vertical, else every candidate that is on
the canvas. -/
def linePixels (p : Config) (x0 y0 x1 y1 : Int) : List (Int × Int) :=
  if y0 = y1 then hlinePixels p (min x0 x1) y0 (max x0 x1 - min x0 x1 + 1)
  else if x0 = x1 then vlinePixels p x0 (min y0 y1) (max y0 y1 - min y0 y1 + 1)
  else (lineCandidates x0 y0 x1 y1).filter (fun q => decide (InCanvas p q.1 q.2))

/-- HLINE (R132). -/
def execHline (x y len : Int) (c : Byte) (s : State) : Out :=
  drawPixels c (hlinePixels s.cfg x y len) s

/-- VLINE (R133). -/
def execVline (x y len : Int) (c : Byte) (s : State) : Out :=
  drawPixels c (vlinePixels s.cfg x y len) s

/-- LINE (R134). -/
def execLine (x0 y0 x1 y1 : Int) (c : Byte) (s : State) : Out :=
  drawPixels c (linePixels s.cfg x0 y0 x1 y1) s

end Sys2Proof.Machine
end

