-- ==== Sys2Proof/Machine/Polygons.lean ====
section
/-! DEFINITION. The polygon rasterizer: RECT, FRECT, TRI, FTRI (43_polygons.md). -/

namespace Sys2Proof.Machine

/-- The pixels RECT writes: top, bottom, left, right edge (R140). -/
def rectPixels (p : Config) (x y w h : Int) : List (Int × Int) :=
  if w ≤ 0 ∨ h ≤ 0 then []
  else
    linePixels p x y (x + w - 1) y ++ linePixels p x (y + h - 1) (x + w - 1) (y + h - 1) ++
      linePixels p x y x (y + h - 1) ++ linePixels p (x + w - 1) y (x + w - 1) (y + h - 1)

/-- The pixels FRECT writes: early rejection, then one run per visible row (R141). -/
def frectPixels (p : Config) (x y w h : Int) : List (Int × Int) :=
  if w ≤ 0 ∨ h ≤ 0 then []
  else if x ≥ p.w ∨ y ≥ p.h ∨ x + w - 1 < 0 ∨ y + h - 1 < 0 then []
  else
    let cx := crop x w p.w
    let cy := crop y h p.h
    (List.range cy.2.1.toNat).flatMap (fun (r : Nat) => hlinePixels p cx.1 (cy.1 + (r : Int)) cx.2.1)

/-- The pixels TRI writes: edges 0-1, 1-2, 2-0 (R142). -/
def triPixels (p : Config) (x0 y0 x1 y1 x2 y2 : Int) : List (Int × Int) :=
  linePixels p x0 y0 x1 y1 ++ linePixels p x1 y1 x2 y2 ++ linePixels p x2 y2 x0 y0

/-- A horizontal run of a filled shape: first column, row, length. -/
structure Span where
  x : Int
  y : Int
  len : Int
deriving DecidableEq, Repr

/-- The run between columns `a` and `b` of row `y`, `a` and `b` in either order (R143's "if a > b: swap"). -/
def spanBetween (a b y : Int) : Span :=
  ⟨min a b, y, max a b - min a b + 1⟩

/-- One of R143's two loops: `n` rows from `y` on, the intercepts `xa + sa tdiv dya` and `xb + sb tdiv dyb`, computed
before the accumulators advance. -/
def edgeRows (xa dxa dya xb dxb dyb : Int) : Nat → Int → Int → Int → List Span
  | 0, _, _, _ => []
  | n + 1, y, sa, sb =>
    spanBetween (xa + sa.tdiv dya) (xb + sb.tdiv dyb) y ::
      edgeRows xa dxa dya xb dxb dyb n (y + 1) (sa + dxa) (sb + dxb)

/-- R143's compare-exchange on two vertices `(x, y)`, strict. -/
def orderByY (v w : Int × Int) : (Int × Int) × (Int × Int) :=
  if v.2 > w.2 then (w, v) else (v, w)

/-- R143's sort: three compare-exchanges. -/
def sortByY (v0 v1 v2 : Int × Int) : (Int × Int) × (Int × Int) × (Int × Int) :=
  let a := orderByY v0 v1
  let b := orderByY a.2 v2
  let c := orderByY a.1 b.1
  (c.1, c.2, b.2)

/-- R143's last row of the upper part. -/
def lastUpperRow (y1 y2 : Int) : Int :=
  if y1 = y2 then y1 else y1 - 1

/-- R143 after the sort: one run if all three vertices are on one row, else the rows of the upper and the lower part. -/
def sortedTriSpans (x0 y0 x1 y1 x2 y2 : Int) : List Span :=
  if y0 = y2 then [spanBetween (min x0 (min x1 x2)) (max x0 (max x1 x2)) y0]
  else
    let y := lastUpperRow y1 y2 + 1
    edgeRows x0 (x1 - x0) (y1 - y0) x0 (x2 - x0) (y2 - y0) (y - y0).toNat y0 0 0 ++
      edgeRows x1 (x2 - x1) (y2 - y1) x0 (x2 - x0) (y2 - y0) (y2 - y + 1).toNat y ((x2 - x1) * (y - y1))
        ((x2 - x0) * (y - y0))

/-- The runs FTRI fills, in order (R143). -/
def ftriSpans (x0 y0 x1 y1 x2 y2 : Int) : List Span :=
  let v := sortByY (x0, y0) (x1, y1) (x2, y2)
  sortedTriSpans v.1.1 v.1.2 v.2.1.1 v.2.1.2 v.2.2.1 v.2.2.2

/-- The pixels FTRI writes: every run through `HLine` (R143). -/
def ftriPixels (p : Config) (x0 y0 x1 y1 x2 y2 : Int) : List (Int × Int) :=
  (ftriSpans x0 y0 x1 y1 x2 y2).flatMap (fun q => hlinePixels p q.x q.y q.len)

/-- RECT (R140). -/
def execRect (x y w h : Int) (c : Byte) (s : State) : Out :=
  drawPixels c (rectPixels s.cfg x y w h) s

/-- FRECT (R141). -/
def execFrect (x y w h : Int) (c : Byte) (s : State) : Out :=
  drawPixels c (frectPixels s.cfg x y w h) s

/-- TRI (R142). -/
def execTri (x0 y0 x1 y1 x2 y2 : Int) (c : Byte) (s : State) : Out :=
  drawPixels c (triPixels s.cfg x0 y0 x1 y1 x2 y2) s

/-- FTRI (R143). -/
def execFtri (x0 y0 x1 y1 x2 y2 : Int) (c : Byte) (s : State) : Out :=
  drawPixels c (ftriPixels s.cfg x0 y0 x1 y1 x2 y2) s

end Sys2Proof.Machine
end

