-- ==== Sys2Proof/Machine/Dispatch.lean ====
section
/-! DEFINITION. Which meaning each command has: one arm per row of the opcode table (R85). -/

namespace Sys2Proof.Machine

/-- The meaning of a command in a state (R85, column "rule"). -/
def exec (i : Instr) (s : State) : Host.Outcome State Fault Refusal :=
  match i with
  | .nop => Sys2Proof.Machine.execNop s
  | .palDefault => Sys2Proof.Machine.execPalDefault s
  | .palLoad addr count => Sys2Proof.Machine.execPalLoad addr count s
  | .palRead idx => Sys2Proof.Machine.execPalRead idx s
  | .getPixel x y => Sys2Proof.Machine.execGetPixel x y s
  | .point x y c => Sys2Proof.Machine.execPoint x y c s
  | .fillScreen c => Sys2Proof.Machine.execFillScreen c s
  | .crop start len view => Sys2Proof.Machine.execCrop start len view s
  | .hline x y len c => Sys2Proof.Machine.execHline x y len c s
  | .vline x y len c => Sys2Proof.Machine.execVline x y len c s
  | .line x0 y0 x1 y1 c => Sys2Proof.Machine.execLine x0 y0 x1 y1 c s
  | .rect x y w h c => Sys2Proof.Machine.execRect x y w h c s
  | .frect x y w h c => Sys2Proof.Machine.execFrect x y w h c s
  | .tri x0 y0 x1 y1 x2 y2 c => Sys2Proof.Machine.execTri x0 y0 x1 y1 x2 y2 c s
  | .ftri x0 y0 x1 y1 x2 y2 c => Sys2Proof.Machine.execFtri x0 y0 x1 y1 x2 y2 c s
  | .circ x y r c => Sys2Proof.Machine.execCirc x y r c s
  | .fcirc x y r c => Sys2Proof.Machine.execFcirc x y r c s
  | .blit x y w h stride addr => Sys2Proof.Machine.execBlit x y w h stride addr s
  | .blitk x y w h stride addr key => Sys2Proof.Machine.execBlitk x y w h stride addr key s
  | .grab x y w h stride addr => Sys2Proof.Machine.execGrab x y w h stride addr s
  | .xform src sw sh ss sx sy ang dst bg => Sys2Proof.Machine.execXform src sw sh ss sx sy ang dst bg s
  | .mono x y w h addr c => Sys2Proof.Machine.execMono x y w h addr c s
  | .mono2x x y w h addr c => Sys2Proof.Machine.execMono2x x y w h addr c s
  | .font addr width height => Sys2Proof.Machine.execFont addr width height s
  | .char x y code c => Sys2Proof.Machine.execChar x y code c s
  | .char2x x y code c => Sys2Proof.Machine.execChar2x x y code c s
  | .str x y addr len c => Sys2Proof.Machine.execStr x y addr len c s
  | .str2x x y addr len c => Sys2Proof.Machine.execStr2x x y addr len c s
  | .flush => Sys2Proof.Machine.execFlush s

end Sys2Proof.Machine
end

