-- ==== Sys2Proof/Machine/Engine.lean ====
section
/-! DEFINITION. The engine's turn: the fetch step of R86, running the command, and the end of it. -/

namespace Sys2Proof.Machine

/-- The engine has removed command `i` from the FIFO: EXEC <- 1 (R86). -/
def startCommand (i : Instr) (rest : List Word) (s : State) : State :=
  { s with fifo := rest, cur := some i }

/-- Execute the command in execution; EXEC <- 0 at its end (R86). A fault has cleared it already (R224). -/
def completeCommand (i : Instr) (s : State) : Out :=
  match exec i s with
  | .next t => .next { t with cur := none }
  | .fault f => .fault f
  | .refused r => .refused r

/-- The fetch step (R86), `run` saying what becomes of a fetched command. In the fault state nothing is fetched (R224).
An incomplete command, or an empty FIFO, leaves the state as it is: the engine waits (log 10). -/
def fetchThen (run : Instr → State → Out) (s : State) : Out :=
  if s.fault then .next s
  else
    match decode s.fifo with
    | .command i rest => run i (startCommand i rest s)
    | .illegal h => .next (raiseFault true .illegalOpcode (zext16 h) s)
    | .incomplete _ => .next s

/-- A whole turn of the engine: complete the command in execution, or fetch one and run it to its end (R62, R86). -/
def engineTurn (s : State) : Out :=
  match s.cur with
  | some i => completeCommand i s
  | none => fetchThen completeCommand s

/-- FSTATE of a command that has just started: Flushing exactly while a FLUSH is executed (R25). -/
def fstateOf (i : Instr) (f : FlushState) : FlushState :=
  if i = .flush then .flushing else f

/-- The beginning of a turn alone: the command stays in execution, EXEC = 1, none of its effects done (R86, R224;
log 5). With a command already in execution nothing is fetched. -/
def engineBegin (s : State) : Out :=
  match s.cur with
  | some _ => .next s
  | none => fetchThen (fun i t => .next { t with fstate := fstateOf i t.fstate }) s

/-- The command words `ws` at the front of the FIFO, nothing pending outside and the engine ready to fetch (log 20). -/
def withCommandWords (s : State) (ws : List Word) : State :=
  { s with fifo := ws, cur := none, fstate := .idle, fault := false, fcause := 0, finfo := 0, inputs := [] }

end Sys2Proof.Machine
end

