-- ==== Sys2Proof/Machine/HostPort.lean ====
section
/-! DEFINITION. What the host does to the machine: the register block (R28 to R33, R38), reset with the abandoning of a
running command (R250 to R253), and writes to host memory with the race of R65. -/

namespace Sys2Proof.Machine

/-! ## Reset while busy -/

/-- What an abandoned command has done outside the engine: the first `Config.freeAbandonPoint` of its external effects,
in the order of its pseudocode (R252; log 7). A command's external effects are either host-memory writes or sink
transactions, never both. -/
def abandonCommand (s : State) : State :=
  match s.cur with
  | none => s
  | some i =>
    match exec i s with
    | .next t =>
      let n := Config.freeAbandonPoint s.resets
      let writes := (t.bus.drop s.bus.length).take n
      { s with
        hmem := writes.foldl (fun m c => Memory.write m c.1 c.2) s.hmem
        bus := s.bus ++ writes
        sink := s.sink ++ (t.sink.drop s.sink.length).take n }
    | .fault _ => s
    | .refused _ => s

/-- A reset at once, whatever the engine is doing (R33, R250, R252). -/
def hostReset (s : State) : State :=
  resetEngine (abandonCommand s)

/-! ## The register block -/

/-- A write of word `w` to CMD (R30): appended, discarded in the fault state, FifoOverrun where the FIFO is full. -/
def writeCmd (w : Word) (s : State) : State :=
  if s.fault then s
  else if s.fifo.length < s.cfg.fifoDepth then { s with fifo := s.fifo ++ [w] }
  else raiseFault false .fifoOverrun (zext16 w) s

/-- A write to CTRL: bit 0 is SRESET, bits 15:1 are ignored (R33). -/
def writeCtrl (v : Word) (s : State) : State :=
  if v.getLsbD 0 then hostReset s else s

/-- What a read of the register at byte offset `off` returns; none where no register is listed (R28). CMD and CTRL are
write-only and read as 0. -/
def readReg (off : Nat) (s : State) : Option Word :=
  if off = 0x00 then some 0
  else if off = 0x02 then some (statusWord s)
  else if off = 0x04 then some s.res0
  else if off = 0x06 then some s.res1
  else if off = 0x08 then some s.res2
  else if off = 0x0A then some s.fcause
  else if off = 0x0C then some (s.finfo.extractLsb' 0 16)
  else if off = 0x0E then some (s.finfo.extractLsb' 16 16)
  else if off = 0x10 then some 0
  else if off = 0x12 then some (fifoFree s)
  else none

/-- The state after a write of the register at byte offset `off`; none where no register is listed. A write to a
read-only register is ignored (R28). -/
def writeReg (off : Nat) (v : Word) (s : State) : Option State :=
  if off = 0x00 then some (writeCmd v s)
  else if off = 0x10 then some (writeCtrl v s)
  else if off ∈ [0x02, 0x04, 0x06, 0x08, 0x0A, 0x0C, 0x0E, 0x12] then some s
  else none

/-! ## Buffers in use -/

/-- A region of host memory: `rows` rows of `len` bytes, `stride` apart. -/
structure Region where
  base : Nat
  rows : Nat
  len : Nat
  stride : Nat
deriving DecidableEq, Repr

/-- Address `a` lies in the region. -/
def inRegion (a : Nat) (g : Region) : Bool :=
  (List.range g.rows).any (fun r => decide (g.base + r * g.stride ≤ a) && decide (a < g.base + r * g.stride + g.len))

/-- The part of a bitmap a blit touches (R164). -/
def blitRegions (x y w h : Int) (stride addr : Nat) (s : State) : List Region :=
  match blitClip s.cfg x y w h with
  | some k => [⟨(bitmapAddr addr stride k.ox k.oy 0 0).toNat, k.hn, k.wn, stride⟩]
  | none => []

/-- A monochrome bitmap (R185). -/
def monoRegions (w h : Int) (addr : Nat) : List Region :=
  if w ≤ 0 ∨ h ≤ 0 then [] else [⟨addr, 1, (rowBytes w * h).toNat, 0⟩]

/-- The whole font table, `256*GS` bytes (R196, R261). -/
def fontRegions (s : State) : List Region :=
  if s.fontV then [⟨s.fontAddr.toNat, 1, (256 * glyphStride s).toNat, 0⟩] else []

/-- A transform's source bitmap and destination (R175, R261). -/
def xformRegions (src : Nat) (sw sh : Int) (ss sx sy : Nat) (ang : Int) (dst : Nat) : List Region :=
  if XformEmpty sw sh sx sy then []
  else
    let dw := xformWidth sw sh sx sy ang
    let dh := xformHeight sw sh sx sy ang
    if dw > 32767 ∨ dh > 32767 then []
    else [⟨src, sh.toNat, sw.toNat, ss⟩, ⟨dst, 1, (dw * dh).toNat, 0⟩]

/-- The host-memory regions a command reads or writes, the font being that of `s` (R65, R261; log 8). -/
def commandRegions (i : Instr) (s : State) : List Region :=
  match i with
  | .palLoad addr count => if 256 < count then [] else [⟨addr, 1, 2 * count, 0⟩]
  | .blit x y w h stride addr => blitRegions x y w h stride addr s
  | .blitk x y w h stride addr _ => blitRegions x y w h stride addr s
  | .grab x y w h stride addr => blitRegions x y w h stride addr s
  | .xform src sw sh ss sx sy ang dst _ => xformRegions src sw sh ss sx sy ang dst
  | .mono _ _ w h addr _ => monoRegions w h addr
  | .mono2x _ _ w h addr _ => monoRegions w h addr
  | .char _ _ _ _ => fontRegions s
  | .char2x _ _ _ _ => fontRegions s
  | .str _ _ addr len _ => ⟨addr, 1, len, 0⟩ :: fontRegions s
  | .str2x _ _ addr len _ => ⟨addr, 1, len, 0⟩ :: fontRegions s
  | .nop | .palDefault | .palRead _ | .getPixel _ _ | .point _ _ _ | .fillScreen _ | .crop _ _ _ => []
  | .hline _ _ _ _ | .vline _ _ _ _ | .line _ _ _ _ _ | .rect _ _ _ _ _ | .frect _ _ _ _ _ => []
  | .tri _ _ _ _ _ _ _ | .ftri _ _ _ _ _ _ _ | .circ _ _ _ _ | .fcirc _ _ _ _ | .font _ _ _ | .flush => []

/-- The state whose font is the one after the command: only FONT changes it (R26). -/
def fontAfter (i : Instr) (s : State) : State :=
  match i with
  | .font addr width height =>
    if width < 1 ∨ height < 1 then s
    else
      { s with
        fontAddr := BitVec.ofNat 32 addr
        fontW := BitVec.ofInt 16 width
        fontH := BitVec.ofInt 16 height
        fontV := true }
  | _ => s

/-- The whole commands waiting in a FIFO of words, at most as many as the fuel. -/
def queuedCommands : Nat → List Word → List Instr
  | 0, _ => []
  | n + 1, ws =>
    match decode ws with
    | .command i rest => i :: queuedCommands n rest
    | .illegal _ => []
    | .incomplete _ => []

/-- The regions of commands that run one after another from `s` on. -/
def regionsOf : List Instr → State → List Region
  | [], _ => []
  | i :: is, s => commandRegions i s ++ regionsOf is (fontAfter i s)

/-- A queued or executing command reads or writes host address `a` (R65). A command whose words are not all there is
not queued yet: a host write completed before its last word is ordered before it (R64). -/
def bufferInUse (a : Nat) (s : State) : Bool :=
  (regionsOf (s.cur.toList ++ queuedCommands s.fifo.length s.fifo) s).any (inRegion a)

/-! ## Events -/

/-- What one event of the outside world does. Only an aligned 16-bit access to a listed register has a meaning (R28;
log 9). -/
def hostStep (e : HostEvent) (s : State) : Out :=
  match e with
  | .regWrite off width v =>
    if width = 16 then
      match writeReg off v s with
      | some t => .next t
      | none => .refused .registerAccess
    else .refused .registerAccess
  | .regRead off width =>
    if width = 16 then
      match readReg off s with
      | some v => .next { s with hostReads := s.hostReads ++ [v] }
      | none => .refused .registerAccess
    else .refused .registerAccess
  | .memWrite a v =>
    if bufferInUse a.toNat s then .refused .bufferRace
    else .next { s with hmem := Memory.write s.hmem a.toNat v }
  | .hwReset => .next (hostReset s)
  | .engineBegin => engineBegin s
  | .engineTurn => engineTurn s

end Sys2Proof.Machine
end

