-- ==== Sys2Proof/Machine/Step.lean ====
section
/-! DEFINITION. One step of the machine: the next event of the outside world, or, with none pending, a turn of the
engine (R16; log 6). -/

namespace Sys2Proof.Machine

/-- One step. -/
def step (s : State) : Host.Outcome State Fault Refusal :=
  match s.inputs with
  | [] => engineTurn s
  | e :: rest => hostStep e { s with inputs := rest }

/-- The state `s` with the instruction `w` of the opcode table as the next command the engine fetches: its words are the
FIFO's content, as a host's writes to CMD would leave them, and the engine is ready to fetch (log 20). -/
def State.withFetchWord (s : State) (nbits w : Nat) : State :=
  withCommandWords s (commandWords nbits w)

end Sys2Proof.Machine
end

