-- ==== Sys2Proof/WellFormed.lean ====
section
/-! DEFINITION. Which commands can be written down in command words: every operand in the range R83 and R84 give its
type. Operand values never make a command illegal at decode (R88), so nothing else is checked. -/

namespace Sys2Proof

/-- The range of an `s16` operand (R83). -/
def isS16 (v : Int) : Bool :=
  decide (-32768 ≤ v) && decide (v ≤ 32767)

/-- The range of a `u16` operand (R83). -/
def isU16 (n : Nat) : Bool :=
  decide (n < 65536)

/-- The range of a 32-bit host address (R84). -/
def isAddr32 (n : Nat) : Bool :=
  decide (n < 4294967296)

/-- Every operand is in the range of its type (R83, R84). Bytes (`imm8`, `u8`) carry their range in their type. -/
def Instr.wellFormed : Instr → Bool
  | .nop => true
  | .palDefault => true
  | .palLoad addr count => isAddr32 addr && isU16 count
  | .palRead _ => true
  | .getPixel x y => isS16 x && isS16 y
  | .point x y _ => isS16 x && isS16 y
  | .fillScreen _ => true
  | .crop start len view => isS16 start && isS16 len && isS16 view
  | .hline x y len _ => isS16 x && isS16 y && isS16 len
  | .vline x y len _ => isS16 x && isS16 y && isS16 len
  | .line x0 y0 x1 y1 _ => isS16 x0 && isS16 y0 && isS16 x1 && isS16 y1
  | .rect x y w h _ => isS16 x && isS16 y && isS16 w && isS16 h
  | .frect x y w h _ => isS16 x && isS16 y && isS16 w && isS16 h
  | .tri x0 y0 x1 y1 x2 y2 _ => isS16 x0 && isS16 y0 && isS16 x1 && isS16 y1 && isS16 x2 && isS16 y2
  | .ftri x0 y0 x1 y1 x2 y2 _ => isS16 x0 && isS16 y0 && isS16 x1 && isS16 y1 && isS16 x2 && isS16 y2
  | .circ x y r _ => isS16 x && isS16 y && isS16 r
  | .fcirc x y r _ => isS16 x && isS16 y && isS16 r
  | .blit x y w h stride addr => isS16 x && isS16 y && isS16 w && isS16 h && isU16 stride && isAddr32 addr
  | .blitk x y w h stride addr _ => isS16 x && isS16 y && isS16 w && isS16 h && isU16 stride && isAddr32 addr
  | .grab x y w h stride addr => isS16 x && isS16 y && isS16 w && isS16 h && isU16 stride && isAddr32 addr
  | .xform src sw sh ss sx sy ang dst _ =>
    isAddr32 src && isS16 sw && isS16 sh && isU16 ss && isU16 sx && isU16 sy && isS16 ang && isAddr32 dst
  | .mono x y w h addr _ => isS16 x && isS16 y && isS16 w && isS16 h && isAddr32 addr
  | .mono2x x y w h addr _ => isS16 x && isS16 y && isS16 w && isS16 h && isAddr32 addr
  | .font addr width height => isAddr32 addr && isS16 width && isS16 height
  | .char x y _ _ => isS16 x && isS16 y
  | .char2x x y _ _ => isS16 x && isS16 y
  | .str x y addr len _ => isS16 x && isS16 y && isAddr32 addr && isU16 len
  | .str2x x y addr len _ => isS16 x && isS16 y && isAddr32 addr && isU16 len
  | .flush => true

end Sys2Proof
end

