-- ==== Sys2Proof/Safety.lean ====
section
/-! DEFINITION. The terms claims about the machine are stated in: the invariant of its states, what it means that a
command draws, and the shapes, bitmaps and transactions of the spec said without its loops. -/

namespace Sys2Proof

/-! ## Command words -/

/-- The bits of word `k` of a command that R88 calls ignored: `imm8` where R85's entry says "-", bits 15:8 of `code`. -/
def ignoredBits (i : Instr) (k : Nat) : Word :=
  match i with
  | .nop | .palDefault | .palLoad .. | .getPixel .. | .crop .. | .blit .. | .grab .. | .font .. | .flush =>
    if k = 0 then 0x00FF#16 else 0
  | .char .. | .char2x .. => if k = 3 then 0xFF00#16 else 0
  | _ => 0

/-- The opcode values R87 lists as illegal, first and last of each range. -/
def illegalOpcodes : List (Nat × Nat) :=
  [(0x04, 0x0F), (0x14, 0x1F), (0x23, 0x2F), (0x34, 0x3F), (0x42, 0x4F), (0x53, 0x5F), (0x61, 0x6F), (0x77, 0x7F),
   (0x81, 0xFF)]

end Sys2Proof

namespace Sys2Proof.Machine

/-! ## Events and faults -/

/-- The two triggers of reset (R250): the platform's, and a write of CTRL with bit 0 set (R33). -/
def isReset (e : HostEvent) : Prop :=
  e = .hwReset ∨ ∃ v : Word, v.getLsbD 0 = true ∧ e = .regWrite 0x10 16 v

/-- The state a fault of the engine leaves, `s` being the state at the raising statement: an earlier fault stays recorded
(R224). -/
def faulted (c : Cause) (info : Int) (s : State) : State :=
  { s with
    fault := true
    fcause := if s.fault = true then s.fcause else causeCode c
    finfo := if s.fault = true then s.finfo else BitVec.ofInt 32 info
    fifo := []
    cur := none
    fstate := .idle }

/-! ## The invariant -/

/-- The constraints between parameters that every rule assumes (R10), `FIFO_DEPTH >= 11` (R9), sixteen default colours,
and one of R9's two values of STR2X_ADV. -/
abbrev ConfigWf (p : Config) : Prop :=
  1 ≤ p.w ∧ p.w ≤ 32767 ∧ 2 ≤ p.h ∧ p.h ≤ 32767 ∧ 0 < p.k ∧ p.k < p.h ∧ 1 ≤ p.bandW ∧
    bandCount p * p.h < 65536 ∧ 11 ≤ p.fifoDepth ∧ p.defpal.length = 16 ∧ (p.str2xAdv = 1 ∨ p.str2xAdv = 2)

/-- The sectors have the sizes of R21 and stand in canonical form (log 12). -/
abbrev CanvasWf (s : State) : Prop :=
  SectorMem.wf s.top = true ∧ SectorMem.size s.top = topSize s.cfg ∧
    SectorMem.wf s.bot = true ∧ SectorMem.size s.bot = botSize s.cfg

/-- FCAUSE and FINFO are 0 while FAULT = 0 (R32); in the fault state the FIFO is empty, the cause is one of R221's, and a
command is in execution only after a FifoOverrun (R29, R224). -/
abbrev FaultWf (s : State) : Prop :=
  (s.fault = false → s.fcause = 0 ∧ s.finfo = 0) ∧
    (s.fault = true → s.fifo = [] ∧ 1 ≤ s.fcause.toNat ∧ s.fcause.toNat ≤ 5 ∧ (s.cur.isSome = true → s.fcause = 5))

/-- The font descriptor: sizes 1..32767 where valid, all 0 before the first FONT (R26, R37). -/
abbrev FontWf (s : State) : Prop :=
  (s.fontV = true → 1 ≤ s.fontW.toNat ∧ s.fontW.toNat ≤ 32767 ∧ 1 ≤ s.fontH.toNat ∧ s.fontH.toNat ≤ 32767) ∧
    (s.fontV = false → s.fontAddr = 0 ∧ s.fontW = 0 ∧ s.fontH = 0)

/-- What every command can rely on, while it runs too: legal parameters, sectors, palette and dirty map of their sizes, a
legal font descriptor, host memory in canonical form, the journal's addresses below 2^32. -/
abbrev State.Sound (s : State) : Prop :=
  ConfigWf s.cfg ∧ CanvasWf s ∧ s.pal.length = 256 ∧ s.dirty.length = s.cfg.h * bandCount s.cfg ∧ FontWf s ∧
    Memory.wf s.hmem = true ∧ s.bus.all (fun c => decide (c.1 < 4294967296)) = true

/-- The invariant of the machine's states between steps: sound, a FIFO that fits (R27), fault registers that agree (R32),
FSTATE Flushing exactly while a FLUSH is in execution (R25), and that command's operands in range. -/
abbrev State.Inv (s : State) : Prop :=
  s.Sound ∧ s.fifo.length ≤ s.cfg.fifoDepth ∧ FaultWf s ∧ (s.fstate = .flushing ↔ s.cur = some .flush) ∧
    s.cur.all Instr.wellFormed = true

/-! ## Drawing -/

/-- The command drew: exactly the pixels `(x, y)` of the canvas with `W x y v` for some `v` hold that `v` now, every
other pixel holds what it held; a dirty flag is set iff it was set or a pixel of its band was written (R123); nothing
else of the state changed. -/
def Draws (W : Int → Int → Byte → Prop) (s t : State) : Prop :=
  t = { s with top := t.top, bot := t.bot, dirty := t.dirty } ∧
  (∀ x y v, InCanvas s.cfg x y → W x y v → canvasRead x y t = some v) ∧
  (∀ x y, (∀ v, ¬ W x y v) → canvasRead x y t = canvasRead x y s) ∧
  (∀ y b : Nat, y < s.cfg.h → b < bandCount s.cfg →
    (dirtyFlag y b t = true ↔
      dirtyFlag y b s = true ∨ ∃ x v, InCanvas s.cfg x y ∧ bandOf s.cfg x = b ∧ W x y v))

/-- A shape in one colour. -/
def solid (c : Byte) (P : Int → Int → Prop) : Int → Int → Byte → Prop :=
  fun x y v => P x y ∧ v = c

/-- `(px, py)` lies in the rectangle of `w` by `h` pixels at `(x, y)`; empty where `w <= 0` or `h <= 0`. -/
abbrev InRect (x y w h px py : Int) : Prop :=
  x ≤ px ∧ px < x + w ∧ y ≤ py ∧ py < y + h

/-- `(px, py)` is on the line of R135: the span of a horizontal or a vertical line, else one of Bresenham's pixels. -/
def OnLine (x0 y0 x1 y1 px py : Int) : Prop :=
  if y0 = y1 then py = y0 ∧ min x0 x1 ≤ px ∧ px ≤ max x0 x1
  else if x0 = x1 then px = x0 ∧ min y0 y1 ≤ py ∧ py ≤ max y0 y1
  else (px, py) ∈ lineCandidates x0 y0 x1 y1

/-- The pixel lies in one of the runs. -/
def InSpans (l : List Span) (px py : Int) : Prop :=
  ∃ q ∈ l, py = q.y ∧ q.x ≤ px ∧ px < q.x + q.len

/-- The pixel lies in the filled triangle of vertices sorted by row (R143): between the intercepts of the edge 0-2 and of
the edge 0-1 above vertex 1, 1-2 from vertex 1 on, both truncated; the whole row where all three are on one row. -/
def InFilledTri (x0 y0 x1 y1 x2 y2 px py : Int) : Prop :=
  if y0 = y2 then py = y0 ∧ min x0 (min x1 x2) ≤ px ∧ px ≤ max x0 (max x1 x2)
  else
    let a :=
      if py < y1 ∨ y1 = y2 then x0 + ((x1 - x0) * (py - y0)).tdiv (y1 - y0)
      else x1 + ((x2 - x1) * (py - y1)).tdiv (y2 - y1)
    let b := x0 + ((x2 - x0) * (py - y0)).tdiv (y2 - y0)
    y0 ≤ py ∧ py ≤ y2 ∧ min a b ≤ px ∧ px ≤ max a b

/-- The offset `(u, v)` from the centre is one of the eight symmetric points of a pass of R150's loop (R151). -/
def OnCircle (r u v : Int) : Prop :=
  ∃ q ∈ circlePairs r, (|u| = q.1 ∧ |v| = q.2) ∨ (|u| = q.2 ∧ |v| = q.1)

/-- The offset `(u, v)` from the centre is in the filled circle, R153's pixel set. -/
def InFilledCircle (r u v : Int) : Prop :=
  ∃ q ∈ circlePairs r, (|v| = q.2 ∧ |u| ≤ q.1) ∨ (|v| = q.1 ∧ |u| ≤ q.2)

/-! ## Bitmaps in host memory -/

/-- The byte of host memory at a computed address. -/
def memByte (s : State) (a : Int) : Byte :=
  Memory.read s.hmem a.toNat

/-- The host address that corresponds to canvas pixel `(px, py)` in a blit at `(x, y)` (R160, R164). -/
def blitAddr (x y : Int) (stride addr : Nat) (px py : Int) : Int :=
  addr + (py - y) * stride + (px - x)

/-- The canvas pixel is in the visible part of the rectangle (R164). -/
abbrev Visible (p : Config) (x y w h px py : Int) : Prop :=
  InCanvas p px py ∧ InRect x y w h px py

/-- Every host byte that corresponds to a visible pixel may be accessed. -/
def BlitAccessible (s : State) (x y w h : Int) (stride addr : Nat) : Prop :=
  ∀ px py, Visible s.cfg x y w h px py → Accessible s.cfg (blitAddr x y stride addr px py)

/-- Row-major order of pixels, the order of the blit's loops (R161). -/
abbrev PixelBefore (px py px' py' : Int) : Prop :=
  py < py' ∨ (py = py' ∧ px < px')

/-- The byte of visible pixel `(fx, fy)` may not be accessed, and it is the first such in the order of the blit's loops. -/
def BlitStopsAt (s : State) (x y w h : Int) (stride addr : Nat) (fx fy : Int) : Prop :=
  Visible s.cfg x y w h fx fy ∧ ¬ Accessible s.cfg (blitAddr x y stride addr fx fy) ∧
    ∀ px py, Visible s.cfg x y w h px py → PixelBefore px py fx fy → Accessible s.cfg (blitAddr x y stride addr px py)

/-- The source coordinate is inside the source bitmap of XFORM (R175). -/
abbrev InSource (sw sh : Int) (q : Int × Int) : Prop :=
  0 ≤ q.1 ∧ q.1 < sw ∧ 0 ≤ q.2 ∧ q.2 < sh

/-- `TRIG` as R172 prints it: 32768 times the sine of 0 to 90 degrees. -/
def sineTable : List Int :=
  [0, 572, 1144, 1715, 2286, 2856, 3425, 3993, 4560, 5126,
   5690, 6252, 6813, 7371, 7927, 8481, 9032, 9580, 10126, 10668,
   11207, 11743, 12275, 12803, 13328, 13848, 14365, 14876, 15384, 15886,
   16384, 16877, 17364, 17847, 18324, 18795, 19261, 19720, 20174, 20622,
   21063, 21498, 21926, 22348, 22763, 23170, 23571, 23965, 24351, 24730,
   25102, 25466, 25822, 26170, 26510, 26842, 27166, 27482, 27789, 28088,
   28378, 28660, 28932, 29197, 29452, 29698, 29935, 30163, 30382, 30592,
   30792, 30983, 31164, 31336, 31499, 31651, 31795, 31928, 32052, 32166,
   32270, 32365, 32449, 32524, 32588, 32643, 32688, 32723, 32748, 32763,
   32768]

/-- The copies XFORM makes, in order (R175): the source address of each destination pixel, none where it takes the
background, and its destination address. -/
def xformCopies (src : Nat) (sw sh : Int) (ss sx sy : Nat) (ang : Int) (dst : Nat) (dw dh : Int) :
    List (Option Int × Int) :=
  (List.range dh.toNat).flatMap fun (j : Nat) => (List.range dw.toNat).map fun (i : Nat) =>
    let q := xformSource sw sh sx sy ang dw dh i j
    (if InSource sw sh q then some (xformSrcAddr src ss q.1 q.2) else none, xformDstAddr dst dw i j)

/-- Host memory after such copies, one after another: a read sees the writes before it (R175, R263). -/
def copyBytes (bg : Byte) (l : List (Option Int × Int)) (m : Memory) : Memory :=
  l.foldl (fun m q => Memory.write m q.2.toNat (q.1.elim bg fun a => Memory.read m a.toNat)) m

/-- Both bytes of a copy may be accessed. -/
def CopyAccessible (p : Config) (q : Option Int × Int) : Prop :=
  (∀ a, q.1 = some a → Accessible p a) ∧ Accessible p q.2

/-- The byte `a` of a copy may not be accessed: its source, which is read first, or its destination (R175). -/
def CopyStopsAt (p : Config) (q : Option Int × Int) (a : Int) : Prop :=
  ¬ Accessible p a ∧ (q.1 = some a ∨ q.2 = a ∧ ∀ b, q.1 = some b → Accessible p b)

/-- The pixel in column `c` of row `r` of a monochrome bitmap, 0 outside it (R185, R186). -/
def monoPixel (s : State) (addr w h r c : Int) : Bool :=
  if r < 0 ∨ r ≥ h ∨ c < 0 ∨ c ≥ w then false
  else (memByte s (monoAddr addr w r c)).getLsbD (7 - (c % 8).toNat)

/-- Every byte of a monochrome bitmap may be read. -/
def MonoReadable (s : State) (addr w h : Int) : Prop :=
  ∀ r c : Int, 0 ≤ r → r < h → 0 ≤ c → c < w → Accessible s.cfg (monoAddr addr w r c)

/-- What the 1x blit draws at `(px, py)` (R188). -/
def monoShape (s : State) (x y w h addr : Int) (px py : Int) : Prop :=
  monoPixel s addr w h (py - y) (px - x) = true

/-- The sub-pixel of column `i`, row `j` of the 2x output (R191), by the four override rules: source pixel
`(i div 2, j div 2)` unless the neighbours on the sub-pixel's sides are equal and differ from those opposite. -/
def scaledPixel (s : State) (addr w h j i : Int) : Bool :=
  let pixel := monoPixel s addr w h
  let center := pixel (j / 2) (i / 2)
  let up := pixel (j / 2 - 1) (i / 2)
  let down := pixel (j / 2 + 1) (i / 2)
  let left := pixel (j / 2) (i / 2 - 1)
  let right := pixel (j / 2) (i / 2 + 1)
  if j % 2 = 0 then
    if i % 2 = 0 then (if left = up ∧ left ≠ down ∧ up ≠ right then up else center)
    else (if up = right ∧ up ≠ left ∧ right ≠ down then right else center)
  else
    if i % 2 = 0 then (if left = down ∧ right ≠ down ∧ up ≠ left then left else center)
    else (if down = right ∧ up ≠ right ∧ left ≠ down then down else center)

/-- What the 2x blit draws at `(px, py)` (R191). -/
def mono2xShape (s : State) (x y w h addr : Int) (px py : Int) : Prop :=
  0 ≤ px - x ∧ px - x < 2 * w ∧ 0 ≤ py - y ∧ py - y < 2 * h ∧ scaledPixel s addr w h (py - y) (px - x) = true

/-- The byte that holds column `c` of row `r`: what a pass of the 1x blit reads (R188). -/
def monoReads (addr w r c : Int) : List Int :=
  [monoAddr addr w r c]

/-- The bytes a pass of the 2x blit reads, in order: those of the pixel and of its neighbours above, below, left and
right, where they are in the bitmap (R186, R191). -/
def mono2xReads (addr w h r c : Int) : List Int :=
  ([(r, c), (r - 1, c), (r + 1, c), (r, c - 1), (r, c + 1)].filter
    (fun (q : Int × Int) => decide (0 ≤ q.1 ∧ q.1 < h ∧ 0 ≤ q.2 ∧ q.2 < w))).map fun q => monoAddr addr w q.1 q.2

/-- The pass for column `fc` of row `fr` is the first in row-major order that reads a byte that may not be read, and the
first such byte it reads is `a`. -/
def PassStopsAt (p : Config) (w h : Int) (reads : Int → Int → List Int) (fr fc a : Int) : Prop :=
  0 ≤ fr ∧ fr < h ∧ 0 ≤ fc ∧ fc < w ∧ (reads fr fc).find? (fun b => !accessible p b) = some a ∧
    ∀ r c, 0 ≤ r → r < h → 0 ≤ c → c < w → PixelBefore c r fc fr → ∀ b ∈ reads r c, Accessible p b

/-- What the passes of the 1x blit before that for column `fc` of row `fr` draw (R188). -/
def monoPart (s : State) (x y w h addr fr fc : Int) (px py : Int) : Prop :=
  monoShape s x y w h addr px py ∧ PixelBefore (px - x) (py - y) fc fr

/-- What the passes of the 2x blit before that for source column `fc` of row `fr` draw (R191). -/
def mono2xPart (s : State) (x y w h addr fr fc : Int) (px py : Int) : Prop :=
  mono2xShape s x y w h addr px py ∧ PixelBefore ((px - x) / 2) ((py - y) / 2) fc fr

/-- The glyphs a string draws, each with the cursor it is drawn at (R194, R195): backspace and advance by `adv`, newline
by `line`. -/
def cursorWalk (adv line : Int) : List Byte → Int → Int → List (Int × Int × Byte)
  | [], _, _ => []
  | b :: bs, cx, cy =>
    if b = 0x08#8 then cursorWalk adv line bs (cx - adv) cy
    else if b = 0x0A#8 then cursorWalk adv line bs 0 (cy + line)
    else (cx, cy, b) :: cursorWalk adv line bs (cx + adv) cy

/-- The bytes of a string (R194). -/
def stringBytes (s : State) (addr len : Nat) : List Byte :=
  (List.range len).map (fun k => memByte s (stringAddr addr k))

/-- The glyphs STR draws for the first `n` bytes of its string, with their cursors (R194). -/
def strWalk (s : State) (addr n : Nat) : List (Int × Int × Byte) :=
  cursorWalk s.fontW.toNat s.fontH.toNat (stringBytes s addr n) 0 0

/-- The glyphs STR2X draws for the first `n` bytes of its string, with their cursors (R195). -/
def str2xWalk (s : State) (addr n : Nat) : List (Int × Int × Byte) :=
  cursorWalk (s.cfg.str2xAdv * s.fontW.toNat) (2 * s.fontH.toNat) (stringBytes s addr n) 0 0

/-- The glyphs of a walk at 1x, the string at `(x, y)` (R194). -/
def glyphsShape (s : State) (x y : Int) (walk : List (Int × Int × Byte)) (px py : Int) : Prop :=
  ∃ g ∈ walk, monoShape s (x + g.1) (y + g.2.1) s.fontW.toNat s.fontH.toNat (glyphAddr s g.2.2) px py

/-- The glyphs of a walk at 2x, the string at `(x, y)` (R195). -/
def glyphs2xShape (s : State) (x y : Int) (walk : List (Int × Int × Byte)) (px py : Int) : Prop :=
  ∃ g ∈ walk, mono2xShape s (x + g.1) (y + g.2.1) s.fontW.toNat s.fontH.toNat (glyphAddr s g.2.2) px py

/-- Every glyph that the first `n` bytes of a string draw may be read. -/
def GlyphsReadable (s : State) (addr n : Nat) : Prop :=
  ∀ b ∈ stringBytes s addr n, b ≠ 0x08#8 → b ≠ 0x0A#8 → MonoReadable s (glyphAddr s b) s.fontW.toNat s.fontH.toNat

/-! ## Flushing -/

/-- The colours of the pixels of band `b` of row `y`, left to right (R204). -/
def bandColours (s : State) (y b : Nat) : List Word :=
  (List.range (bandWidth s.cfg b)).map
    (fun (i : Nat) => palMap ((canvasRead ((bandStart s.cfg b : Int) + (i : Int)) y s).getD 0) s)

/-- The transaction pair of band `b` of row `y` (R204, R207). -/
def bandTransactions (s : State) (y b : Nat) : List SinkTx :=
  [.setWindow (bandStart s.cfg b) y (bandWidth s.cfg b) 1, .writePixels (bandColours s y b)]

/-- The bands a flush of state `s` sends, in order (R203). -/
def flushedBands (s : State) : List (Nat × Nat) :=
  (List.range s.cfg.h).flatMap (fun y =>
    if rowVisited (flushInterlaced s) s.parity y then
      ((List.range (bandCount s.cfg)).filter (fun b => dirtyFlag y b s)).map (fun b => (y, b))
    else [])

/-! ## What commands may touch -/

/-- `a` is the address of a byte of a monochrome bitmap that holds a pixel (R186). -/
def MonoByte (addr w h a : Int) : Prop :=
  ∃ r c : Int, 0 ≤ r ∧ r < h ∧ 0 ≤ c ∧ c < w ∧ a = monoAddr addr w r c

/-- `a` is one of the host addresses that command `i`, executed in state `s`, computes for its accesses (R93). -/
def accesses (i : Instr) (s : State) (a : Int) : Prop :=
  match i with
  | .palLoad addr count => count ≤ 256 ∧ ∃ k : Nat, k < count ∧ (a = colourAddr addr k ∨ a = colourAddr addr k + 1)
  | .blit x y w h stride addr | .blitk x y w h stride addr _ | .grab x y w h stride addr =>
    ∃ px py, Visible s.cfg x y w h px py ∧ a = blitAddr x y stride addr px py
  | .xform src sw sh ss sx sy ang dst _ =>
    ¬ XformEmpty sw sh sx sy ∧ xformWidth sw sh sx sy ang ≤ 32767 ∧ xformHeight sw sh sx sy ang ≤ 32767 ∧
      ∃ q ∈ xformCopies src sw sh ss sx sy ang dst (xformWidth sw sh sx sy ang) (xformHeight sw sh sx sy ang),
        q.1 = some a ∨ q.2 = a
  | .mono _ _ w h addr _ | .mono2x _ _ w h addr _ => MonoByte addr w h a
  | .char _ _ code _ | .char2x _ _ code _ =>
    s.fontV = true ∧ MonoByte (glyphAddr s code) s.fontW.toNat s.fontH.toNat a
  | .str _ _ addr len _ | .str2x _ _ addr len _ =>
    s.fontV = true ∧ ((∃ k : Nat, k < len ∧ a = stringAddr addr k) ∨
      ∃ b ∈ stringBytes s addr len, b ≠ 0x08#8 ∧ b ≠ 0x0A#8 ∧
        MonoByte (glyphAddr s b) s.fontW.toNat s.fontH.toNat a)
  | _ => False

/-- Command `i`, executed in state `s`, finds an operand that does not pass, or no font: the cause and the information it
raises, before any effect (R222, R223). -/
def refuses (i : Instr) (s : State) (c : Cause) (info : Int) : Prop :=
  match i with
  | .palLoad _ count => c = .badOperand ∧ 256 < count ∧ info = count
  | .xform _ sw sh _ sx sy ang _ _ =>
    c = .badOperand ∧ ¬ XformEmpty sw sh sx sy ∧
      (32767 < xformWidth sw sh sx sy ang ∨ 32767 < xformHeight sw sh sx sy ang) ∧ info = 0
  | .font _ width height =>
    c = .badOperand ∧ (width < 1 ∧ info = width % 65536 ∨ 1 ≤ width ∧ height < 1 ∧ info = height % 65536)
  | .char .. | .char2x .. | .str .. | .str2x .. => c = .noFont ∧ s.fontV = false ∧ info = 0
  | _ => False

/-- The faults command `i` can raise in state `s`, each with its information (R221, R223): an operand that does not pass,
or an access to one of its own addresses that may not be accessed. -/
def raisesWith (i : Instr) (s : State) (c : Cause) (info : Int) : Prop :=
  refuses i s c info ∨ c = .hostMemFault ∧ accesses i s info ∧ ¬ Accessible s.cfg info

/-! ## Buffers in use -/

/-- The byte at `a` is in the whole font table, `256*GS` bytes, of the font of `s` (R196, R261). -/
def fontByte (s : State) (a : Nat) : Prop :=
  s.fontV = true ∧ s.fontAddr.toNat ≤ a ∧ (a : Int) < s.fontAddr.toNat + 256 * glyphStride s

/-- The byte at `a` is in a region that command `i` names, R261's list, the font being that of `s`. A command that ends or
faults on its operands before any access has no region; of a blit's bitmap only the visible part counts (log 8). -/
def usesByte (i : Instr) (s : State) (a : Nat) : Prop :=
  match i with
  | .palLoad addr count => count ≤ 256 ∧ addr ≤ a ∧ a < addr + 2 * count
  | .blit x y w h stride addr | .blitk x y w h stride addr _ | .grab x y w h stride addr =>
    ∃ px py, Visible s.cfg x y w h px py ∧ (a : Int) = blitAddr x y stride addr px py
  | .xform src sw sh ss sx sy ang dst _ =>
    ¬ XformEmpty sw sh sx sy ∧ xformWidth sw sh sx sy ang ≤ 32767 ∧ xformHeight sw sh sx sy ang ≤ 32767 ∧
      ((∃ u v : Int, InSource sw sh (u, v) ∧ (a : Int) = xformSrcAddr src ss u v) ∨
        dst ≤ a ∧ (a : Int) < dst + xformWidth sw sh sx sy ang * xformHeight sw sh sx sy ang)
  | .mono _ _ w h addr _ | .mono2x _ _ w h addr _ =>
    1 ≤ w ∧ 1 ≤ h ∧ addr ≤ a ∧ (a : Int) < addr + rowBytes w * h
  | .char .. | .char2x .. => fontByte s a
  | .str _ _ addr len _ | .str2x _ _ addr len _ => addr ≤ a ∧ a < addr + len ∨ fontByte s a
  | _ => False

/-- `s` with the font that commands leave: only a FONT of legal sizes sets one (R26, R190). -/
def withFontOf (l : List Instr) (s : State) : State :=
  l.foldl (fun t i =>
    match i with
    | .font addr width height =>
      if 1 ≤ width ∧ 1 ≤ height then
        { t with
          fontAddr := BitVec.ofNat 32 addr
          fontW := BitVec.ofInt 16 width
          fontH := BitVec.ofInt 16 height
          fontV := true }
      else t
    | _ => t) s

/-- The words `ws` are those of the commands `l`, one after another, and then `rest` (R86). -/
def decodesTo : List Instr → List Word → List Word → Prop
  | [], ws, rest => ws = rest
  | i :: l, ws, rest => ∃ ws', decode ws = .command i ws' ∧ decodesTo l ws' rest

/-- A command in execution or queued with all its words names a region with the byte at `a`, the font being the one the
commands before it leave (R65, R261; log 8). -/
def ByteInUse (s : State) (a : Nat) : Prop :=
  ∃ (l before after : List Instr) (i : Instr) (rest : List Word),
    decodesTo l s.fifo rest ∧ s.cur.toList ++ l = before ++ i :: after ∧ usesByte i (withFontOf before s) a

/-! ## Drawing commands -/

/-- The commands that write canvas pixels (R20, R123), FILLSCREEN among them. -/
def drawing (i : Instr) : Bool :=
  match i with
  | .point .. | .fillScreen .. | .hline .. | .vline .. | .line .. | .rect .. | .frect .. | .tri .. | .ftri ..
  | .circ .. | .fcirc .. | .blit .. | .blitk .. | .mono .. | .mono2x .. | .char .. | .char2x .. | .str .. | .str2x .. =>
    true
  | _ => false

end Sys2Proof.Machine
end

