-- ==== Sys2Proof/Certificates/Slice0/Obligations.lean ====
section
/-! DEFINITION. The statements for the provers, in the order of OBLIGATIONS.json. Each says which rule of spec/ it
formalises. -/

section

open Sys2Proof Sys2Proof.Machine

/-! ## Encoding -/

/-- The decoder reads every well-formed command back from its encoding, every operand at every value, and stops at the
command's last word (R80 to R85, R89). -/
def Obligations.DecodeOfEncode : Prop :=
  ∀ (i : Instr) (rest : List Word), i.wellFormed = true → decode (encode i ++ rest) = .command i rest

/-- Words decode to a command iff they are its encoding in every bit that R88 does not call ignored, and its operands are
in the ranges of R83 and R84. -/
def Obligations.DecodeIgnoresOnlyIgnoredBits : Prop :=
  ∀ (ws rest : List Word) (i : Instr), decode ws = .command i rest ↔
    i.wellFormed = true ∧ ∃ x, ws = x ++ rest ∧ x.length = (encode i).length ∧
      ∀ k, k < x.length → wordAt x k &&& ~~~ignoredBits i k = wordAt (encode i) k

/-- A few command words written out in 95_test_vectors.md (V-ENC, V-DEC) decode to the commands they stand for. -/
def Obligations.SpecWordsDecode : Prop :=
  decode [0x2107#16, 0x0005#16, 0xFFFD#16, 0x0006#16] = .command (.vline 5 (-3) 6 0x07#8) [] ∧
  decode [0x0200#16, 0x3456#16, 0x0012#16, 0x0002#16] = .command (.palLoad 0x00123456 2) [] ∧
  decode [0x7301#16, 0x0000#16, 0x0000#16, 0xFF41#16] = .command (.char 0 0 0x41#8 0x01#8) [] ∧
  decode [0x00C3#16, 0x8000#16] = .command .nop [0x8000#16] ∧
  decode [0x1103#16, 0x0046#16] = .incomplete 1 ∧
  decode [0xFFFF#16] = .illegal 0xFFFF#16

/-- R87: a header whose opcode is in one of the 227 values listed is illegal, no other header is, and the engine then
raises IllegalOpcode, FINFO holding the header. -/
def Obligations.IllegalHeadersFault : Prop :=
  ∀ (h : Word) (ws : List Word),
    (decode (h :: ws) = .illegal h ↔ ∃ r ∈ illegalOpcodes, r.1 ≤ h.toNat / 256 ∧ h.toNat / 256 ≤ r.2) ∧
    ∀ s : State, s.inputs = [] → s.fault = false → s.cur = none → s.fifo = h :: ws →
      (∃ r ∈ illegalOpcodes, r.1 ≤ h.toNat / 256 ∧ h.toNat / 256 ≤ r.2) →
      step s = .next (faulted .illegalOpcode h.toNat s)

/-! ## The step -/

/-- The engine's turn runs the command at the front of the FIFO, its words removed and EXEC set, or the command already
in execution, and clears EXEC at its end (R86). `u` is the state in which the turn is taken: the state itself with no
event pending, or the state with the event `engineTurn` consumed. -/
def Obligations.StepRunsDecodedCommand : Prop :=
  ∀ s u : State, (s.inputs = [] ∧ u = s ∨ ∃ rest, s.inputs = .engineTurn :: rest ∧ u = { s with inputs := rest }) →
    (∀ i rest, u.fault = false → u.cur = none → decode u.fifo = .command i rest →
      step s = match exec i { u with fifo := rest, cur := some i } with
        | .next t => .next { t with cur := none }
        | .fault f => .fault f
        | .refused r => .refused r) ∧
    (∀ i, u.cur = some i →
      step s = match exec i u with
        | .next t => .next { t with cur := none }
        | .fault f => .fault f
        | .refused r => .refused r)

/-- With no event pending and no command in execution, the engine changes nothing in the fault state, with an empty FIFO,
and while the command at the front of the FIFO lacks operand words (R86, R224); that waiting answers the same state is
the model's form of it (log 10). -/
def Obligations.EngineWaits : Prop :=
  ∀ s : State, s.inputs = [] → s.cur = none →
    (s.fault = true ∨ s.fifo = [] ∨
      ∃ h ws o, s.fifo = h :: ws ∧ opOf (opcodeOf h) = some o ∧ ws.length < o.operandWords) →
    step s = .next s

/-- Fetching a command and completing it in two events does what one whole turn does (R62, R86): the interval in which
EXEC reads 1 changes no result. The two events are the model's (log 16). -/
def Obligations.BeginThenTurnIsOneTurn : Prop :=
  ∀ (s : State) (rest : List HostEvent), s.inputs = .engineBegin :: .engineTurn :: rest → s.cur = none →
    ∃ u, step s = .next u ∧ step u = step { s with inputs := .engineTurn :: rest }

/-- No command stops the machine: in every state every command, with any operands, answers a next state. In particular no
command makes a canvas access out of range (R51). -/
def Obligations.EveryCommandAnswersANextState : Prop :=
  ∀ (i : Instr) (s : State), ∃ t, exec i s = .next t

/-! ## The invariant -/

/-- Every step keeps the invariant: legal parameters, sector sizes and canonical forms, fault registers that agree, the
font descriptor's ranges, FSTATE Flushing exactly while a FLUSH is in execution (R21 to R27, R32). -/
def Obligations.StepKeepsInvariant : Prop :=
  ∀ s t : State, s.Inv → step s = .next t → t.Inv

/-- The state after reset meets the invariant. -/
def Obligations.ResetMeetsInvariant : Prop :=
  State.reset.Inv

/-! ## Faults -/

/-- A command either leaves the fault registers, the FIFO and EXEC alone, or raises a fault R223 lists for it and takes
it: the first fault is recorded with its information, the address it could not access, the operand word or 0 (R221); the
FIFO is emptied, EXEC and FSTATE cleared, the result registers kept (R224). -/
def Obligations.CommandFaultEntry : Prop :=
  ∀ (i : Instr) (s t : State), exec i s = .next t →
    (t.fault = s.fault ∧ t.fcause = s.fcause ∧ t.finfo = s.finfo ∧ t.fifo = s.fifo ∧ t.cur = s.cur) ∨
    (∃ (c : Cause) (info : Int), raisesWith i s c info ∧ t.fault = true ∧ t.fifo = [] ∧ t.cur = none ∧
      t.fstate = .idle ∧ t.res0 = s.res0 ∧ t.res1 = s.res1 ∧ t.res2 = s.res2 ∧
      (s.fault = true → t.fcause = s.fcause ∧ t.finfo = s.finfo) ∧
      (s.fault = false → t.fcause = causeCode c ∧ t.finfo = BitVec.ofInt 32 info))

/-- Only a reset leaves the fault state, and until then cause and information stay (R32, R229). -/
def Obligations.OnlyResetLeavesFaultState : Prop :=
  ∀ s t : State, s.fault = true → step s = .next t →
    (t.fault = true ∧ t.fcause = s.fcause ∧ t.finfo = s.finfo) ∨ ∃ e rest, s.inputs = e :: rest ∧ isReset e

/-! ## Reset -/

/-- What a reset leaves (R37, R251): the engine's state at its reset values whatever it was doing; parameters untouched;
host memory and sink untouched where no command was in execution (R253). That a canvas byte is then the free value
of this reset is the model's form of "unspecified" (log 1). -/
def Obligations.ResetProcedure : Prop :=
  ∀ (s : State) (e : HostEvent) (rest : List HostEvent), s.Sound → s.inputs = e :: rest → isReset e →
    ∃ t, step s = .next t ∧
      t = { s with
        inputs := rest, top := t.top, bot := t.bot, pal := t.pal, dirty := t.dirty, parity := false,
        fstate := .idle, ilace := false, fontAddr := 0, fontW := 0, fontH := 0, fontV := false, fifo := [],
        cur := none, res0 := 0, res1 := 0, res2 := 0, fault := false, fcause := 0, finfo := 0,
        hmem := t.hmem, sink := t.sink, bus := t.bus, resets := s.resets + 1 } ∧
      (s.cur = none → t.hmem = s.hmem ∧ t.sink = s.sink ∧ t.bus = s.bus) ∧
      t.pal.length = 256 ∧
      (∀ k : Byte, palMap k t = if k.toNat < 16 then s.cfg.defpal.getD k.toNat 0 else 0) ∧
      t.dirty.length = s.cfg.h * bandCount s.cfg ∧
      (∀ y b, y < s.cfg.h → b < bandCount s.cfg → dirtyFlag y b t = true) ∧
      (∀ x y d off, translate s.cfg x y = some (d, off) →
        canvasRead x y t = some (Config.freeCanvasByte (s.resets + 1) (d == .bot) off)) ∧
      statusWord t = 0

/-- R252: what an abandoned command had done outside the engine when a reset came is a prefix, in the order of its
pseudocode, of its full effects: sink transactions, or host-memory writes. Its length is a free value (log 7). R252 says
it of SRESET (R33); that the platform's reset (R250) abandons a command in the same way is DEDUCED (log 22). -/
def Obligations.AbandonedCommandLeavesPrefix : Prop :=
  ∀ (s t : State) (e : HostEvent) (rest : List HostEvent) (i : Instr), s.inputs = e :: rest → isReset e →
    s.cur = some i → exec i { s with inputs := rest } = .next t →
    ∃ (u : State) (n : Nat) (ts : List SinkTx) (ws : List Host.Cell),
      t.sink = s.sink ++ ts ∧ t.bus = s.bus ++ ws ∧
      t.hmem = ws.foldl (fun m c => Memory.write m c.1 c.2) s.hmem ∧ (ts = [] ∨ ws = []) ∧
      step s = .next u ∧ u.cur = none ∧ u.sink = s.sink ++ ts.take n ∧ u.bus = s.bus ++ ws.take n ∧
      u.hmem = (ws.take n).foldl (fun m c => Memory.write m c.1 c.2) s.hmem

/-! ## The host port -/

/-- R30, and the fault entry of FifoOverrun (R224): a command in execution is not stopped. -/
def Obligations.CmdWrite : Prop :=
  ∀ (s : State) (rest : List HostEvent) (w : Word), s.inputs = .regWrite 0x00 16 w :: rest →
    (s.fault = true → step s = .next { s with inputs := rest }) ∧
    (s.fault = false → s.fifo.length < s.cfg.fifoDepth →
      step s = .next { s with inputs := rest, fifo := s.fifo ++ [w] }) ∧
    (s.fault = false → s.fifo.length = s.cfg.fifoDepth →
      step s = .next { s with
        inputs := rest, fifo := [], fault := true, fcause := 5, finfo := w.setWidth 32 })

/-- R29: the bits a read of STATUS returns, and that BUSY reads 0 in the fault state unless a FifoOverrun came while a
command was executing, until that command has completed. -/
def Obligations.StatusBits : Prop :=
  ∀ (s : State) (rest : List HostEvent), s.Inv → s.inputs = .regRead 0x02 16 :: rest →
    ∃ v : Word, step s = .next { s with inputs := rest, hostReads := s.hostReads ++ [v] } ∧
      (v.getLsbD 0 = true ↔ 0 < s.fifo.length ∨ ∃ i, s.cur = some i) ∧
      (v.getLsbD 1 = true ↔ s.fstate = .flushing) ∧
      v.getLsbD 2 = s.fault ∧ v.getLsbD 3 = s.parity ∧ v.getLsbD 4 = s.ilace ∧ v.getLsbD 5 = s.fontV ∧
      (v.getLsbD 6 = true ↔ s.fifo.length = s.cfg.fifoDepth) ∧
      (∀ k, 7 ≤ k → v.getLsbD k = false) ∧
      (s.fault = true → v.getLsbD 0 = true → s.fcause = 5 ∧ ∃ i, s.cur = some i)

/-- R28, R33, R38: what every register reads as, that writes of read-only registers and of CTRL with bit 0 clear change
nothing, and that every other width and every offset not listed is refused (log 9). Of a
FIFO_FREE of 65536 or more, on which the spec is silent, nothing is said but that some value is read (log 24). -/
def Obligations.RegisterBlock : Prop :=
  (∀ (s : State) (rest : List HostEvent) (off : Nat) (v : Word), s.inputs = .regRead off 16 :: rest →
    (off, v) ∈ [(0x00, 0#16), (0x02, statusWord s), (0x04, s.res0), (0x06, s.res1), (0x08, s.res2),
      (0x0A, s.fcause), (0x0C, s.finfo.extractLsb' 0 16), (0x0E, s.finfo.extractLsb' 16 16), (0x10, 0#16)] →
    step s = .next { s with inputs := rest, hostReads := s.hostReads ++ [v] }) ∧
  (∀ (s : State) (rest : List HostEvent), s.inputs = .regRead 0x12 16 :: rest →
    ∃ v : Word, step s = .next { s with inputs := rest, hostReads := s.hostReads ++ [v] } ∧
      (s.cfg.fifoDepth - s.fifo.length < 65536 → v.toNat = s.cfg.fifoDepth - s.fifo.length)) ∧
  (∀ (s : State) (rest : List HostEvent) (off : Nat) (v : Word), s.inputs = .regWrite off 16 v :: rest →
    off ∈ [0x02, 0x04, 0x06, 0x08, 0x0A, 0x0C, 0x0E, 0x12] ∨ (off = 0x10 ∧ v.getLsbD 0 = false) →
    step s = .next { s with inputs := rest }) ∧
  (∀ (s : State) (rest : List HostEvent) (off width : Nat) (v : Word),
    s.inputs = .regRead off width :: rest ∨ s.inputs = .regWrite off width v :: rest →
    width ≠ 16 ∨ off ∉ [0x00, 0x02, 0x04, 0x06, 0x08, 0x0A, 0x0C, 0x0E, 0x10, 0x12] →
    step s = .refused .registerAccess)

/-- A host write to host memory changes that byte alone (R52), or, where the byte is in use by a command in execution or
queued, is refused as R65's race, which R65 lets a model do. That it is refused, and that a command counts as queued when
all its words are there and counts with its whole regions, is the model's choice (log 8). -/
def Obligations.HostMemoryWrite : Prop :=
  ∀ (s : State) (rest : List HostEvent) (a : BitVec 32) (v : Byte), s.Sound → s.inputs = .memWrite a v :: rest →
    (ByteInUse s a.toNat → step s = .refused .bufferRace) ∧
    (¬ ByteInUse s a.toNat →
      ∃ t, step s = .next t ∧ t = { s with inputs := rest, hmem := t.hmem } ∧
        ∀ b : Nat, Memory.read t.hmem b = if b = a.toNat then v else Memory.read s.hmem b) ∧
    (s.cur = none → s.fifo = [] → ¬ ByteInUse s a.toNat)

/-! ## Palette -/

/-- R101: PAL_DEFAULT loads entries 0..15 from DEFPAL and zeroes entries 16..255. R103: PAL_READ copies an entry to RES0.
Nothing else changes. -/
def Obligations.PalDefaultAndPalRead : Prop :=
  (∀ s : State, s.Sound → ∃ t, exec .palDefault s = .next t ∧ t = { s with pal := t.pal } ∧ t.pal.length = 256 ∧
    ∀ k : Byte, palMap k t = if k.toNat < 16 then s.cfg.defpal.getD k.toNat 0 else 0) ∧
  (∀ (s : State) (idx : Byte), exec (.palRead idx) s = .next { s with res0 := s.pal.getD idx.toNat 0 })

/-- R105: a list of at most 256 colours stored little-endian at valid addresses is what PAL_LOAD leaves in the palette,
zero behind it; nothing else changes. -/
def Obligations.PalLoadRoundTrip : Prop :=
  ∀ (s : State) (addr : Nat) (p : List Word), p.length ≤ 256 →
    (∀ i : Nat, i < p.length →
      Accessible s.cfg ((addr : Int) + 2 * i) ∧ memByte s ((addr : Int) + 2 * i) = (p.getD i 0).extractLsb' 0 8 ∧
      Accessible s.cfg ((addr : Int) + 2 * i + 1) ∧
      memByte s ((addr : Int) + 2 * i + 1) = (p.getD i 0).extractLsb' 8 8) →
    ∃ t, exec (.palLoad addr p.length) s = .next t ∧ t = { s with pal := t.pal } ∧ t.pal.length = 256 ∧
      ∀ k : Byte, palMap k t = p.getD k.toNat 0

/-- PAL_LOAD's faults (R102, R226): BadOperand before any change where the count exceeds 256; else the first colour with
an unreadable byte stops the load, the colours before it loaded and every other entry zero. -/
def Obligations.PalLoadStops : Prop :=
  (∀ (s : State) (addr count : Nat), 256 < count →
    exec (.palLoad addr count) s = .next (faulted .badOperand count s)) ∧
  (∀ (s : State) (addr count n : Nat) (a : Int), n < count → count ≤ 256 →
    (∀ i : Nat, i < n → Accessible s.cfg ((addr : Int) + 2 * i) ∧ Accessible s.cfg ((addr : Int) + 2 * i + 1)) →
    (a = (addr : Int) + 2 * n ∨ (a = (addr : Int) + 2 * n + 1 ∧ Accessible s.cfg ((addr : Int) + 2 * n))) →
    ¬ Accessible s.cfg a →
    ∃ t, exec (.palLoad addr count) s = .next t ∧ t = faulted .hostMemFault a { s with pal := t.pal } ∧
      t.pal.length = 256 ∧
      ∀ k : Byte, palMap k t =
        if k.toNat < n then
          memByte s ((addr : Int) + 2 * k.toNat + 1) ++ memByte s ((addr : Int) + 2 * k.toNat)
        else 0)

/-! ## Canvas -/

/-- R111: the translation's formula, its domain, that it is injective and that its image is all offsets of both
sectors. -/
def Obligations.TranslateBijective : Prop :=
  ∀ p : Config, ConfigWf p →
    (∀ x y : Int, InCanvas p x y → y < p.k → translate p x y = some (.top, (y * p.w + x).toNat)) ∧
    (∀ x y : Int, InCanvas p x y → p.k ≤ y → translate p x y = some (.bot, ((y - p.k) * p.w + x).toNat)) ∧
    (∀ x y : Int, ¬ InCanvas p x y → translate p x y = none) ∧
    (∀ x y x' y' q, translate p x y = some q → translate p x' y' = some q → x = x' ∧ y = y') ∧
    (∀ off, (∃ x y, translate p x y = some (.top, off)) ↔ off < p.k * p.w) ∧
    (∀ off, (∃ x y, translate p x y = some (.bot, off)) ↔ off < (p.h - p.k) * p.w)

/-- R202, R23: every column of the canvas lies in exactly one band, the band of R113. -/
def Obligations.BandsPartitionRow : Prop :=
  ∀ p : Config, ConfigWf p → ∀ x b : Nat,
    (x < p.w ∧ bandOf p x = b) ↔ b < bandCount p ∧ bandStart p b ≤ x ∧ x < bandStart p b + bandWidth p b

/-- R121, through the commands: a pixel written reads back, on either side of the sector boundary, and every other pixel
reads as before. -/
def Obligations.PointThenGetPixel : Prop :=
  ∀ (s : State) (x y : Int) (c : Byte), s.Sound → InCanvas s.cfg x y →
    ∃ t, exec (.point x y c) s = .next t ∧ exec (.getPixel x y) t = .next { t with res0 := c.setWidth 16 } ∧
      ∀ x' y', InCanvas s.cfg x' y' → ¬ (x' = x ∧ y' = y) →
        ∃ v, exec (.getPixel x' y') s = .next { s with res0 := v } ∧
          exec (.getPixel x' y') t = .next { t with res0 := v }

/-- R117: the pixel, zero-extended, or 0 off the canvas (log 14); nothing else changes. -/
def Obligations.GetPixelReads : Prop :=
  ∀ (s : State) (x y : Int),
    (∀ d off, translate s.cfg x y = some (d, off) →
      exec (.getPixel x y) s = .next { s with res0 := (sectorByte d off s).setWidth 16 }) ∧
    (¬ InCanvas s.cfg x y → exec (.getPixel x y) s = .next { s with res0 := 0 })

/-- R119: every pixel takes the colour and every dirty flag is set; nothing else changes. -/
def Obligations.FillScreen : Prop :=
  ∀ (s : State) (c : Byte), s.Sound →
    ∃ t, exec (.fillScreen c) s = .next t ∧ t = { s with top := t.top, bot := t.bot, dirty := t.dirty } ∧
      (∀ x y, InCanvas s.cfg x y → canvasRead x y t = some c) ∧
      t.dirty.length = s.cfg.h * bandCount s.cfg ∧
      ∀ y b, y < s.cfg.h → b < bandCount s.cfg → dirtyFlag y b t = true

/-- R122: where the span meets the viewport, `Crop` returns exactly the intersection; where it does not, NONE with start
and length 0. -/
def Obligations.CropLaws : Prop :=
  ∀ start len view : Int,
    (∀ first n last, crop start len view = (first, n, some last) →
      0 ≤ first ∧ first ≤ last ∧ last ≤ view - 1 ∧ n = last - first + 1 ∧ 1 ≤ n ∧ start ≤ first ∧ n ≤ len ∧
      ∀ v, first ≤ v ∧ v ≤ last ↔ (start ≤ v ∧ v ≤ start + len - 1) ∧ (0 ≤ v ∧ v ≤ view - 1)) ∧
    (∀ first n, crop start len view = (first, n, none) →
      first = 0 ∧ n = 0 ∧ ∀ v, ¬ ((start ≤ v ∧ v ≤ start + len - 1) ∧ (0 ≤ v ∧ v ≤ view - 1)))

/-- CROP (R120): the result registers hold the ends and the length of the part of the span the viewport shows, or
0, 0, 0xFFFF where it shows none. -/
def Obligations.CropCommand : Prop :=
  ∀ (s : State) (start len view : Int), isS16 start = true → isS16 len = true → isS16 view = true →
    ∃ t, exec (.crop start len view) s = .next t ∧
      t = { s with res0 := t.res0, res1 := t.res1, res2 := t.res2 } ∧
      ((∀ v, ¬ (start ≤ v ∧ v < start + len ∧ 0 ≤ v ∧ v < view)) →
        t.res0 = 0 ∧ t.res1 = 0 ∧ t.res2 = 0xFFFF#16) ∧
      (∀ v, start ≤ v ∧ v < start + len ∧ 0 ≤ v ∧ v < view →
        t.res2.toNat ≤ 32766 ∧ (t.res1.toNat : Int) = t.res2.toNat - t.res0.toNat + 1 ∧
        ∀ u : Int, (start ≤ u ∧ u < start + len ∧ 0 ≤ u ∧ u < view) ↔ t.res0.toNat ≤ u ∧ u ≤ t.res2.toNat)

/-! ## Lines -/

/-- R118: POINT draws one pixel, where it is on the canvas. R130 to R133: HLINE and VLINE draw the part of the run that is
on the canvas. -/
def Obligations.PointHlineVlineDraw : Prop :=
  ∀ (s : State) (x y len : Int) (c : Byte), s.Sound →
    (∃ t, exec (.point x y c) s = .next t ∧ Draws (solid c (fun px py => px = x ∧ py = y)) s t) ∧
    (∃ t, exec (.hline x y len c) s = .next t ∧
      Draws (solid c (fun px py => py = y ∧ x ≤ px ∧ px < x + len)) s t) ∧
    (∃ t, exec (.vline x y len c) s = .next t ∧
      Draws (solid c (fun px py => px = x ∧ y ≤ py ∧ py < y + len)) s t)

/-- LINE draws the pixels of R135 that are on the canvas, and does the same from either end (R136 (a), (c)). -/
def Obligations.LineDraws : Prop :=
  ∀ (s : State) (x0 y0 x1 y1 : Int) (c : Byte), s.Sound →
    (∃ t, exec (.line x0 y0 x1 y1 c) s = .next t ∧ Draws (solid c (OnLine x0 y0 x1 y1)) s t) ∧
    exec (.line x1 y1 x0 y0 c) s = exec (.line x0 y0 x1 y1 c) s

/-- The pixels of R135's error loop in closed form, for a line left to right and for a steep line top to bottom: pixel
`i` of the major axis, the secondary axis advanced by `ceil((i*dy - dx div 2) / dx)`. So the loop makes
`max(|dx|, |dy|) + 1` calls, from one end point to the other (R136 (b)). -/
def Obligations.LineClosedForm : Prop :=
  (∀ x0 y0 x1 y1 : Int, x0 < x1 → |y1 - y0| ≤ x1 - x0 → y0 ≠ y1 →
    lineCandidates x0 y0 x1 y1 = (List.range (x1 - x0 + 1).toNat).map (fun (i : Nat) =>
      (x0 + (i : Int),
       y0 + (if y0 < y1 then 1 else -1) * ceilDiv ((i : Int) * |y1 - y0| - (x1 - x0) / 2) (x1 - x0)))) ∧
  (∀ x0 y0 x1 y1 : Int, y0 < y1 → |x1 - x0| < y1 - y0 → x0 ≠ x1 →
    lineCandidates x0 y0 x1 y1 = (List.range (y1 - y0 + 1).toNat).map (fun (i : Nat) =>
      (x0 + (if x0 < x1 then 1 else -1) * ceilDiv ((i : Int) * |x1 - x0| - (y1 - y0) / 2) (y1 - y0),
       y0 + (i : Int))))

/-! ## Polygons -/

/-- R140, R141: RECT draws the border of the rectangle, FRECT all of it; nothing where a size is not positive. R142: TRI
draws its three lines. -/
def Obligations.RectFrectTriDraw : Prop :=
  (∀ (s : State) (x y w h : Int) (c : Byte), s.Sound →
    (∃ t, exec (.rect x y w h c) s = .next t ∧
      Draws (solid c (fun px py =>
        InRect x y w h px py ∧ (px = x ∨ px = x + w - 1 ∨ py = y ∨ py = y + h - 1))) s t) ∧
    (∃ t, exec (.frect x y w h c) s = .next t ∧ Draws (solid c (InRect x y w h)) s t)) ∧
  (∀ (s : State) (x0 y0 x1 y1 x2 y2 : Int) (c : Byte), s.Sound →
    ∃ t, exec (.tri x0 y0 x1 y1 x2 y2 c) s = .next t ∧
      Draws (solid c (fun px py =>
        OnLine x0 y0 x1 y1 px py ∨ OnLine x1 y1 x2 y2 px py ∨ OnLine x2 y2 x0 y0 px py)) s t)

/-- FTRI in closed form (R143): with the vertices sorted by row, each row from the first to the last vertex is filled
between the truncated intercepts of its two edges. -/
def Obligations.FtriDraws : Prop :=
  ∀ (s : State) (x0 y0 x1 y1 x2 y2 : Int) (c : Byte), s.Sound →
    ∀ v0 v1 v2 : Int × Int, sortByY (x0, y0) (x1, y1) (x2, y2) = (v0, v1, v2) →
    [v0, v1, v2].Perm [(x0, y0), (x1, y1), (x2, y2)] ∧ v0.2 ≤ v1.2 ∧ v1.2 ≤ v2.2 ∧
    ∃ t, exec (.ftri x0 y0 x1 y1 x2 y2 c) s = .next t ∧
      Draws (solid c (InFilledTri v0.1 v0.2 v1.1 v1.2 v2.1 v2.2)) s t

/-- R143: where the rows of the vertices are distinct, the order they are given in does not matter. -/
def Obligations.FtriVertexOrder : Prop :=
  ∀ (s : State) (v0 v1 v2 w0 w1 w2 : Int × Int) (c : Byte), v0.2 ≠ v1.2 → v1.2 ≠ v2.2 → v0.2 ≠ v2.2 →
    [w0, w1, w2].Perm [v0, v1, v2] →
    exec (.ftri w0.1 w0.2 w1.1 w1.2 w2.1 w2.2 c) s = exec (.ftri v0.1 v0.2 v1.1 v1.2 v2.1 v2.2 c) s

/-! ## Circles -/

/-- The pairs of R150's loop without the loop: one for each `py` from 0 on while `py <= px`, `px` being the largest with
`px^2 + (px-1)^2 <= 2*(r^2 - py^2)`; the single pair (0, 0) where `r = 0`, none where `r < 0`; at most `r + 1` of them. -/
def Obligations.CirclePairsMidpoint : Prop :=
  ∀ r : Int,
    (∀ px py : Int, (px, py) ∈ circlePairs r ↔
      (r = 0 ∧ px = 0 ∧ py = 0) ∨
      (1 ≤ r ∧ 0 ≤ py ∧ py ≤ px ∧ px * px + (px - 1) * (px - 1) + 2 * (py * py) ≤ 2 * (r * r) ∧
        2 * (r * r) < (px + 1) * (px + 1) + px * px + 2 * (py * py))) ∧
    (circlePairs r).map Prod.snd = (List.range (circlePairs r).length).map Int.ofNat ∧
    ((circlePairs r).length : Int) ≤ max 0 (r + 1)

/-- R151: CIRC draws the eight symmetric points of every pass. R152, and R153's pixel set: FCIRC draws the wide run on the
rows at distance `py`, the narrow one on those at distance `px`. -/
def Obligations.CircFcircDraw : Prop :=
  ∀ (s : State) (x y r : Int) (c : Byte), s.Sound →
    (∃ t, exec (.circ x y r c) s = .next t ∧ Draws (solid c (fun px py => OnCircle r (px - x) (py - y))) s t) ∧
    (∃ t, exec (.fcirc x y r c) s = .next t ∧
      Draws (solid c (fun px py => InFilledCircle r (px - x) (py - y))) s t)

/-- R153's bound, "not proved here" in the spec: every pixel FCIRC draws satisfies `u^2 + v^2 <= r^2 + r`; the converse
fails at `r = 4`, where the eight pixels R153 names are not drawn. -/
def Obligations.FcircInsideDisc : Prop :=
  (∀ r u v : Int, InFilledCircle r u v → u * u + v * v ≤ r * r + r) ∧
  (∀ u v : Int, (|u| = 2 ∧ |v| = 4) ∨ (|u| = 4 ∧ |v| = 2) → u * u + v * v ≤ 4 * 4 + 4 ∧ ¬ InFilledCircle 4 u v)

/-! ## Blits -/

/-- R161, R162 where every visible source byte may be read: BLIT copies it to its canvas pixel, BLITK where it is not the
key. -/
def Obligations.BlitsDraw : Prop :=
  ∀ (s : State) (x y w h : Int) (stride addr : Nat) (key : Byte), s.Sound → BlitAccessible s x y w h stride addr →
    (∃ t, exec (.blit x y w h stride addr) s = .next t ∧
      Draws (fun px py v => InRect x y w h px py ∧ v = memByte s (blitAddr x y stride addr px py)) s t) ∧
    (∃ t, exec (.blitk x y w h stride addr key) s = .next t ∧
      Draws (fun px py v =>
        InRect x y w h px py ∧ v = memByte s (blitAddr x y stride addr px py) ∧ v ≠ key) s t)

/-- BLIT, BLITK and GRAB that fault (R226): the first visible pixel, in row-major order, whose byte may not be accessed
stops the command with that byte's address. BLIT and BLITK have drawn the pixels before it and no other; GRAB has stored
the pixels before it (the later of two with one address) and changed no other byte. -/
def Obligations.BlitsFaultKeepsPixelsBefore : Prop :=
  ∀ (s : State) (x y w h : Int) (stride addr : Nat) (key : Byte) (fx fy : Int), s.Sound →
    BlitStopsAt s x y w h stride addr fx fy →
    (∃ u, Draws (fun px py v => InRect x y w h px py ∧ PixelBefore px py fx fy ∧
        v = memByte s (blitAddr x y stride addr px py)) s u ∧
      exec (.blit x y w h stride addr) s = .next (faulted .hostMemFault (blitAddr x y stride addr fx fy) u)) ∧
    (∃ u, Draws (fun px py v => InRect x y w h px py ∧ PixelBefore px py fx fy ∧
        v = memByte s (blitAddr x y stride addr px py) ∧ v ≠ key) s u ∧
      exec (.blitk x y w h stride addr key) s
        = .next (faulted .hostMemFault (blitAddr x y stride addr fx fy) u)) ∧
    (∃ u, u = { s with hmem := u.hmem, bus := u.bus } ∧
      exec (.grab x y w h stride addr) s = .next (faulted .hostMemFault (blitAddr x y stride addr fx fy) u) ∧
      (∀ px py, Visible s.cfg x y w h px py → PixelBefore px py fx fy →
        (∀ px' py', Visible s.cfg x y w h px' py' → PixelBefore px' py' fx fy → PixelBefore px py px' py' →
          blitAddr x y stride addr px' py' ≠ blitAddr x y stride addr px py) →
        canvasRead px py s = some (memByte u (blitAddr x y stride addr px py))) ∧
      (∀ a : Nat, (∀ px py, Visible s.cfg x y w h px py → PixelBefore px py fx fy →
          blitAddr x y stride addr px py ≠ a) →
        Memory.read u.hmem a = Memory.read s.hmem a))

/-- R163 where every visible byte may be written: GRAB stores each visible pixel at its address (of two pixels with one
address, the later in row-major order), and changes no other byte of host memory, no pixel and no flag. -/
def Obligations.GrabCopies : Prop :=
  ∀ (s : State) (x y w h : Int) (stride addr : Nat), s.Sound → BlitAccessible s x y w h stride addr →
    ∃ t, exec (.grab x y w h stride addr) s = .next t ∧ t = { s with hmem := t.hmem, bus := t.bus } ∧
      (∀ px py, Visible s.cfg x y w h px py →
        (∀ px' py', Visible s.cfg x y w h px' py' → PixelBefore px py px' py' →
          blitAddr x y stride addr px' py' ≠ blitAddr x y stride addr px py) →
        canvasRead px py s = some (memByte t (blitAddr x y stride addr px py))) ∧
      (∀ a : Nat, (∀ px py, Visible s.cfg x y w h px py → blitAddr x y stride addr px py ≠ a) →
        Memory.read t.hmem a = Memory.read s.hmem a)

/-- R163's law: GRAB, then BLIT of the same operands, leaves every pixel as it was and marks the bands of the visible
part. Rows of the buffer must not overlap (`w <= stride`), which the law's "inverse" takes for granted (DEDUCED, log 23). -/
def Obligations.GrabThenBlitRestores : Prop :=
  ∀ (s : State) (x y w h : Int) (stride addr : Nat), s.Sound → BlitAccessible s x y w h stride addr → w ≤ stride →
    ∃ t u, exec (.grab x y w h stride addr) s = .next t ∧ exec (.blit x y w h stride addr) t = .next u ∧
      u = { t with top := u.top, bot := u.bot, dirty := u.dirty } ∧
      (∀ px py, canvasRead px py u = canvasRead px py s) ∧
      ∀ y' b, y' < s.cfg.h → b < bandCount s.cfg →
        (dirtyFlag y' b u = true ↔
          dirtyFlag y' b s = true ∨ ∃ px, Visible s.cfg x y w h px y' ∧ bandOf s.cfg px = b)

/-! ## XFORM -/

/-- XFORM's arithmetic at every angle and scale: `SinQ` is R172's table from 0 to 90 degrees, folded by quadrants (R173);
the sides are R174's `ceil` and the source coordinates R175's `div`, each by the bounds that determine it. -/
def Obligations.XformInverseMap : Prop :=
  (List.range 91).map (fun (d : Nat) => sinQ d) = sineTable ∧
  (∀ a : Int, sinQ (180 - a) = sinQ a ∧ sinQ (-a) = -sinQ a ∧ sinQ (a + 360) = sinQ a ∧ cosQ a = sinQ (a + 90)) ∧
  ∀ (sw sh ang : Int) (sx sy : Nat), 1 ≤ sw → 1 ≤ sh → 1 ≤ sx → 1 ≤ sy → ∀ cos sin : Int,
    cos = cosQ ang → sin = sinQ ang →
    (∀ dw, dw = xformWidth sw sh sx sy ang →
      sw * sx * |cos| + sh * sy * |sin| ≤ 2 ^ 23 * dw ∧ 2 ^ 23 * (dw - 1) < sw * sx * |cos| + sh * sy * |sin|) ∧
    (∀ dh, dh = xformHeight sw sh sx sy ang →
      sw * sx * |sin| + sh * sy * |cos| ≤ 2 ^ 23 * dh ∧ 2 ^ 23 * (dh - 1) < sw * sx * |sin| + sh * sy * |cos|) ∧
    ∀ (dw dh : Int) (i j : Nat) (su sv un vn : Int), xformSource sw sh sx sy ang dw dh i j = (su, sv) →
      un = (2 * i + 1 - dw) * cos + (2 * j + 1 - dh) * sin →
      vn = -(2 * i + 1 - dw) * sin + (2 * j + 1 - dh) * cos →
      512 * sx * su ≤ 2 * un + 256 * sx * sw ∧ 2 * un + 256 * sx * sw < 512 * sx * (su + 1) ∧
      512 * sy * sv ≤ 2 * vn + 256 * sy * sh ∧ 2 * vn + 256 * sy * sh < 512 * sy * (sv + 1)

/-- R175 for any buffers, overlapping ones too (R263): XFORM makes its copies in order, a read seeing the writes before it.
Where every byte may be accessed, all of them, and RES0 and RES1 are the sides; else (R226) the copies before the first
byte that may not be, a copy's source before its destination, whose address is in FINFO, and no result. -/
def Obligations.XformRunsInOrder : Prop :=
  ∀ (s : State) (src : Nat) (sw sh : Int) (ss sx sy : Nat) (ang : Int) (dst : Nat) (bg : Byte) (dw dh : Int)
    (copies : List (Option Int × Int)),
    ¬ XformEmpty sw sh sx sy → dw = xformWidth sw sh sx sy ang → dh = xformHeight sw sh sx sy ang →
    dw ≤ 32767 → dh ≤ 32767 → copies = xformCopies src sw sh ss sx sy ang dst dw dh →
    ((∀ q ∈ copies, CopyAccessible s.cfg q) →
      ∃ t, exec (.xform src sw sh ss sx sy ang dst bg) s = .next t ∧
        t = { s with hmem := t.hmem, bus := t.bus, res0 := BitVec.ofInt 16 dw, res1 := BitVec.ofInt 16 dh } ∧
        t.hmem = copyBytes bg copies s.hmem) ∧
    (∀ before q after a, copies = before ++ q :: after → (∀ q' ∈ before, CopyAccessible s.cfg q') →
      CopyStopsAt s.cfg q a →
      ∃ u, u = { s with hmem := u.hmem, bus := u.bus } ∧ u.hmem = copyBytes bg before s.hmem ∧
        exec (.xform src sw sh ss sx sy ang dst bg) s = .next (faulted .hostMemFault a u))

/-- R175 where source and destination bytes may be accessed and do not overlap: every destination byte is the source byte
of the inverse map, or the background; RES0 and RES1 are the sides; nothing else changes. -/
def Obligations.XformWrites : Prop :=
  ∀ (s : State) (src : Nat) (sw sh : Int) (ss sx sy : Nat) (ang : Int) (dst : Nat) (bg : Byte) (dw dh : Int),
    s.Sound → ¬ XformEmpty sw sh sx sy → dw = xformWidth sw sh sx sy ang → dh = xformHeight sw sh sx sy ang →
    dw ≤ 32767 → dh ≤ 32767 →
    (∀ i j : Nat, (i : Int) < dw → (j : Int) < dh → Accessible s.cfg (dst + j * dw + i)) →
    (∀ i j : Nat, (i : Int) < dw → (j : Int) < dh → ∀ q, q = xformSource sw sh sx sy ang dw dh i j →
      InSource sw sh q → Accessible s.cfg (src + q.2 * ss + q.1) ∧
        ∀ i' j' : Nat, (i' : Int) < dw → (j' : Int) < dh → (src : Int) + q.2 * ss + q.1 ≠ dst + j' * dw + i') →
    ∃ t, exec (.xform src sw sh ss sx sy ang dst bg) s = .next t ∧
      t = { s with hmem := t.hmem, bus := t.bus, res0 := BitVec.ofInt 16 dw, res1 := BitVec.ofInt 16 dh } ∧
      (∀ i j : Nat, (i : Int) < dw → (j : Int) < dh → ∀ q, q = xformSource sw sh sx sy ang dw dh i j →
        (InSource sw sh q → memByte t (dst + j * dw + i) = memByte s (src + q.2 * ss + q.1)) ∧
        (¬ InSource sw sh q → memByte t (dst + j * dw + i) = bg)) ∧
      (∀ a : Nat, (∀ i j : Nat, (i : Int) < dw → (j : Int) < dh → (dst : Int) + j * dw + i ≠ a) →
        Memory.read t.hmem a = Memory.read s.hmem a)

/-- R176: at scale 1.0 and an angle of 0 modulo 360 the destination is the source. -/
def Obligations.XformIdentity : Prop :=
  ∀ (s : State) (src : Nat) (sw sh : Int) (ss : Nat) (ang : Int) (dst : Nat) (bg : Byte), s.Sound →
    1 ≤ sw → sw ≤ 32767 → 1 ≤ sh → sh ≤ 32767 → ang % 360 = 0 →
    (∀ i j : Int, 0 ≤ i → i < sw → 0 ≤ j → j < sh →
      Accessible s.cfg (src + j * ss + i) ∧ Accessible s.cfg (dst + j * sw + i) ∧
      ∀ i' j' : Int, 0 ≤ i' → i' < sw → 0 ≤ j' → j' < sh → (src : Int) + j * ss + i ≠ dst + j' * sw + i') →
    ∃ t, exec (.xform src sw sh ss 256 256 ang dst bg) s = .next t ∧
      t.res0 = BitVec.ofInt 16 sw ∧ t.res1 = BitVec.ofInt 16 sh ∧
      (∀ i j : Int, 0 ≤ i → i < sw → 0 ≤ j → j < sh →
        memByte t (dst + j * sw + i) = memByte s (src + j * ss + i)) ∧
      (sw = ss → ∀ n : Int, 0 ≤ n → n < sw * sh → memByte t (dst + n) = memByte s (src + n))

/-- The exact cases of R177 at scale 1.0 (half turn, quarter turns) and at scale 2.0 without a turn: sizes, and the
source pixel of each destination pixel. -/
def Obligations.XformExactCases : Prop :=
  ∀ (sw sh ang : Int), 1 ≤ sw → 1 ≤ sh →
    (ang % 360 = 180 → xformWidth sw sh 256 256 ang = sw ∧ xformHeight sw sh 256 256 ang = sh ∧
      ∀ i j : Nat, xformSource sw sh 256 256 ang sw sh i j = (sw - 1 - i, sh - 1 - j)) ∧
    (ang % 360 = 90 → xformWidth sw sh 256 256 ang = sh ∧ xformHeight sw sh 256 256 ang = sw ∧
      ∀ i j : Nat, xformSource sw sh 256 256 ang sh sw i j = ((j : Int), sh - 1 - i)) ∧
    (ang % 360 = 270 → xformWidth sw sh 256 256 ang = sh ∧ xformHeight sw sh 256 256 ang = sw ∧
      ∀ i j : Nat, xformSource sw sh 256 256 ang sh sw i j = (sw - 1 - j, (i : Int))) ∧
    (ang % 360 = 0 → xformWidth sw sh 512 512 ang = 2 * sw ∧ xformHeight sw sh 512 512 ang = 2 * sh ∧
      ∀ i j : Nat, xformSource sw sh 512 512 ang (2 * sw) (2 * sh) i j = ((i : Int) / 2, (j : Int) / 2))

/-- XFORM's early ends (R175) and its angle: an empty source or a zero scale only clears RES0 and RES1; a side beyond
32767 is BadOperand(0) before any access; sides are at least 1 (R174); whole turns added to the angle change
nothing. -/
def Obligations.XformEarlyEnds : Prop :=
  ∀ (s : State) (src : Nat) (sw sh : Int) (ss sx sy : Nat) (ang : Int) (dst : Nat) (bg : Byte),
    (sw ≤ 0 ∨ sh ≤ 0 ∨ sx = 0 ∨ sy = 0 →
      exec (.xform src sw sh ss sx sy ang dst bg) s = .next { s with res0 := 0, res1 := 0 }) ∧
    (1 ≤ sw → 1 ≤ sh → 1 ≤ sx → 1 ≤ sy →
      1 ≤ xformWidth sw sh sx sy ang ∧ 1 ≤ xformHeight sw sh sx sy ang ∧
      (32767 < xformWidth sw sh sx sy ang ∨ 32767 < xformHeight sw sh sx sy ang →
        exec (.xform src sw sh ss sx sy ang dst bg) s = .next (faulted .badOperand 0 s))) ∧
    (∀ n : Int, exec (.xform src sw sh ss sx sy (ang + 360 * n) dst bg) s
      = exec (.xform src sw sh ss sx sy ang dst bg) s)

/-! ## Monochrome bitmaps and text -/

/-- R187 to R191 where every byte of the bitmap may be read: MONO draws the set pixels, MONO2X the set sub-pixels of
Scale2x. -/
def Obligations.MonoDraws : Prop :=
  ∀ (s : State) (x y w h : Int) (addr : Nat) (c : Byte), s.Sound → MonoReadable s addr w h →
    (∃ t, exec (.mono x y w h addr c) s = .next t ∧ Draws (solid c (monoShape s x y w h addr)) s t) ∧
    (∃ t, exec (.mono2x x y w h addr c) s = .next t ∧ Draws (solid c (mono2xShape s x y w h addr)) s t)

/-- R190: FONT sets the descriptor, or, for a size below 1, raises BadOperand with the offending operand word and leaves
everything else as it was, width tested before height. -/
def Obligations.FontSets : Prop :=
  ∀ (s : State) (addr : Nat) (width height : Int), (Instr.font addr width height).wellFormed = true →
    (1 ≤ width → 1 ≤ height → ∃ t, exec (.font addr width height) s = .next t ∧
      t = { s with fontAddr := t.fontAddr, fontW := t.fontW, fontH := t.fontH, fontV := true } ∧
      t.fontAddr.toNat = addr ∧ (t.fontW.toNat : Int) = width ∧ (t.fontH.toNat : Int) = height) ∧
    (width < 1 → exec (.font addr width height) s = .next (faulted .badOperand (width % 65536) s)) ∧
    (1 ≤ width → height < 1 →
      exec (.font addr width height) s = .next (faulted .badOperand (height % 65536) s))

/-- R192, R193, R196: with a font set and the glyph readable, CHAR and CHAR2X draw the glyph of the code. -/
def Obligations.CharDraws : Prop :=
  ∀ (s : State) (x y : Int) (code c : Byte), s.Sound → s.fontV = true →
    MonoReadable s (s.fontAddr.toNat + ceilDiv s.fontW.toNat 8 * s.fontH.toNat * code.toNat) s.fontW.toNat
      s.fontH.toNat →
    (∃ t, exec (.char x y code c) s = .next t ∧
      Draws (solid c (monoShape s x y s.fontW.toNat s.fontH.toNat
        (s.fontAddr.toNat + ceilDiv s.fontW.toNat 8 * s.fontH.toNat * code.toNat))) s t) ∧
    (∃ t, exec (.char2x x y code c) s = .next t ∧
      Draws (solid c (mono2xShape s x y s.fontW.toNat s.fontH.toNat
        (s.fontAddr.toNat + ceilDiv s.fontW.toNat 8 * s.fontH.toNat * code.toNat))) s t)

/-- R194, R195: with a font set, the string readable and the glyphs it draws readable, STR draws each glyph at its
cursor; STR2X likewise, with doubled glyphs, the line doubled and the advance STR2X_ADV times the width. -/
def Obligations.StringsDraw : Prop :=
  ∀ (s : State) (x y : Int) (addr len : Nat) (c : Byte), s.Sound → s.fontV = true →
    (∀ k : Nat, k < len → Accessible s.cfg (stringAddr addr k)) → GlyphsReadable s addr len →
    (∃ t, exec (.str x y addr len c) s = .next t ∧
      Draws (solid c (glyphsShape s x y (strWalk s addr len))) s t) ∧
    (∃ t, exec (.str2x x y addr len c) s = .next t ∧
      Draws (solid c (glyphs2xShape s x y (str2xWalk s addr len))) s t)

/-- MONO, MONO2X, CHAR and CHAR2X that fault (R226): the first pass, in row-major order, with a byte that may not be read
stops the command with the first such byte's address (R186, R191), the pixels of the passes before it drawn, no other. -/
def Obligations.GlyphFaultKeepsPixelsBefore : Prop :=
  (∀ (s : State) (x y w h : Int) (addr : Nat) (c : Byte) (fr fc a : Int), s.Sound →
    (PassStopsAt s.cfg w h (monoReads addr w) fr fc a →
      ∃ u, Draws (solid c (monoPart s x y w h addr fr fc)) s u ∧
        exec (.mono x y w h addr c) s = .next (faulted .hostMemFault a u)) ∧
    (PassStopsAt s.cfg w h (mono2xReads addr w h) fr fc a →
      ∃ u, Draws (solid c (mono2xPart s x y w h addr fr fc)) s u ∧
        exec (.mono2x x y w h addr c) s = .next (faulted .hostMemFault a u))) ∧
  (∀ (s : State) (x y w h : Int) (code c : Byte) (fr fc a : Int), s.Sound → s.fontV = true →
    w = s.fontW.toNat → h = s.fontH.toNat →
    (PassStopsAt s.cfg w h (monoReads (glyphAddr s code) w) fr fc a →
      ∃ u, Draws (solid c (monoPart s x y w h (glyphAddr s code) fr fc)) s u ∧
        exec (.char x y code c) s = .next (faulted .hostMemFault a u)) ∧
    (PassStopsAt s.cfg w h (mono2xReads (glyphAddr s code) w h) fr fc a →
      ∃ u, Draws (solid c (mono2xPart s x y w h (glyphAddr s code) fr fc)) s u ∧
        exec (.char2x x y code c) s = .next (faulted .hostMemFault a u)))

/-- STR and STR2X that fault (R226), the bytes before byte `k` of the string and the glyphs they draw being readable: at
byte `k` itself, with its address, the glyphs before it drawn; or in the glyph byte `k` draws, as that glyph's blit does,
the glyphs before it drawn and the passes before the fault. -/
def Obligations.StringFaultKeepsGlyphsBefore : Prop :=
  ∀ (s : State) (x y : Int) (addr len k : Nat) (c : Byte) (w h : Int), s.Sound → s.fontV = true →
    w = s.fontW.toNat → h = s.fontH.toNat → k < len →
    (∀ k' : Nat, k' < k → Accessible s.cfg (stringAddr addr k')) → GlyphsReadable s addr k →
    (¬ Accessible s.cfg (stringAddr addr k) →
      (∃ u, Draws (solid c (glyphsShape s x y (strWalk s addr k))) s u ∧
        exec (.str x y addr len c) s = .next (faulted .hostMemFault (stringAddr addr k) u)) ∧
      (∃ u, Draws (solid c (glyphs2xShape s x y (str2xWalk s addr k))) s u ∧
        exec (.str2x x y addr len c) s = .next (faulted .hostMemFault (stringAddr addr k) u))) ∧
    (Accessible s.cfg (stringAddr addr k) → ∀ (cx cy : Int) (b : Byte) (fr fc a : Int),
      (strWalk s addr (k + 1) = strWalk s addr k ++ [(cx, cy, b)] →
        PassStopsAt s.cfg w h (monoReads (glyphAddr s b) w) fr fc a →
        ∃ u, Draws (solid c (fun px py => glyphsShape s x y (strWalk s addr k) px py ∨
            monoPart s (x + cx) (y + cy) w h (glyphAddr s b) fr fc px py)) s u ∧
          exec (.str x y addr len c) s = .next (faulted .hostMemFault a u)) ∧
      (str2xWalk s addr (k + 1) = str2xWalk s addr k ++ [(cx, cy, b)] →
        PassStopsAt s.cfg w h (mono2xReads (glyphAddr s b) w h) fr fc a →
        ∃ u, Draws (solid c (fun px py => glyphs2xShape s x y (str2xWalk s addr k) px py ∨
            mono2xPart s (x + cx) (y + cy) w h (glyphAddr s b) fr fc px py)) s u ∧
          exec (.str2x x y addr len c) s = .next (faulted .hostMemFault a u)))

/-- R192 to R195: without a font the four glyph commands raise NoFont(0), STR and STR2X even with length 0, and leave
everything else as it was. -/
def Obligations.NoFontFault : Prop :=
  ∀ (s : State) (x y : Int) (code c : Byte) (addr len : Nat), s.fontV = false →
    exec (.char x y code c) s = .next (faulted .noFont 0 s) ∧
    exec (.char2x x y code c) s = .next (faulted .noFont 0 s) ∧
    exec (.str x y addr len c) s = .next (faulted .noFont 0 s) ∧
    exec (.str2x x y addr len c) s = .next (faulted .noFont 0 s)

/-! ## NOP and FLUSH -/

/-- R200: NOP changes nothing. -/
def Obligations.NopDoesNothing : Prop :=
  ∀ s : State, exec .nop s = .next s

/-- R203 to R205, R207: FLUSH appends one window and one pixel run for each dirty band of the visited rows, in ascending
order, in the colours of the palette, clears exactly those flags, and sets ILACE and PARITY; nothing else changes. -/
def Obligations.FlushSends : Prop :=
  ∀ s : State, s.Sound →
    ∃ t, exec .flush s = .next t ∧
      t = { s with
        sink := s.sink ++ (flushedBands s).flatMap (fun q => bandTransactions s q.1 q.2)
        dirty := t.dirty
        parity := if s.cfg.parityToggle = .everyFlush ∨ flushInterlaced s = true then !s.parity else s.parity
        ilace := flushInterlaced s
        fstate := .idle } ∧
      t.dirty.length = s.dirty.length ∧
      ∀ y b, y < s.cfg.h → b < bandCount s.cfg →
        dirtyFlag y b t = (dirtyFlag y b s && !decide ((y, b) ∈ flushedBands s))

/-- R208: what a FLUSH leaves of the dirty map, interlaced or not; as many transaction pairs as flags cleared; no band
whose flag was 0 is sent. -/
def Obligations.FlushClearsDirtyMap : Prop :=
  ∀ s t : State, s.Sound → exec .flush s = .next t →
    (dirtyCount s ≤ s.cfg.thresh → dirtyCount t = 0) ∧
    (s.cfg.thresh < dirtyCount s → ∀ y b, y < s.cfg.h → b < bandCount s.cfg →
      dirtyFlag y b t = if y % 2 = s.parity.toNat then false else dirtyFlag y b s) ∧
    t.sink.length + 2 * dirtyCount t = s.sink.length + 2 * dirtyCount s ∧
    (∀ x y w h, SinkTx.setWindow x y w h ∈ t.sink.drop s.sink.length →
      ∃ b, b < bandCount s.cfg ∧ x = bandStart s.cfg b ∧ w = bandWidth s.cfg b ∧ h = 1 ∧ y < s.cfg.h ∧
        dirtyFlag y b s = true)

/-- R209: with this hardware's parameters and every flag set, as after reset or FILLSCREEN, two flushes are needed: both
interlaced, 1200 pairs each, the second sending the rows of the other parity. -/
def Obligations.FirstRefreshTakesTwoFlushes : Prop :=
  ∀ s : State, s.Sound → s.cfg = hardware → (∀ y b, y < 480 → b < 5 → dirtyFlag y b s = true) →
    ∃ t u, exec .flush s = .next t ∧ exec .flush t = .next u ∧ t.ilace = true ∧ u.ilace = true ∧
      t.sink.length = s.sink.length + 2 * 1200 ∧ dirtyCount t = 1200 ∧ t.parity = !s.parity ∧
      (∀ y b, y < 480 → b < 5 → dirtyFlag y b t = decide (y % 2 ≠ s.parity.toNat)) ∧
      u.sink.length = t.sink.length + 2 * 1200 ∧ dirtyCount u = 0 ∧
      (∀ x y w h, SinkTx.setWindow x y w h ∈ t.sink.drop s.sink.length → y % 2 = s.parity.toNat) ∧
      (∀ x y w h, SinkTx.setWindow x y w h ∈ u.sink.drop t.sink.length → y % 2 ≠ s.parity.toNat)

/-! ## All commands -/

/-- What each command can change at all (R20's table, R31, R104), faulting or not: only FLUSH the sink, PARITY and ILACE;
only GRAB and XFORM host memory; only PAL_READ, GETPIXEL, CROP and XFORM a result register; only FONT the font; only
PAL_DEFAULT and PAL_LOAD the palette; only drawing commands the canvas; only those and FLUSH the dirty map. -/
def Obligations.CommandFootprints : Prop :=
  ∀ (i : Instr) (s t : State), exec i s = .next t →
    t.cfg = s.cfg ∧ t.resets = s.resets ∧ t.inputs = s.inputs ∧ t.hostReads = s.hostReads ∧
    (i ≠ .flush → t.sink = s.sink ∧ t.parity = s.parity ∧ t.ilace = s.ilace) ∧
    ((∀ x y w h st a, i ≠ .grab x y w h st a) → (∀ a w h st sx sy g d b, i ≠ .xform a w h st sx sy g d b) →
      t.hmem = s.hmem ∧ t.bus = s.bus) ∧
    ((∀ k, i ≠ .palRead k) → (∀ x y, i ≠ .getPixel x y) → (∀ a b c, i ≠ .crop a b c) →
      (∀ a w h st sx sy g d b, i ≠ .xform a w h st sx sy g d b) → t.res0 = s.res0) ∧
    ((∀ a b c, i ≠ .crop a b c) → (∀ a w h st sx sy g d b, i ≠ .xform a w h st sx sy g d b) → t.res1 = s.res1) ∧
    ((∀ a b c, i ≠ .crop a b c) → t.res2 = s.res2) ∧
    ((∀ a w h, i ≠ .font a w h) →
      t.fontAddr = s.fontAddr ∧ t.fontW = s.fontW ∧ t.fontH = s.fontH ∧ t.fontV = s.fontV) ∧
    (i ≠ .palDefault → (∀ a n, i ≠ .palLoad a n) → t.pal = s.pal) ∧
    (drawing i = false → t.top = s.top ∧ t.bot = s.bot ∧ (i ≠ .flush → t.dirty = s.dirty))

/-- R23's invariant and R123, for every command but FLUSH, faulting or not: a pixel that changed has the band it lies in
marked, and no flag is cleared. -/
def Obligations.ChangedPixelsAreDirty : Prop :=
  ∀ (i : Instr) (s t : State), s.Sound → exec i s = .next t → i ≠ .flush →
    (∀ y b, y < s.cfg.h → b < bandCount s.cfg → dirtyFlag y b s = true → dirtyFlag y b t = true) ∧
    (∀ x y : Nat, InCanvas s.cfg x y → canvasRead x y t ≠ canvasRead x y s →
      dirtyFlag y (bandOf s.cfg x) t = true)

end
end

