-- ==== Sys2Proof/Laws/Run.lean ====
section
/-! SUPPORT. How pseudocode runs end: `Run.Sat` says what holds where a run ends, or where it raises, and that it makes
no access without a meaning; one lemma per way of building a run. -/

namespace Sys2Proof.Machine

/-- The run makes no meaningless access, ends in a state with `Q`, or raises `c(info)` in a state with `F c info`. -/
def Run.Sat (r : Run) (Q : State → Prop) (F : Cause → Int → State → Prop) : Prop :=
  match r with
  | .ok s => Q s
  | .raise c info s => F c info s
  | .bad _ => False

@[simp] theorem Run.sat_ok (s : State) (Q : State → Prop) (F : Cause → Int → State → Prop) :
    (Run.ok s).Sat Q F ↔ Q s :=
  Iff.rfl

@[simp] theorem Run.sat_raise (c : Cause) (n : Int) (s : State) (Q : State → Prop) (F : Cause → Int → State → Prop) :
    (Run.raise c n s).Sat Q F ↔ F c n s :=
  Iff.rfl

@[simp] theorem Run.sat_bad (e : Fault) (Q : State → Prop) (F : Cause → Int → State → Prop) :
    (Run.bad e).Sat Q F ↔ False :=
  Iff.rfl

@[simp] theorem Run.bind_ok (s : State) (f : State → Run) : (Run.ok s).bind f = f s := rfl

@[simp] theorem Run.bind_raise (c : Cause) (n : Int) (s : State) (f : State → Run) :
    (Run.raise c n s).bind f = .raise c n s := rfl

@[simp] theorem Run.bind_bad (e : Fault) (f : State → Run) : (Run.bad e).bind f = .bad e := rfl

@[simp] theorem Run.outcome_ok (s : State) : (Run.ok s).outcome = .next s := rfl

@[simp] theorem Run.outcome_raise (c : Cause) (n : Int) (s : State) :
    (Run.raise c n s).outcome = .next (raiseFault true c n s) := rfl

@[simp] theorem Run.outcome_bad (e : Fault) : (Run.bad e).outcome = .fault e := rfl

theorem Run.Sat.mono {r : Run} {Q Q' : State → Prop} {F F' : Cause → Int → State → Prop} (h : r.Sat Q F)
    (hq : ∀ s, Q s → Q' s) (hf : ∀ c n s, F c n s → F' c n s) : r.Sat Q' F' := by
  cases r with
  | ok s => exact hq s h
  | raise c n s => exact hf c n s h
  | bad e => exact h

theorem Run.Sat.bind {r : Run} {f : State → Run} {P Q : State → Prop} {F : Cause → Int → State → Prop}
    (h : r.Sat P F) (hf : ∀ t, P t → (f t).Sat Q F) : (r.bind f).Sat Q F := by
  cases r with
  | ok s => exact hf s h
  | raise c n s => exact h
  | bad e => exact h

/-- A run that cannot raise ends. -/
theorem Run.Sat.ends {r : Run} {Q : State → Prop} (h : r.Sat Q (fun _ _ _ => False)) : ∃ t, r = .ok t ∧ Q t := by
  cases r with
  | ok s => exact ⟨s, rfl, h⟩
  | raise c n s => exact h.elim
  | bad e => exact h.elim

/-- The outcome of a run: a next state, its end or the fault state of what it raised. -/
theorem Run.Sat.outcome {r : Run} {Q : State → Prop} {F : Cause → Int → State → Prop} (h : r.Sat Q F) :
    (∃ t, r.outcome = .next t ∧ Q t) ∨ (∃ c n t, r.outcome = .next (raiseFault true c n t) ∧ F c n t) := by
  cases r with
  | ok s => exact .inl ⟨s, rfl, h⟩
  | raise c n s => exact .inr ⟨c, n, s, rfl, h⟩
  | bad e => exact h.elim

theorem loopFrom_sat {body : Nat → State → Run} {F : Cause → Int → State → Prop} (P : Nat → State → Prop)
    (n i : Nat) (s : State) (h0 : P i s)
    (hstep : ∀ j t, i ≤ j → j < i + n → P j t → (body j t).Sat (P (j + 1)) F) :
    (loopFrom body n i s).Sat (P (i + n)) F := by
  induction n generalizing i s with
  | zero => exact h0
  | succ n ih =>
    refine (hstep i s (by omega) (by omega) h0).bind fun t ht => ?_
    have := ih (i + 1) t ht (fun j u hj hj' hu => hstep j u (by omega) (by omega) hu)
    rwa [Nat.add_right_comm] at this

/-- The loop rule: what holds before pass `i` and is carried over every pass holds at the end. -/
theorem forRange_sat {body : Nat → State → Run} {F : Cause → Int → State → Prop} (P : Nat → State → Prop)
    (n : Nat) (s : State) (h0 : P 0 s) (hstep : ∀ i t, i < n → P i t → (body i t).Sat (P (i + 1)) F) :
    (forRange n body s).Sat (P n) F := by
  have := loopFrom_sat P n 0 s h0 (fun j t _ hj ht => hstep j t (by omega) ht)
  rwa [Nat.zero_add] at this

/-- What may be accessed, spelled out (R53, R54). -/
theorem accessible_iff (p : Config) (a : Int) :
    Accessible p a ↔ 0 ≤ a ∧ a < 4294967296 ∧ hValid p a.toNat = true := by
  unfold Accessible accessible
  simp only [Bool.and_eq_true, decide_eq_true_eq, and_assoc]
  constructor <;> rintro ⟨h1, h2, h3⟩ <;> exact ⟨h1, by omega, h3⟩

/-- A byte read: the byte where the address is accessible, else HostMemFault with the address (R57). -/
theorem readByte_sat {a : Int} {s : State} {k : Byte → Run} {Q : State → Prop} {F : Cause → Int → State → Prop}
    (hk : Accessible s.cfg a → (k (Memory.read s.hmem a.toNat)).Sat Q F)
    (hf : ¬ Accessible s.cfg a → F .hostMemFault a s) : (readByte a s k).Sat Q F := by
  unfold readByte
  split
  · exact hk ‹_›
  · exact hf ‹_›

theorem readByte_ok {a : Int} {s : State} (k : Byte → Run) (h : Accessible s.cfg a) :
    readByte a s k = k (Memory.read s.hmem a.toNat) :=
  if_pos h

/-- A byte write: stored where the address is accessible, else HostMemFault with the address (R58). -/
theorem writeByte_sat {a : Int} {v : Byte} {s : State} {Q : State → Prop} {F : Cause → Int → State → Prop}
    (hk : Accessible s.cfg a → Q (storeByte a.toNat v s)) (hf : ¬ Accessible s.cfg a → F .hostMemFault a s) :
    (writeByte a v s).Sat Q F := by
  unfold writeByte
  split
  · exact hk ‹_›
  · exact hf ‹_›

theorem writeByte_ok {a : Int} (v : Byte) {s : State} (h : Accessible s.cfg a) :
    writeByte a v s = .ok (storeByte a.toNat v s) :=
  if_pos h

theorem readByte_raise {a : Int} {s : State} (k : Byte → Run) (h : ¬ Accessible s.cfg a) :
    readByte a s k = .raise .hostMemFault a s :=
  if_neg h

theorem writeByte_raise {a : Int} (v : Byte) {s : State} (h : ¬ Accessible s.cfg a) :
    writeByte a v s = .raise .hostMemFault a s :=
  if_neg h

/-- A 16-bit read where both bytes are accessible: the low byte at the lower address (R55, R57). -/
theorem readWord_ok {a : Int} {s : State} (k : Word → Run) (h : Accessible s.cfg a) (h' : Accessible s.cfg (a + 1)) :
    readWord a s k = k (Memory.read s.hmem (a + 1).toNat ++ Memory.read s.hmem a.toNat) := by
  unfold readWord
  rw [readByte_ok _ h, readByte_ok _ h']

/-- A loop of `n + m` passes is one of `n` and then one of `m`. -/
theorem loopFrom_add (n m : Nat) (body : Nat → State → Run) (i : Nat) (s : State) :
    loopFrom body (n + m) i s = (loopFrom body n i s).bind (loopFrom body m (i + n)) := by
  induction n generalizing s i with
  | zero => simp [loopFrom]
  | succ n ih =>
    rw [Nat.add_right_comm, loopFrom, loopFrom]
    cases body i s with
    | ok t => rw [Run.bind_ok, Run.bind_ok, ih, Nat.add_right_comm, Nat.add_assoc]
    | raise c k t => rfl
    | bad e => rfl

/-- The last pass of a loop. -/
theorem loopFrom_snoc (n : Nat) (body : Nat → State → Run) (i : Nat) (s : State) :
    loopFrom body (n + 1) i s = (loopFrom body n i s).bind (body (i + n)) := by
  rw [loopFrom_add]
  congr 1
  funext t
  simp only [loopFrom]
  cases body (i + n) t <;> rfl

/-- A loop whose pass `m` raises, the passes before it having ended, raises what that pass raises (R224). -/
theorem forRange_raise {n m : Nat} {body : Nat → State → Run} {s t u : State} {c : Cause} {i : Int} (hm : m < n)
    (h : forRange m body s = .ok t) (h' : body m t = .raise c i u) : forRange n body s = .raise c i u := by
  obtain ⟨k, rfl⟩ : ∃ k, n = m + (k + 1) := ⟨n - m - 1, by omega⟩
  unfold forRange at *
  rw [loopFrom_add, h, Run.bind_ok, Nat.zero_add, loopFrom, h', Run.bind_raise]

end Sys2Proof.Machine
end

