-- ==== Sys2Proof/Laws/Sector.lean ====
section
/-! SUPPORT. Sector memories as runs: reading after writing, sizes, the canonical form, and that equal contents mean
equal data. -/

namespace Sys2Proof.Machine

theorem SectorMem.get_push (n : Nat) (v : Option Byte) (m : SectorMem) (i : Nat) :
    SectorMem.get (SectorMem.push n v m) i = if i < n then v else SectorMem.get m (i - n) := by
  unfold SectorMem.push
  split
  · split
    · next h => simp [SectorMem.get, h]
    · simp [SectorMem.get]
  · next k u m =>
    split
    · next h => simp [h]
    · split
      · next h =>
        subst h
        simp only [SectorMem.get]
        by_cases h1 : i < n
        · rw [if_pos (by omega), if_pos h1]
        · rw [if_neg h1]
          by_cases h2 : i < n + k
          · rw [if_pos h2, if_pos (by omega)]
          · rw [if_neg h2, if_neg (by omega), Nat.sub_add_eq]
      · simp [SectorMem.get]

theorem SectorMem.size_push (n : Nat) (v : Option Byte) (m : SectorMem) :
    SectorMem.size (SectorMem.push n v m) = n + SectorMem.size m := by
  unfold SectorMem.push
  split
  · split <;> simp_all [SectorMem.size]
  · split
    · simp_all
    · split <;> simp [SectorMem.size]; omega

theorem SectorMem.size_set (m : SectorMem) (i : Nat) (v : Byte) :
    SectorMem.size (SectorMem.set m i v) = SectorMem.size m := by
  induction m generalizing i with
  | nil => rfl
  | cons d m ih =>
    obtain ⟨n, u⟩ := d
    unfold SectorMem.set
    split
    · simp only [SectorMem.size_push, SectorMem.size]; omega
    · simp only [SectorMem.size_push, SectorMem.size, ih]

/-- What a sector holds after a write inside it. -/
theorem SectorMem.get_set (m : SectorMem) (i j : Nat) (v : Byte) (h : i < SectorMem.size m) :
    SectorMem.get (SectorMem.set m i v) j = if j = i then some v else SectorMem.get m j := by
  induction m generalizing i j with
  | nil => simp [SectorMem.size] at h
  | cons d m ih =>
    obtain ⟨n, u⟩ := d
    simp only [SectorMem.size] at h
    unfold SectorMem.set
    split
    · next hi =>
      simp only [SectorMem.get_push, SectorMem.get]
      split_ifs <;> first | rfl | omega | (congr 1; omega)
    · next hi =>
      simp only [SectorMem.get_push, SectorMem.get]
      by_cases hj : j < n
      · rw [if_pos hj, if_neg (by omega), if_pos hj]
      · rw [if_neg hj, ih (i - n) (j - n) (by omega), if_neg hj]
        by_cases hji : j = i
        · simp [hji]
        · rw [if_neg hji, if_neg (by omega)]

theorem SectorMem.wf_push (n : Nat) (v : Option Byte) (m : SectorMem) (h : SectorMem.wf m = true) :
    SectorMem.wf (SectorMem.push n v m) = true := by
  unfold SectorMem.push
  split
  · split <;> simp_all [SectorMem.wf]
  · split
    · exact h
    · split
      · next hn hv =>
        subst hv
        simp only [SectorMem.wf, Bool.and_eq_true, decide_eq_true_eq] at h ⊢
        exact ⟨⟨by omega, h.1.2⟩, h.2⟩
      · next hn hv =>
        rw [SectorMem.wf, h]
        simp [hn, Ne.symm hv]

theorem SectorMem.wf_set (m : SectorMem) (i : Nat) (v : Byte) (h : SectorMem.wf m = true) :
    SectorMem.wf (SectorMem.set m i v) = true := by
  induction m generalizing i with
  | nil => rfl
  | cons d m ih =>
    obtain ⟨n, u⟩ := d
    have hm : SectorMem.wf m = true := by
      simp only [SectorMem.wf, Bool.and_eq_true] at h; exact h.2
    unfold SectorMem.set
    split
    · exact SectorMem.wf_push _ _ _ (SectorMem.wf_push _ _ _ (SectorMem.wf_push _ _ _ hm))
    · exact SectorMem.wf_push _ _ _ (ih _ hm)

theorem SectorMem.get_fill (n : Nat) (v : Byte) (i : Nat) (h : i < n) :
    SectorMem.get (SectorMem.fill n v) i = some v := by
  simp [SectorMem.fill, SectorMem.get_push, h]

theorem SectorMem.size_fill (n : Nat) (v : Byte) : SectorMem.size (SectorMem.fill n v) = n := by
  simp [SectorMem.fill, SectorMem.size_push, SectorMem.size]

theorem SectorMem.wf_fill (n : Nat) (v : Byte) : SectorMem.wf (SectorMem.fill n v) = true :=
  SectorMem.wf_push _ _ _ rfl

theorem SectorMem.get_blank (n i : Nat) : SectorMem.get (blankSector n) i = none := by
  unfold blankSector
  split <;> simp [SectorMem.get]

theorem SectorMem.size_blank (n : Nat) : SectorMem.size (blankSector n) = n := by
  unfold blankSector
  split <;> simp_all [SectorMem.size]

theorem SectorMem.wf_blank (n : Nat) : SectorMem.wf (blankSector n) = true := by
  unfold blankSector
  split <;> simp_all [SectorMem.wf]

/-- In canonical form, two sectors of one size with the same contents are the same list of runs. -/
theorem SectorMem.ext_get {m n : SectorMem} (hm : SectorMem.wf m = true) (hn : SectorMem.wf n = true)
    (hs : SectorMem.size m = SectorMem.size n)
    (h : ∀ i, i < SectorMem.size m → SectorMem.get m i = SectorMem.get n i) : m = n := by
  induction m generalizing n with
  | nil =>
    cases n with
    | nil => rfl
    | cons e n => simp [SectorMem.wf] at hn; simp [SectorMem.size] at hs; omega
  | cons d m ih =>
    cases n with
    | nil => simp [SectorMem.wf] at hm; simp [SectorMem.size] at hs; omega
    | cons e n =>
      obtain ⟨a, u⟩ := d
      obtain ⟨b, w⟩ := e
      simp only [SectorMem.wf, Bool.and_eq_true, decide_eq_true_eq] at hm hn
      simp only [SectorMem.size] at hs h
      have huw : u = w := by
        have := h 0 (by omega)
        rwa [SectorMem.get, SectorMem.get, if_pos (by omega), if_pos (by omega)] at this
      subst huw
      have key : ∀ (a b : Nat) (m n : SectorMem), a < b → SectorMem.wf m = true → m.head?.map Prod.snd ≠ some u →
          a + SectorMem.size m = b + SectorMem.size n →
          SectorMem.get ((a, u) :: m) a = SectorMem.get ((b, u) :: n) a → False := by
        intro a b m n hab hmw hmh hsz hg
        rw [SectorMem.get, SectorMem.get, if_neg (by omega), if_pos hab, Nat.sub_self] at hg
        cases m with
        | nil => simp [SectorMem.size] at hsz; omega
        | cons f m =>
          simp only [SectorMem.wf, Bool.and_eq_true, decide_eq_true_eq] at hmw
          rw [SectorMem.get, if_pos (by omega)] at hg
          simp [hg] at hmh
      have hab : a = b := by
        rcases Nat.lt_trichotomy a b with hlt | heq | hgt
        · exact (key a b m n hlt hm.2 hm.1.2 (by omega) (h a (by omega))).elim
        · exact heq
        · exact (key b a n m hgt hn.2 hn.1.2 (by omega) (h b (by omega)).symm).elim
      subst hab
      have htail : m = n := ih hm.2 hn.2 (by omega) (fun i hi => by
        have := h (a + i) (by omega)
        rwa [SectorMem.get, SectorMem.get, if_neg (by omega), if_neg (by omega), Nat.add_sub_cancel_left] at this)
      rw [htail]

end Sys2Proof.Machine
end

