-- ==== Sys2Proof/Laws/State.lean ====
section
/-! SUPPORT. One lemma per field per named update of State, so that no proof unfolds a record update. -/

namespace Sys2Proof.Machine

/-! ### `setDirty` -/

@[simp] theorem setDirty_cfg (y b : Nat) (v : Bool) (s : State) : (setDirty y b v s).cfg = s.cfg := rfl
@[simp] theorem setDirty_top (y b : Nat) (v : Bool) (s : State) : (setDirty y b v s).top = s.top := rfl
@[simp] theorem setDirty_bot (y b : Nat) (v : Bool) (s : State) : (setDirty y b v s).bot = s.bot := rfl
@[simp] theorem setDirty_pal (y b : Nat) (v : Bool) (s : State) : (setDirty y b v s).pal = s.pal := rfl
@[simp] theorem setDirty_dirty (y b : Nat) (v : Bool) (s : State) : (setDirty y b v s).dirty = s.dirty.set (dirtyIndex s.cfg y b) v := rfl
@[simp] theorem setDirty_parity (y b : Nat) (v : Bool) (s : State) : (setDirty y b v s).parity = s.parity := rfl
@[simp] theorem setDirty_fstate (y b : Nat) (v : Bool) (s : State) : (setDirty y b v s).fstate = s.fstate := rfl
@[simp] theorem setDirty_ilace (y b : Nat) (v : Bool) (s : State) : (setDirty y b v s).ilace = s.ilace := rfl
@[simp] theorem setDirty_fontAddr (y b : Nat) (v : Bool) (s : State) : (setDirty y b v s).fontAddr = s.fontAddr := rfl
@[simp] theorem setDirty_fontW (y b : Nat) (v : Bool) (s : State) : (setDirty y b v s).fontW = s.fontW := rfl
@[simp] theorem setDirty_fontH (y b : Nat) (v : Bool) (s : State) : (setDirty y b v s).fontH = s.fontH := rfl
@[simp] theorem setDirty_fontV (y b : Nat) (v : Bool) (s : State) : (setDirty y b v s).fontV = s.fontV := rfl
@[simp] theorem setDirty_fifo (y b : Nat) (v : Bool) (s : State) : (setDirty y b v s).fifo = s.fifo := rfl
@[simp] theorem setDirty_cur (y b : Nat) (v : Bool) (s : State) : (setDirty y b v s).cur = s.cur := rfl
@[simp] theorem setDirty_res0 (y b : Nat) (v : Bool) (s : State) : (setDirty y b v s).res0 = s.res0 := rfl
@[simp] theorem setDirty_res1 (y b : Nat) (v : Bool) (s : State) : (setDirty y b v s).res1 = s.res1 := rfl
@[simp] theorem setDirty_res2 (y b : Nat) (v : Bool) (s : State) : (setDirty y b v s).res2 = s.res2 := rfl
@[simp] theorem setDirty_fault (y b : Nat) (v : Bool) (s : State) : (setDirty y b v s).fault = s.fault := rfl
@[simp] theorem setDirty_fcause (y b : Nat) (v : Bool) (s : State) : (setDirty y b v s).fcause = s.fcause := rfl
@[simp] theorem setDirty_finfo (y b : Nat) (v : Bool) (s : State) : (setDirty y b v s).finfo = s.finfo := rfl
@[simp] theorem setDirty_hmem (y b : Nat) (v : Bool) (s : State) : (setDirty y b v s).hmem = s.hmem := rfl
@[simp] theorem setDirty_sink (y b : Nat) (v : Bool) (s : State) : (setDirty y b v s).sink = s.sink := rfl
@[simp] theorem setDirty_bus (y b : Nat) (v : Bool) (s : State) : (setDirty y b v s).bus = s.bus := rfl
@[simp] theorem setDirty_resets (y b : Nat) (v : Bool) (s : State) : (setDirty y b v s).resets = s.resets := rfl
@[simp] theorem setDirty_inputs (y b : Nat) (v : Bool) (s : State) : (setDirty y b v s).inputs = s.inputs := rfl
@[simp] theorem setDirty_hostReads (y b : Nat) (v : Bool) (s : State) : (setDirty y b v s).hostReads = s.hostReads := rfl

/-! ### `mark` -/

@[simp] theorem mark_cfg (x y : Int) (s : State) : (mark x y s).cfg = s.cfg := rfl
@[simp] theorem mark_top (x y : Int) (s : State) : (mark x y s).top = s.top := rfl
@[simp] theorem mark_bot (x y : Int) (s : State) : (mark x y s).bot = s.bot := rfl
@[simp] theorem mark_pal (x y : Int) (s : State) : (mark x y s).pal = s.pal := rfl
@[simp] theorem mark_dirty (x y : Int) (s : State) : (mark x y s).dirty = s.dirty.set (dirtyIndex s.cfg y.toNat (bandOf s.cfg x)) true := rfl
@[simp] theorem mark_parity (x y : Int) (s : State) : (mark x y s).parity = s.parity := rfl
@[simp] theorem mark_fstate (x y : Int) (s : State) : (mark x y s).fstate = s.fstate := rfl
@[simp] theorem mark_ilace (x y : Int) (s : State) : (mark x y s).ilace = s.ilace := rfl
@[simp] theorem mark_fontAddr (x y : Int) (s : State) : (mark x y s).fontAddr = s.fontAddr := rfl
@[simp] theorem mark_fontW (x y : Int) (s : State) : (mark x y s).fontW = s.fontW := rfl
@[simp] theorem mark_fontH (x y : Int) (s : State) : (mark x y s).fontH = s.fontH := rfl
@[simp] theorem mark_fontV (x y : Int) (s : State) : (mark x y s).fontV = s.fontV := rfl
@[simp] theorem mark_fifo (x y : Int) (s : State) : (mark x y s).fifo = s.fifo := rfl
@[simp] theorem mark_cur (x y : Int) (s : State) : (mark x y s).cur = s.cur := rfl
@[simp] theorem mark_res0 (x y : Int) (s : State) : (mark x y s).res0 = s.res0 := rfl
@[simp] theorem mark_res1 (x y : Int) (s : State) : (mark x y s).res1 = s.res1 := rfl
@[simp] theorem mark_res2 (x y : Int) (s : State) : (mark x y s).res2 = s.res2 := rfl
@[simp] theorem mark_fault (x y : Int) (s : State) : (mark x y s).fault = s.fault := rfl
@[simp] theorem mark_fcause (x y : Int) (s : State) : (mark x y s).fcause = s.fcause := rfl
@[simp] theorem mark_finfo (x y : Int) (s : State) : (mark x y s).finfo = s.finfo := rfl
@[simp] theorem mark_hmem (x y : Int) (s : State) : (mark x y s).hmem = s.hmem := rfl
@[simp] theorem mark_sink (x y : Int) (s : State) : (mark x y s).sink = s.sink := rfl
@[simp] theorem mark_bus (x y : Int) (s : State) : (mark x y s).bus = s.bus := rfl
@[simp] theorem mark_resets (x y : Int) (s : State) : (mark x y s).resets = s.resets := rfl
@[simp] theorem mark_inputs (x y : Int) (s : State) : (mark x y s).inputs = s.inputs := rfl
@[simp] theorem mark_hostReads (x y : Int) (s : State) : (mark x y s).hostReads = s.hostReads := rfl

/-! ### `setPal` -/

@[simp] theorem setPal_cfg (i : Nat) (v : Word) (s : State) : (setPal i v s).cfg = s.cfg := rfl
@[simp] theorem setPal_top (i : Nat) (v : Word) (s : State) : (setPal i v s).top = s.top := rfl
@[simp] theorem setPal_bot (i : Nat) (v : Word) (s : State) : (setPal i v s).bot = s.bot := rfl
@[simp] theorem setPal_pal (i : Nat) (v : Word) (s : State) : (setPal i v s).pal = s.pal.set i v := rfl
@[simp] theorem setPal_dirty (i : Nat) (v : Word) (s : State) : (setPal i v s).dirty = s.dirty := rfl
@[simp] theorem setPal_parity (i : Nat) (v : Word) (s : State) : (setPal i v s).parity = s.parity := rfl
@[simp] theorem setPal_fstate (i : Nat) (v : Word) (s : State) : (setPal i v s).fstate = s.fstate := rfl
@[simp] theorem setPal_ilace (i : Nat) (v : Word) (s : State) : (setPal i v s).ilace = s.ilace := rfl
@[simp] theorem setPal_fontAddr (i : Nat) (v : Word) (s : State) : (setPal i v s).fontAddr = s.fontAddr := rfl
@[simp] theorem setPal_fontW (i : Nat) (v : Word) (s : State) : (setPal i v s).fontW = s.fontW := rfl
@[simp] theorem setPal_fontH (i : Nat) (v : Word) (s : State) : (setPal i v s).fontH = s.fontH := rfl
@[simp] theorem setPal_fontV (i : Nat) (v : Word) (s : State) : (setPal i v s).fontV = s.fontV := rfl
@[simp] theorem setPal_fifo (i : Nat) (v : Word) (s : State) : (setPal i v s).fifo = s.fifo := rfl
@[simp] theorem setPal_cur (i : Nat) (v : Word) (s : State) : (setPal i v s).cur = s.cur := rfl
@[simp] theorem setPal_res0 (i : Nat) (v : Word) (s : State) : (setPal i v s).res0 = s.res0 := rfl
@[simp] theorem setPal_res1 (i : Nat) (v : Word) (s : State) : (setPal i v s).res1 = s.res1 := rfl
@[simp] theorem setPal_res2 (i : Nat) (v : Word) (s : State) : (setPal i v s).res2 = s.res2 := rfl
@[simp] theorem setPal_fault (i : Nat) (v : Word) (s : State) : (setPal i v s).fault = s.fault := rfl
@[simp] theorem setPal_fcause (i : Nat) (v : Word) (s : State) : (setPal i v s).fcause = s.fcause := rfl
@[simp] theorem setPal_finfo (i : Nat) (v : Word) (s : State) : (setPal i v s).finfo = s.finfo := rfl
@[simp] theorem setPal_hmem (i : Nat) (v : Word) (s : State) : (setPal i v s).hmem = s.hmem := rfl
@[simp] theorem setPal_sink (i : Nat) (v : Word) (s : State) : (setPal i v s).sink = s.sink := rfl
@[simp] theorem setPal_bus (i : Nat) (v : Word) (s : State) : (setPal i v s).bus = s.bus := rfl
@[simp] theorem setPal_resets (i : Nat) (v : Word) (s : State) : (setPal i v s).resets = s.resets := rfl
@[simp] theorem setPal_inputs (i : Nat) (v : Word) (s : State) : (setPal i v s).inputs = s.inputs := rfl
@[simp] theorem setPal_hostReads (i : Nat) (v : Word) (s : State) : (setPal i v s).hostReads = s.hostReads := rfl

/-! ### `storeByte` -/

@[simp] theorem storeByte_cfg (a : Nat) (v : Byte) (s : State) : (storeByte a v s).cfg = s.cfg := rfl
@[simp] theorem storeByte_top (a : Nat) (v : Byte) (s : State) : (storeByte a v s).top = s.top := rfl
@[simp] theorem storeByte_bot (a : Nat) (v : Byte) (s : State) : (storeByte a v s).bot = s.bot := rfl
@[simp] theorem storeByte_pal (a : Nat) (v : Byte) (s : State) : (storeByte a v s).pal = s.pal := rfl
@[simp] theorem storeByte_dirty (a : Nat) (v : Byte) (s : State) : (storeByte a v s).dirty = s.dirty := rfl
@[simp] theorem storeByte_parity (a : Nat) (v : Byte) (s : State) : (storeByte a v s).parity = s.parity := rfl
@[simp] theorem storeByte_fstate (a : Nat) (v : Byte) (s : State) : (storeByte a v s).fstate = s.fstate := rfl
@[simp] theorem storeByte_ilace (a : Nat) (v : Byte) (s : State) : (storeByte a v s).ilace = s.ilace := rfl
@[simp] theorem storeByte_fontAddr (a : Nat) (v : Byte) (s : State) : (storeByte a v s).fontAddr = s.fontAddr := rfl
@[simp] theorem storeByte_fontW (a : Nat) (v : Byte) (s : State) : (storeByte a v s).fontW = s.fontW := rfl
@[simp] theorem storeByte_fontH (a : Nat) (v : Byte) (s : State) : (storeByte a v s).fontH = s.fontH := rfl
@[simp] theorem storeByte_fontV (a : Nat) (v : Byte) (s : State) : (storeByte a v s).fontV = s.fontV := rfl
@[simp] theorem storeByte_fifo (a : Nat) (v : Byte) (s : State) : (storeByte a v s).fifo = s.fifo := rfl
@[simp] theorem storeByte_cur (a : Nat) (v : Byte) (s : State) : (storeByte a v s).cur = s.cur := rfl
@[simp] theorem storeByte_res0 (a : Nat) (v : Byte) (s : State) : (storeByte a v s).res0 = s.res0 := rfl
@[simp] theorem storeByte_res1 (a : Nat) (v : Byte) (s : State) : (storeByte a v s).res1 = s.res1 := rfl
@[simp] theorem storeByte_res2 (a : Nat) (v : Byte) (s : State) : (storeByte a v s).res2 = s.res2 := rfl
@[simp] theorem storeByte_fault (a : Nat) (v : Byte) (s : State) : (storeByte a v s).fault = s.fault := rfl
@[simp] theorem storeByte_fcause (a : Nat) (v : Byte) (s : State) : (storeByte a v s).fcause = s.fcause := rfl
@[simp] theorem storeByte_finfo (a : Nat) (v : Byte) (s : State) : (storeByte a v s).finfo = s.finfo := rfl
@[simp] theorem storeByte_hmem (a : Nat) (v : Byte) (s : State) : (storeByte a v s).hmem = Memory.write s.hmem a v := rfl
@[simp] theorem storeByte_sink (a : Nat) (v : Byte) (s : State) : (storeByte a v s).sink = s.sink := rfl
@[simp] theorem storeByte_bus (a : Nat) (v : Byte) (s : State) : (storeByte a v s).bus = s.bus ++ [(a, v)] := rfl
@[simp] theorem storeByte_resets (a : Nat) (v : Byte) (s : State) : (storeByte a v s).resets = s.resets := rfl
@[simp] theorem storeByte_inputs (a : Nat) (v : Byte) (s : State) : (storeByte a v s).inputs = s.inputs := rfl
@[simp] theorem storeByte_hostReads (a : Nat) (v : Byte) (s : State) : (storeByte a v s).hostReads = s.hostReads := rfl

/-! ### `withSector` -/

@[simp] theorem withSector_cfg (d : Sector) (m : SectorMem) (s : State) : (withSector d m s).cfg = s.cfg := by cases d <;> rfl
@[simp] theorem withSector_pal (d : Sector) (m : SectorMem) (s : State) : (withSector d m s).pal = s.pal := by cases d <;> rfl
@[simp] theorem withSector_dirty (d : Sector) (m : SectorMem) (s : State) : (withSector d m s).dirty = s.dirty := by cases d <;> rfl
@[simp] theorem withSector_parity (d : Sector) (m : SectorMem) (s : State) : (withSector d m s).parity = s.parity := by cases d <;> rfl
@[simp] theorem withSector_fstate (d : Sector) (m : SectorMem) (s : State) : (withSector d m s).fstate = s.fstate := by cases d <;> rfl
@[simp] theorem withSector_ilace (d : Sector) (m : SectorMem) (s : State) : (withSector d m s).ilace = s.ilace := by cases d <;> rfl
@[simp] theorem withSector_fontAddr (d : Sector) (m : SectorMem) (s : State) : (withSector d m s).fontAddr = s.fontAddr := by cases d <;> rfl
@[simp] theorem withSector_fontW (d : Sector) (m : SectorMem) (s : State) : (withSector d m s).fontW = s.fontW := by cases d <;> rfl
@[simp] theorem withSector_fontH (d : Sector) (m : SectorMem) (s : State) : (withSector d m s).fontH = s.fontH := by cases d <;> rfl
@[simp] theorem withSector_fontV (d : Sector) (m : SectorMem) (s : State) : (withSector d m s).fontV = s.fontV := by cases d <;> rfl
@[simp] theorem withSector_fifo (d : Sector) (m : SectorMem) (s : State) : (withSector d m s).fifo = s.fifo := by cases d <;> rfl
@[simp] theorem withSector_cur (d : Sector) (m : SectorMem) (s : State) : (withSector d m s).cur = s.cur := by cases d <;> rfl
@[simp] theorem withSector_res0 (d : Sector) (m : SectorMem) (s : State) : (withSector d m s).res0 = s.res0 := by cases d <;> rfl
@[simp] theorem withSector_res1 (d : Sector) (m : SectorMem) (s : State) : (withSector d m s).res1 = s.res1 := by cases d <;> rfl
@[simp] theorem withSector_res2 (d : Sector) (m : SectorMem) (s : State) : (withSector d m s).res2 = s.res2 := by cases d <;> rfl
@[simp] theorem withSector_fault (d : Sector) (m : SectorMem) (s : State) : (withSector d m s).fault = s.fault := by cases d <;> rfl
@[simp] theorem withSector_fcause (d : Sector) (m : SectorMem) (s : State) : (withSector d m s).fcause = s.fcause := by cases d <;> rfl
@[simp] theorem withSector_finfo (d : Sector) (m : SectorMem) (s : State) : (withSector d m s).finfo = s.finfo := by cases d <;> rfl
@[simp] theorem withSector_hmem (d : Sector) (m : SectorMem) (s : State) : (withSector d m s).hmem = s.hmem := by cases d <;> rfl
@[simp] theorem withSector_sink (d : Sector) (m : SectorMem) (s : State) : (withSector d m s).sink = s.sink := by cases d <;> rfl
@[simp] theorem withSector_bus (d : Sector) (m : SectorMem) (s : State) : (withSector d m s).bus = s.bus := by cases d <;> rfl
@[simp] theorem withSector_resets (d : Sector) (m : SectorMem) (s : State) : (withSector d m s).resets = s.resets := by cases d <;> rfl
@[simp] theorem withSector_inputs (d : Sector) (m : SectorMem) (s : State) : (withSector d m s).inputs = s.inputs := by cases d <;> rfl
@[simp] theorem withSector_hostReads (d : Sector) (m : SectorMem) (s : State) : (withSector d m s).hostReads = s.hostReads := by cases d <;> rfl

/-! ### `startCommand` -/

@[simp] theorem startCommand_cfg (i : Instr) (rest : List Word) (s : State) : (startCommand i rest s).cfg = s.cfg := rfl
@[simp] theorem startCommand_top (i : Instr) (rest : List Word) (s : State) : (startCommand i rest s).top = s.top := rfl
@[simp] theorem startCommand_bot (i : Instr) (rest : List Word) (s : State) : (startCommand i rest s).bot = s.bot := rfl
@[simp] theorem startCommand_pal (i : Instr) (rest : List Word) (s : State) : (startCommand i rest s).pal = s.pal := rfl
@[simp] theorem startCommand_dirty (i : Instr) (rest : List Word) (s : State) : (startCommand i rest s).dirty = s.dirty := rfl
@[simp] theorem startCommand_parity (i : Instr) (rest : List Word) (s : State) : (startCommand i rest s).parity = s.parity := rfl
@[simp] theorem startCommand_fstate (i : Instr) (rest : List Word) (s : State) : (startCommand i rest s).fstate = s.fstate := rfl
@[simp] theorem startCommand_ilace (i : Instr) (rest : List Word) (s : State) : (startCommand i rest s).ilace = s.ilace := rfl
@[simp] theorem startCommand_fontAddr (i : Instr) (rest : List Word) (s : State) : (startCommand i rest s).fontAddr = s.fontAddr := rfl
@[simp] theorem startCommand_fontW (i : Instr) (rest : List Word) (s : State) : (startCommand i rest s).fontW = s.fontW := rfl
@[simp] theorem startCommand_fontH (i : Instr) (rest : List Word) (s : State) : (startCommand i rest s).fontH = s.fontH := rfl
@[simp] theorem startCommand_fontV (i : Instr) (rest : List Word) (s : State) : (startCommand i rest s).fontV = s.fontV := rfl
@[simp] theorem startCommand_fifo (i : Instr) (rest : List Word) (s : State) : (startCommand i rest s).fifo = rest := rfl
@[simp] theorem startCommand_cur (i : Instr) (rest : List Word) (s : State) : (startCommand i rest s).cur = some i := rfl
@[simp] theorem startCommand_res0 (i : Instr) (rest : List Word) (s : State) : (startCommand i rest s).res0 = s.res0 := rfl
@[simp] theorem startCommand_res1 (i : Instr) (rest : List Word) (s : State) : (startCommand i rest s).res1 = s.res1 := rfl
@[simp] theorem startCommand_res2 (i : Instr) (rest : List Word) (s : State) : (startCommand i rest s).res2 = s.res2 := rfl
@[simp] theorem startCommand_fault (i : Instr) (rest : List Word) (s : State) : (startCommand i rest s).fault = s.fault := rfl
@[simp] theorem startCommand_fcause (i : Instr) (rest : List Word) (s : State) : (startCommand i rest s).fcause = s.fcause := rfl
@[simp] theorem startCommand_finfo (i : Instr) (rest : List Word) (s : State) : (startCommand i rest s).finfo = s.finfo := rfl
@[simp] theorem startCommand_hmem (i : Instr) (rest : List Word) (s : State) : (startCommand i rest s).hmem = s.hmem := rfl
@[simp] theorem startCommand_sink (i : Instr) (rest : List Word) (s : State) : (startCommand i rest s).sink = s.sink := rfl
@[simp] theorem startCommand_bus (i : Instr) (rest : List Word) (s : State) : (startCommand i rest s).bus = s.bus := rfl
@[simp] theorem startCommand_resets (i : Instr) (rest : List Word) (s : State) : (startCommand i rest s).resets = s.resets := rfl
@[simp] theorem startCommand_inputs (i : Instr) (rest : List Word) (s : State) : (startCommand i rest s).inputs = s.inputs := rfl
@[simp] theorem startCommand_hostReads (i : Instr) (rest : List Word) (s : State) : (startCommand i rest s).hostReads = s.hostReads := rfl

/-! ### `raiseFault` -/

@[simp] theorem raiseFault_cfg (e : Bool) (c : Cause) (n : Int) (s : State) : (raiseFault e c n s).cfg = s.cfg := rfl
@[simp] theorem raiseFault_top (e : Bool) (c : Cause) (n : Int) (s : State) : (raiseFault e c n s).top = s.top := rfl
@[simp] theorem raiseFault_bot (e : Bool) (c : Cause) (n : Int) (s : State) : (raiseFault e c n s).bot = s.bot := rfl
@[simp] theorem raiseFault_pal (e : Bool) (c : Cause) (n : Int) (s : State) : (raiseFault e c n s).pal = s.pal := rfl
@[simp] theorem raiseFault_dirty (e : Bool) (c : Cause) (n : Int) (s : State) : (raiseFault e c n s).dirty = s.dirty := rfl
@[simp] theorem raiseFault_parity (e : Bool) (c : Cause) (n : Int) (s : State) : (raiseFault e c n s).parity = s.parity := rfl
@[simp] theorem raiseFault_fstate (e : Bool) (c : Cause) (n : Int) (s : State) : (raiseFault e c n s).fstate = if e then .idle else s.fstate := rfl
@[simp] theorem raiseFault_ilace (e : Bool) (c : Cause) (n : Int) (s : State) : (raiseFault e c n s).ilace = s.ilace := rfl
@[simp] theorem raiseFault_fontAddr (e : Bool) (c : Cause) (n : Int) (s : State) : (raiseFault e c n s).fontAddr = s.fontAddr := rfl
@[simp] theorem raiseFault_fontW (e : Bool) (c : Cause) (n : Int) (s : State) : (raiseFault e c n s).fontW = s.fontW := rfl
@[simp] theorem raiseFault_fontH (e : Bool) (c : Cause) (n : Int) (s : State) : (raiseFault e c n s).fontH = s.fontH := rfl
@[simp] theorem raiseFault_fontV (e : Bool) (c : Cause) (n : Int) (s : State) : (raiseFault e c n s).fontV = s.fontV := rfl
@[simp] theorem raiseFault_fifo (e : Bool) (c : Cause) (n : Int) (s : State) : (raiseFault e c n s).fifo = [] := rfl
@[simp] theorem raiseFault_cur (e : Bool) (c : Cause) (n : Int) (s : State) : (raiseFault e c n s).cur = if e then none else s.cur := rfl
@[simp] theorem raiseFault_res0 (e : Bool) (c : Cause) (n : Int) (s : State) : (raiseFault e c n s).res0 = s.res0 := rfl
@[simp] theorem raiseFault_res1 (e : Bool) (c : Cause) (n : Int) (s : State) : (raiseFault e c n s).res1 = s.res1 := rfl
@[simp] theorem raiseFault_res2 (e : Bool) (c : Cause) (n : Int) (s : State) : (raiseFault e c n s).res2 = s.res2 := rfl
@[simp] theorem raiseFault_fault (e : Bool) (c : Cause) (n : Int) (s : State) : (raiseFault e c n s).fault = true := rfl
@[simp] theorem raiseFault_fcause (e : Bool) (c : Cause) (n : Int) (s : State) : (raiseFault e c n s).fcause = if s.fault then s.fcause else causeCode c := rfl
@[simp] theorem raiseFault_finfo (e : Bool) (c : Cause) (n : Int) (s : State) : (raiseFault e c n s).finfo = if s.fault then s.finfo else BitVec.ofInt 32 n := rfl
@[simp] theorem raiseFault_hmem (e : Bool) (c : Cause) (n : Int) (s : State) : (raiseFault e c n s).hmem = s.hmem := rfl
@[simp] theorem raiseFault_sink (e : Bool) (c : Cause) (n : Int) (s : State) : (raiseFault e c n s).sink = s.sink := rfl
@[simp] theorem raiseFault_bus (e : Bool) (c : Cause) (n : Int) (s : State) : (raiseFault e c n s).bus = s.bus := rfl
@[simp] theorem raiseFault_resets (e : Bool) (c : Cause) (n : Int) (s : State) : (raiseFault e c n s).resets = s.resets := rfl
@[simp] theorem raiseFault_inputs (e : Bool) (c : Cause) (n : Int) (s : State) : (raiseFault e c n s).inputs = s.inputs := rfl
@[simp] theorem raiseFault_hostReads (e : Bool) (c : Cause) (n : Int) (s : State) : (raiseFault e c n s).hostReads = s.hostReads := rfl

/-! ### `resetEngine` -/

@[simp] theorem resetEngine_cfg (s : State) : (resetEngine s).cfg = s.cfg := rfl
@[simp] theorem resetEngine_top (s : State) : (resetEngine s).top = blankSector (topSize s.cfg) := rfl
@[simp] theorem resetEngine_bot (s : State) : (resetEngine s).bot = blankSector (botSize s.cfg) := rfl
@[simp] theorem resetEngine_pal (s : State) : (resetEngine s).pal = defaultPalette s.cfg := rfl
@[simp] theorem resetEngine_dirty (s : State) : (resetEngine s).dirty = allDirty s.cfg := rfl
@[simp] theorem resetEngine_parity (s : State) : (resetEngine s).parity = false := rfl
@[simp] theorem resetEngine_fstate (s : State) : (resetEngine s).fstate = .idle := rfl
@[simp] theorem resetEngine_ilace (s : State) : (resetEngine s).ilace = false := rfl
@[simp] theorem resetEngine_fontAddr (s : State) : (resetEngine s).fontAddr = 0 := rfl
@[simp] theorem resetEngine_fontW (s : State) : (resetEngine s).fontW = 0 := rfl
@[simp] theorem resetEngine_fontH (s : State) : (resetEngine s).fontH = 0 := rfl
@[simp] theorem resetEngine_fontV (s : State) : (resetEngine s).fontV = false := rfl
@[simp] theorem resetEngine_fifo (s : State) : (resetEngine s).fifo = [] := rfl
@[simp] theorem resetEngine_cur (s : State) : (resetEngine s).cur = none := rfl
@[simp] theorem resetEngine_res0 (s : State) : (resetEngine s).res0 = 0 := rfl
@[simp] theorem resetEngine_res1 (s : State) : (resetEngine s).res1 = 0 := rfl
@[simp] theorem resetEngine_res2 (s : State) : (resetEngine s).res2 = 0 := rfl
@[simp] theorem resetEngine_fault (s : State) : (resetEngine s).fault = false := rfl
@[simp] theorem resetEngine_fcause (s : State) : (resetEngine s).fcause = 0 := rfl
@[simp] theorem resetEngine_finfo (s : State) : (resetEngine s).finfo = 0 := rfl
@[simp] theorem resetEngine_hmem (s : State) : (resetEngine s).hmem = s.hmem := rfl
@[simp] theorem resetEngine_sink (s : State) : (resetEngine s).sink = s.sink := rfl
@[simp] theorem resetEngine_bus (s : State) : (resetEngine s).bus = s.bus := rfl
@[simp] theorem resetEngine_resets (s : State) : (resetEngine s).resets = s.resets + 1 := rfl
@[simp] theorem resetEngine_inputs (s : State) : (resetEngine s).inputs = s.inputs := rfl
@[simp] theorem resetEngine_hostReads (s : State) : (resetEngine s).hostReads = s.hostReads := rfl

/-! ### `updateParity` -/

@[simp] theorem updateParity_cfg (i : Bool) (s : State) : (updateParity i s).cfg = s.cfg := by unfold updateParity; split <;> rfl
@[simp] theorem updateParity_top (i : Bool) (s : State) : (updateParity i s).top = s.top := by unfold updateParity; split <;> rfl
@[simp] theorem updateParity_bot (i : Bool) (s : State) : (updateParity i s).bot = s.bot := by unfold updateParity; split <;> rfl
@[simp] theorem updateParity_pal (i : Bool) (s : State) : (updateParity i s).pal = s.pal := by unfold updateParity; split <;> rfl
@[simp] theorem updateParity_dirty (i : Bool) (s : State) : (updateParity i s).dirty = s.dirty := by unfold updateParity; split <;> rfl
@[simp] theorem updateParity_fstate (i : Bool) (s : State) : (updateParity i s).fstate = s.fstate := by unfold updateParity; split <;> rfl
@[simp] theorem updateParity_ilace (i : Bool) (s : State) : (updateParity i s).ilace = s.ilace := by unfold updateParity; split <;> rfl
@[simp] theorem updateParity_fontAddr (i : Bool) (s : State) : (updateParity i s).fontAddr = s.fontAddr := by unfold updateParity; split <;> rfl
@[simp] theorem updateParity_fontW (i : Bool) (s : State) : (updateParity i s).fontW = s.fontW := by unfold updateParity; split <;> rfl
@[simp] theorem updateParity_fontH (i : Bool) (s : State) : (updateParity i s).fontH = s.fontH := by unfold updateParity; split <;> rfl
@[simp] theorem updateParity_fontV (i : Bool) (s : State) : (updateParity i s).fontV = s.fontV := by unfold updateParity; split <;> rfl
@[simp] theorem updateParity_fifo (i : Bool) (s : State) : (updateParity i s).fifo = s.fifo := by unfold updateParity; split <;> rfl
@[simp] theorem updateParity_cur (i : Bool) (s : State) : (updateParity i s).cur = s.cur := by unfold updateParity; split <;> rfl
@[simp] theorem updateParity_res0 (i : Bool) (s : State) : (updateParity i s).res0 = s.res0 := by unfold updateParity; split <;> rfl
@[simp] theorem updateParity_res1 (i : Bool) (s : State) : (updateParity i s).res1 = s.res1 := by unfold updateParity; split <;> rfl
@[simp] theorem updateParity_res2 (i : Bool) (s : State) : (updateParity i s).res2 = s.res2 := by unfold updateParity; split <;> rfl
@[simp] theorem updateParity_fault (i : Bool) (s : State) : (updateParity i s).fault = s.fault := by unfold updateParity; split <;> rfl
@[simp] theorem updateParity_fcause (i : Bool) (s : State) : (updateParity i s).fcause = s.fcause := by unfold updateParity; split <;> rfl
@[simp] theorem updateParity_finfo (i : Bool) (s : State) : (updateParity i s).finfo = s.finfo := by unfold updateParity; split <;> rfl
@[simp] theorem updateParity_hmem (i : Bool) (s : State) : (updateParity i s).hmem = s.hmem := by unfold updateParity; split <;> rfl
@[simp] theorem updateParity_sink (i : Bool) (s : State) : (updateParity i s).sink = s.sink := by unfold updateParity; split <;> rfl
@[simp] theorem updateParity_bus (i : Bool) (s : State) : (updateParity i s).bus = s.bus := by unfold updateParity; split <;> rfl
@[simp] theorem updateParity_resets (i : Bool) (s : State) : (updateParity i s).resets = s.resets := by unfold updateParity; split <;> rfl
@[simp] theorem updateParity_inputs (i : Bool) (s : State) : (updateParity i s).inputs = s.inputs := by unfold updateParity; split <;> rfl
@[simp] theorem updateParity_hostReads (i : Bool) (s : State) : (updateParity i s).hostReads = s.hostReads := by unfold updateParity; split <;> rfl

end Sys2Proof.Machine
end

