-- ==== Sys2Proof/Laws/Canvas.lean ====
section
/-! SUPPORT. The canvas: the translation, a read after a write, what `setPixel` and `setPixels` do. -/

namespace Sys2Proof.Machine

/-! ## Integers -/

theorem rowMajor_inj {w x y x' y' : Int} (hx : 0 ≤ x) (hxw : x < w) (hx' : 0 ≤ x') (hxw' : x' < w)
    (h : y * w + x = y' * w + x') : x = x' ∧ y = y' := by
  have hw : w ≠ 0 := by omega
  have e1 : (y * w + x) / w = y := by
    rw [add_comm, Int.add_mul_ediv_right _ _ hw, Int.ediv_eq_zero_of_lt hx hxw, zero_add]
  have e2 : (y' * w + x') / w = y' := by
    rw [add_comm, Int.add_mul_ediv_right _ _ hw, Int.ediv_eq_zero_of_lt hx' hxw', zero_add]
  have hy : y = y' := by rw [← e1, ← e2, h]
  subst hy
  exact ⟨by omega, rfl⟩

theorem rowMajor_lt {w x y n : Int} (hxw : x < w) (hy : y < n) (hw : 0 ≤ w) : y * w + x < n * w := by
  nlinarith [mul_le_mul_of_nonneg_right (show y + 1 ≤ n by omega) hw]

/-! ## Translation -/

/-- The size of a sector (R21). -/
def sectorSize (p : Config) : Sector → Nat
  | .top => topSize p
  | .bot => botSize p

theorem translate_of_inCanvas {p : Config} {x y : Int} (h : InCanvas p x y) :
    translate p x y =
      some (if y < p.k then (Sector.top, (y * p.w + x).toNat) else (Sector.bot, ((y - p.k) * p.w + x).toNat)) := by
  unfold translate
  rw [if_pos h]
  split <;> rfl

theorem translate_of_not_inCanvas {p : Config} {x y : Int} (h : ¬ InCanvas p x y) : translate p x y = none :=
  if_neg h

theorem translate_isSome_iff (p : Config) (x y : Int) : (translate p x y).isSome = true ↔ InCanvas p x y := by
  by_cases h : InCanvas p x y
  · simp only [translate_of_inCanvas h, Option.isSome_some, true_iff]; exact h
  · rw [translate_of_not_inCanvas h]; simp only [Option.isSome_none, Bool.false_eq_true, false_iff]; exact h

/-- The offset of a pixel lies in its sector. -/
theorem translate_lt {p : Config} {x y : Int} {d : Sector} {off : Nat} (hk : p.k < p.h)
    (h : translate p x y = some (d, off)) : off < sectorSize p d := by
  by_cases hc : InCanvas p x y
  · rw [translate_of_inCanvas hc] at h
    obtain ⟨hx, hxw, hy, hyh⟩ := hc
    split at h
    · next hyk =>
      simp only [Option.some.injEq, Prod.mk.injEq] at h
      obtain ⟨rfl, rfl⟩ := h
      have h1 := rowMajor_lt (w := p.w) hxw hyk (by omega)
      have h2 : 0 ≤ y * p.w + x := by positivity
      simp only [sectorSize, topSize]
      zify
      rw [Int.toNat_of_nonneg h2]
      exact_mod_cast h1
    · next hyk =>
      simp only [Option.some.injEq, Prod.mk.injEq] at h
      obtain ⟨rfl, rfl⟩ := h
      have h1 := rowMajor_lt (w := p.w) (n := p.h - p.k) (y := y - p.k) hxw (by omega) (by omega)
      have h3 : 0 ≤ y - p.k := by omega
      have h2 : 0 ≤ (y - p.k) * p.w + x := by positivity
      simp only [sectorSize, botSize]
      zify [hk.le]
      rw [Int.toNat_of_nonneg h2]
      exact h1
  · rw [translate_of_not_inCanvas hc] at h
    exact absurd h (by simp)

/-- Two pixels of the canvas with the same sector and offset are the same pixel. -/
theorem translate_inj {p : Config} {x y x' y' : Int} {q : Sector × Nat} (h : translate p x y = some q)
    (h' : translate p x' y' = some q) : x = x' ∧ y = y' := by
  have hc : InCanvas p x y := (translate_isSome_iff p x y).1 (by rw [h]; rfl)
  have hc' : InCanvas p x' y' := (translate_isSome_iff p x' y').1 (by rw [h']; rfl)
  rw [translate_of_inCanvas hc] at h
  rw [translate_of_inCanvas hc'] at h'
  rw [← h'] at h
  obtain ⟨hx, hxw, hy, hyh⟩ := hc
  obtain ⟨hx', hxw', hy', hyh'⟩ := hc'
  have hw : (0 : Int) ≤ p.w := by omega
  split at h <;> split at h <;> simp only [Option.some.injEq, Prod.mk.injEq, reduceCtorEq, false_and, true_and] at h
  · have h1 : 0 ≤ y * p.w + x := by positivity
    have h2 : 0 ≤ y' * p.w + x' := by positivity
    exact rowMajor_inj hx hxw hx' hxw' (by omega)
  · have h3 : 0 ≤ y - p.k := by omega
    have h4 : 0 ≤ y' - p.k := by omega
    have h1 : 0 ≤ (y - p.k) * p.w + x := by positivity
    have h2 : 0 ≤ (y' - p.k) * p.w + x' := by positivity
    have := rowMajor_inj (y := y - p.k) (y' := y' - p.k) (w := p.w) hx hxw hx' hxw' (by omega)
    omega

/-! ## Reading and writing pixels -/

/-- What drawing needs of a state: sectors of the right sizes, a dirty map of the right size, legal parameters. -/
def Drawable (s : State) : Prop :=
  ConfigWf s.cfg ∧ CanvasWf s ∧ s.dirty.length = s.cfg.h * bandCount s.cfg

theorem State.Sound.drawable {s : State} (h : s.Sound) : Drawable s :=
  ⟨h.1, h.2.1, h.2.2.2.1⟩

theorem canvasRead_of_translate {s : State} {x y : Int} {d : Sector} {off : Nat}
    (h : translate s.cfg x y = some (d, off)) : canvasRead x y s = some (sectorByte d off s) := by
  unfold canvasRead
  rw [h]

theorem canvasRead_of_not_inCanvas {s : State} {x y : Int} (h : ¬ InCanvas s.cfg x y) : canvasRead x y s = none := by
  unfold canvasRead
  rw [translate_of_not_inCanvas h]

theorem canvasRead_isSome {s : State} {x y : Int} (h : InCanvas s.cfg x y) : ∃ v, canvasRead x y s = some v := by
  rw [canvasRead, translate_of_inCanvas h]
  exact ⟨_, rfl⟩

theorem sectorByte_withSector (d e : Sector) (m : SectorMem) (off : Nat) (s : State) :
    sectorByte e off (withSector d m s) =
      if d = e then (SectorMem.get m off).getD (Config.freeCanvasByte s.resets (e == .bot) off)
      else sectorByte e off s := by
  cases d <;> cases e <;> rfl

theorem sectorSize_eq {s : State} (h : CanvasWf s) (d : Sector) :
    SectorMem.size (sectorOf d s) = sectorSize s.cfg d := by
  cases d
  · exact h.2.1
  · exact h.2.2.2

/-- Outside the dirty map and the canvas, `withSector` of a legal content keeps a state drawable. -/
theorem canvasWf_withSector {s : State} (h : CanvasWf s) (d : Sector) (off : Nat) (v : Byte) :
    CanvasWf (withSector d (SectorMem.set (sectorOf d s) off v) s) := by
  cases d <;>
    simp only [CanvasWf, withSector, sectorOf, SectorMem.size_set] at * <;>
    refine ⟨?_, ?_, ?_, ?_⟩ <;> first | exact SectorMem.wf_set _ _ _ h.1 | exact SectorMem.wf_set _ _ _ h.2.2.1 | tauto

/-- A pixel write, then any pixel read (R121): the written pixel reads the value, every other one what it did. -/
theorem canvasRead_canvasWrite {s t : State} {x y : Int} {v : Byte} (hs : Drawable s)
    (h : canvasWrite x y v s = some t) (x' y' : Int) :
    canvasRead x' y' t = if x' = x ∧ y' = y then some v else canvasRead x' y' s := by
  unfold canvasWrite at h
  split at h
  · next d off htr =>
    simp only [Option.some.injEq] at h
    subst h
    have hoff : off < SectorMem.size (sectorOf d s) := by
      rw [sectorSize_eq hs.2.1]; exact translate_lt hs.1.2.2.2.2.2.1 htr
    by_cases hc : InCanvas s.cfg x' y'
    · obtain ⟨⟨e, off'⟩, htr'⟩ := Option.isSome_iff_exists.1 ((translate_isSome_iff s.cfg x' y').2 hc)
      rw [canvasRead_of_translate (s := s) htr',
        canvasRead_of_translate (s := withSector d _ s) (d := e) (off := off') (by simpa using htr'),
        sectorByte_withSector]
      split
      · next hde =>
        subst hde
        rw [SectorMem.get_set _ _ _ _ hoff]
        by_cases hj : off' = off
        · subst hj
          obtain ⟨rfl, rfl⟩ := translate_inj htr htr'
          simp
        · rw [if_neg hj, if_neg]
          · cases d <;> rfl
          · rintro ⟨rfl, rfl⟩
            rw [htr] at htr'
            simp only [Option.some.injEq, Prod.mk.injEq] at htr'
            exact hj htr'.2.symm
      · next hde =>
        rw [if_neg]
        rintro ⟨rfl, rfl⟩
        rw [htr] at htr'
        simp only [Option.some.injEq, Prod.mk.injEq] at htr'
        exact hde htr'.1
    · have hc' : ¬ InCanvas (withSector d (SectorMem.set (sectorOf d s) off v) s).cfg x' y' := by simpa using hc
      rw [canvasRead_of_not_inCanvas hc, canvasRead_of_not_inCanvas hc', if_neg]
      rintro ⟨rfl, rfl⟩
      exact hc ((translate_isSome_iff s.cfg x' y').1 (by rw [htr]; rfl))
  · exact absurd h (by simp)

theorem bandOf_lt {p : Config} {x : Int} (hb : 1 ≤ p.bandW) (hx : 0 ≤ x) (hxw : x < p.w) : bandOf p x < bandCount p := by
  have hxn : x.toNat < p.w := by omega
  unfold bandOf bandCount
  rw [Nat.div_lt_iff_lt_mul (by omega)]
  have := Nat.lt_mul_div_succ (p.w + p.bandW - 1) (show 0 < p.bandW by omega)
  have h2 : p.bandW * ((p.w + p.bandW - 1) / p.bandW + 1)
      = (p.w + p.bandW - 1) / p.bandW * p.bandW + p.bandW := by ring
  omega

theorem dirtyIndex_lt {p : Config} {y b : Nat} (hy : y < p.h) (hb : b < bandCount p) :
    dirtyIndex p y b < p.h * bandCount p := by
  unfold dirtyIndex
  nlinarith [Nat.mul_le_mul_right (bandCount p) (show y + 1 ≤ p.h by omega)]

theorem dirtyIndex_inj {p : Config} {y b y' b' : Nat} (hb : b < bandCount p) (hb' : b' < bandCount p)
    (h : dirtyIndex p y b = dirtyIndex p y' b') : y = y' ∧ b = b' := by
  unfold dirtyIndex at h
  have := rowMajor_inj (w := bandCount p) (x := b) (y := y) (x' := b') (y' := y') (by omega) (by omega) (by omega)
    (by omega) (by exact_mod_cast h)
  omega

/-- A flag after a flag is set or cleared. -/
theorem dirtyFlag_setDirty {s : State} {y b y' b' : Nat} {v : Bool}
    (hd : s.dirty.length = s.cfg.h * bandCount s.cfg) (hy : y < s.cfg.h) (hb : b < bandCount s.cfg)
    (hb' : b' < bandCount s.cfg) :
    dirtyFlag y' b' (setDirty y b v s) = if y' = y ∧ b' = b then v else dirtyFlag y' b' s := by
  have hlt : dirtyIndex s.cfg y b < s.dirty.length := by rw [hd]; exact dirtyIndex_lt hy hb
  unfold dirtyFlag
  simp only [setDirty_cfg, setDirty_dirty, List.getD_eq_getElem?_getD, List.getElem?_set]
  by_cases h : y' = y ∧ b' = b
  · obtain ⟨rfl, rfl⟩ := h
    simp [hlt]
  · rw [if_neg h, if_neg]
    intro he
    have := dirtyIndex_inj hb hb' he
    exact h ⟨this.1.symm, this.2.symm⟩

/-- Everything `SetPixel` does in range (R115). -/
theorem setPixel_spec {s : State} {x y : Int} (c : Byte) (hs : Drawable s) (hc : InCanvas s.cfg x y) :
    ∃ t, setPixel x y c s = .ok t ∧ Drawable t ∧ Draws (fun x' y' v => x' = x ∧ y' = y ∧ v = c) s t := by
  obtain ⟨⟨d, off⟩, htr⟩ := Option.isSome_iff_exists.1 ((translate_isSome_iff s.cfg x y).2 hc)
  have hm : Drawable (mark x y s) := ⟨hs.1, hs.2.1, by simpa using hs.2.2⟩
  refine ⟨withSector d (SectorMem.set (sectorOf d (mark x y s)) off c) (mark x y s), ?_, ?_, ?_⟩
  · unfold setPixel canvasWrite
    rw [mark_cfg, htr]
  · exact ⟨by simpa using hs.1, canvasWf_withSector hm.2.1 d off c, by simpa using hs.2.2⟩
  · have hw : canvasWrite x y c (mark x y s)
        = some (withSector d (SectorMem.set (sectorOf d (mark x y s)) off c) (mark x y s)) := by
      unfold canvasWrite
      rw [mark_cfg, htr]
    have hmr : ∀ x' y', canvasRead x' y' (mark x y s) = canvasRead x' y' s := fun _ _ => rfl
    have hr := canvasRead_canvasWrite hm hw
    obtain ⟨hx, hxw, hy, hyh⟩ := hc
    have hb := bandOf_lt hs.1.2.2.2.2.2.2.1 hx hxw
    refine ⟨?_, ?_, ?_, ?_⟩
    · cases d <;> rfl
    · rintro x' y' v _ ⟨rfl, rfl, rfl⟩
      rw [hr]; simp
    · intro x' y' hn
      rw [hr, if_neg (fun h => hn c ⟨h.1, h.2, rfl⟩), hmr]
    · intro y' b' hy' hb'
      have hdf : dirtyFlag y' b' (withSector d (SectorMem.set (sectorOf d (mark x y s)) off c) (mark x y s))
          = dirtyFlag y' b' (mark x y s) := by cases d <;> rfl
      rw [hdf, mark, dirtyFlag_setDirty hs.2.2 (by omega) hb hb']
      by_cases h : y' = y.toNat ∧ b' = bandOf s.cfg x
      · rw [if_pos h]
        simp only [true_iff]
        refine .inr ⟨x, c, ?_, h.2.symm, rfl, by omega, rfl⟩
        have : (y' : Int) = y := by omega
        rw [this]
        exact ⟨hx, hxw, hy, hyh⟩
      · rw [if_neg h]
        refine ⟨.inl, ?_⟩
        rintro (h1 | ⟨x', v, _, hbx, rfl, hyy, _⟩)
        · exact h1
        · exact absurd ⟨by omega, hbx.symm⟩ h

/-! ## Composing drawings -/

theorem Draws.cfg_eq {W : Int → Int → Byte → Prop} {s t : State} (h : Draws W s t) : t.cfg = s.cfg := by
  rw [h.1]

theorem Draws.refl (s : State) : Draws (fun _ _ _ => False) s s :=
  ⟨rfl, fun _ _ _ _ h => h.elim, fun _ _ _ => rfl, fun _ _ _ _ => by simp⟩

/-- One drawing after another: where both wrote, the later value stands. -/
theorem Draws.trans {W V : Int → Int → Byte → Prop} {s t u : State} (h : Draws W s t) (h' : Draws V t u) :
    Draws (fun x y v => V x y v ∨ (W x y v ∧ ∀ v', ¬ V x y v')) s u := by
  obtain ⟨hf, hw, hn, hd⟩ := h
  have hcfg : t.cfg = s.cfg := by rw [hf]
  obtain ⟨hf', hw', hn', hd'⟩ := h'
  rw [hcfg] at hw' hd'
  refine ⟨?_, ?_, ?_, ?_⟩
  · rw [hf', hf]
  · rintro x y v hc (hv | ⟨hwv, hno⟩)
    · exact hw' x y v hc hv
    · rw [hn' x y hno]; exact hw x y v hc hwv
  · intro x y hno
    have hV : ∀ v, ¬ V x y v := fun v hv => hno v (.inl hv)
    rw [hn' x y hV]
    exact hn x y (fun v hv => hno v (.inr ⟨hv, hV⟩))
  · intro y b hy hb
    rw [hd' y b hy hb, hd y b hy hb, or_assoc]
    refine or_congr_right ⟨?_, ?_⟩
    · rintro (⟨x, v, hc, hbx, hwv⟩ | ⟨x, v, hc, hbx, hv⟩)
      · by_cases hV : ∃ v', V x y v'
        · obtain ⟨v', hv'⟩ := hV
          exact ⟨x, v', hc, hbx, .inl hv'⟩
        · exact ⟨x, v, hc, hbx, .inr ⟨hwv, fun v' hv' => hV ⟨v', hv'⟩⟩⟩
      · exact ⟨x, v, hc, hbx, .inl hv⟩
    · rintro ⟨x, v, hc, hbx, hv | ⟨hwv, _⟩⟩
      · exact .inr ⟨x, v, hc, hbx, hv⟩
      · exact .inl ⟨x, v, hc, hbx, hwv⟩

/-- The written set may be said in any equivalent way on the canvas. -/
theorem Draws.congr {W V : Int → Int → Byte → Prop} {s t : State} (h : Draws W s t)
    (he : ∀ x y v, InCanvas s.cfg x y → (W x y v ↔ V x y v)) : Draws V s t := by
  obtain ⟨hf, hw, hn, hd⟩ := h
  refine ⟨hf, fun x y v hc hv => hw x y v hc ((he x y v hc).2 hv), fun x y hno => ?_, fun y b hy hb => ?_⟩
  · by_cases hc : InCanvas s.cfg x y
    · exact hn x y (fun v hv => hno v ((he x y v hc).1 hv))
    · have hct : ¬ InCanvas t.cfg x y := by rw [hf]; exact hc
      rw [canvasRead_of_not_inCanvas hc, canvasRead_of_not_inCanvas hct]
  · rw [hd y b hy hb]
    refine or_congr_right ⟨?_, ?_⟩
    · rintro ⟨x, v, hc, hbx, hv⟩
      exact ⟨x, v, hc, hbx, (he x y v hc).1 hv⟩
    · rintro ⟨x, v, hc, hbx, hv⟩
      exact ⟨x, v, hc, hbx, (he x y v hc).2 hv⟩

/-- Drawings of one colour compose to the drawing of the union. -/
theorem Draws.trans_solid {c : Byte} {P Q : Int → Int → Prop} {s t u : State} (h : Draws (solid c P) s t)
    (h' : Draws (solid c Q) t u) : Draws (solid c (fun x y => P x y ∨ Q x y)) s u := by
  refine (h.trans h').congr fun x y v _ => ?_
  unfold solid
  constructor
  · rintro (⟨hq, rfl⟩ | ⟨⟨hp, rfl⟩, _⟩)
    · exact ⟨.inr hq, rfl⟩
    · exact ⟨.inl hp, rfl⟩
  · rintro ⟨hp | hq, rfl⟩
    · by_cases hq : Q x y
      · exact .inl ⟨hq, rfl⟩
      · exact .inr ⟨⟨hp, rfl⟩, fun v' hv' => hq hv'.1⟩
    · exact .inl ⟨hq, rfl⟩

/-- What drawing a list of pixels of the canvas does: it ends, and draws the list. -/
theorem setPixels_spec (c : Byte) (qs : List (Int × Int)) (s : State) (hs : Drawable s)
    (hq : ∀ q ∈ qs, InCanvas s.cfg q.1 q.2) :
    ∃ t, setPixels c qs s = .ok t ∧ Drawable t ∧ Draws (solid c (fun x y => (x, y) ∈ qs)) s t := by
  induction qs generalizing s with
  | nil => exact ⟨s, rfl, hs, (Draws.refl s).congr fun x y v _ => by simp [solid]⟩
  | cons q qs ih =>
    obtain ⟨t, ht, htd, hdraw⟩ := setPixel_spec c hs (hq q (by simp))
    obtain ⟨u, hu, hud, hdraw'⟩ := ih t htd (fun r hr => by rw [hdraw.cfg_eq]; exact hq r (by simp [hr]))
    refine ⟨u, by rw [setPixels, ht, Run.bind_ok, hu], hud, ?_⟩
    have h1 : Draws (solid c (fun x y => (x, y) = q)) s t :=
      hdraw.congr fun x y v _ => by simp [solid, Prod.ext_iff, and_assoc]
    exact (h1.trans_solid hdraw').congr fun x y v _ => by simp [solid]

/-- What a drawing command that is a list of pixels of the canvas answers. -/
theorem drawPixels_spec (c : Byte) (qs : List (Int × Int)) (s : State) (hs : Drawable s)
    (hq : ∀ q ∈ qs, InCanvas s.cfg q.1 q.2) :
    ∃ t, drawPixels c qs s = .next t ∧ Drawable t ∧ Draws (solid c (fun x y => (x, y) ∈ qs)) s t := by
  obtain ⟨t, ht, hd, hw⟩ := setPixels_spec c qs s hs hq
  exact ⟨t, by rw [drawPixels, ht, Run.outcome_ok], hd, hw⟩

/-- What a drawing command answers whose list holds exactly the pixels of a shape that are on the canvas. -/
theorem drawPixels_shape {c : Byte} {qs : List (Int × Int)} {s : State} {P : Int → Int → Prop} (hs : Drawable s)
    (hq : ∀ x y, (x, y) ∈ qs ↔ InCanvas s.cfg x y ∧ P x y) :
    ∃ t, drawPixels c qs s = .next t ∧ Draws (solid c P) s t := by
  obtain ⟨t, ht, _, hw⟩ := drawPixels_spec c qs s hs (fun q h => ((hq q.1 q.2).1 h).1)
  refine ⟨t, ht, hw.congr fun x y v hc => ?_⟩
  show (x, y) ∈ qs ∧ v = c ↔ P x y ∧ v = c
  rw [hq]
  tauto

end Sys2Proof.Machine
end

