-- ==== Sys2Proof/Laws/Drawing.lean ====
section
/-! SUPPORT. What loops whose passes draw do, and what the drawing operations under BLIT, MONO and the glyphs do. -/

namespace Sys2Proof.Machine

/-- `t` differs from `s` in the canvas and the dirty map at most. -/
def SameBut (s t : State) : Prop :=
  t = { s with top := t.top, bot := t.bot, dirty := t.dirty }

theorem SameBut.refl (s : State) : SameBut s s := rfl

theorem SameBut.trans {s t u : State} (h : SameBut s t) (h' : SameBut t u) : SameBut s u := by
  unfold SameBut at *
  rw [h', h]

theorem Draws.sameBut {W : Int → Int → Byte → Prop} {s t : State} (h : Draws W s t) : SameBut s t := h.1

theorem SameBut.cfg {s t : State} (h : SameBut s t) : t.cfg = s.cfg := by rw [h]
theorem SameBut.hmem {s t : State} (h : SameBut s t) : t.hmem = s.hmem := by rw [h]
theorem SameBut.fontAddr {s t : State} (h : SameBut s t) : t.fontAddr = s.fontAddr := by rw [h]
theorem SameBut.fontW {s t : State} (h : SameBut s t) : t.fontW = s.fontW := by rw [h]
theorem SameBut.fontH {s t : State} (h : SameBut s t) : t.fontH = s.fontH := by rw [h]

/-- What is written last by passes `0 .. n - 1` that each write `V i`. -/
def lastWritten (n : Nat) (V : Nat → Int → Int → Byte → Prop) : Int → Int → Byte → Prop :=
  fun x y v => ∃ i, i < n ∧ V i x y v ∧ ∀ j, i < j → j < n → ∀ v', ¬ V j x y v'

/-- A loop each of whose passes draws ends, and draws what its passes wrote last. -/
theorem forRange_draws {n : Nat} {body : Nat → State → Run} {V : Nat → Int → Int → Byte → Prop} {s : State}
    (hs : Drawable s)
    (hb : ∀ i t, i < n → Drawable t → SameBut s t → ∃ u, body i t = .ok u ∧ Drawable u ∧ Draws (V i) t u) :
    ∃ u, forRange n body s = .ok u ∧ Drawable u ∧ Draws (lastWritten n V) s u := by
  induction n with
  | zero =>
    refine ⟨s, rfl, hs, (Draws.refl s).congr fun x y v _ => ?_⟩
    simp [lastWritten]
  | succ n ih =>
    obtain ⟨t, h1, h2, h3⟩ := ih (fun i t hi => hb i t (by omega))
    obtain ⟨u, h4, h5, h6⟩ := hb n t (by omega) h2 h3.sameBut
    refine ⟨u, ?_, h5, (h3.trans h6).congr fun x y v _ => ?_⟩
    · unfold forRange at h1 ⊢
      rw [loopFrom_snoc, h1, Run.bind_ok, Nat.zero_add, h4]
    · unfold lastWritten
      constructor
      · rintro (h | ⟨⟨i, hi, hv, hl⟩, hn⟩)
        · exact ⟨n, by omega, h, fun j h1 h2 => by omega⟩
        · refine ⟨i, by omega, hv, fun j h1 h2 => ?_⟩
          by_cases hj : j = n
          · subst hj; exact hn
          · exact hl j h1 (by omega)
      · rintro ⟨i, hi, hv, hl⟩
        by_cases hin : i = n
        · subst hin; exact .inl hv
        · exact .inr ⟨⟨i, by omega, hv, fun j h1 h2 => hl j h1 (by omega)⟩, hl n (by omega) (by omega)⟩

/-- A loop each of whose passes draws a shape in one colour draws the union of the shapes. -/
theorem forRange_solid {n : Nat} {body : Nat → State → Run} {c : Byte} {P : Nat → Int → Int → Prop} {s : State}
    (hs : Drawable s)
    (hb : ∀ i t, i < n → Drawable t → SameBut s t →
      ∃ u, body i t = .ok u ∧ Drawable u ∧ Draws (solid c (P i)) t u) :
    ∃ u, forRange n body s = .ok u ∧ Drawable u ∧ Draws (solid c (fun x y => ∃ i, i < n ∧ P i x y)) s u := by
  induction n with
  | zero =>
    refine ⟨s, rfl, hs, (Draws.refl s).congr fun x y v _ => ?_⟩
    simp [solid]
  | succ n ih =>
    obtain ⟨t, h1, h2, h3⟩ := ih (fun i t hi => hb i t (by omega))
    obtain ⟨u, h4, h5, h6⟩ := hb n t (by omega) h2 h3.sameBut
    refine ⟨u, ?_, h5, (h3.trans_solid h6).congr fun x y v _ => and_congr_left fun _ => ?_⟩
    · unfold forRange at h1 ⊢
      rw [loopFrom_snoc, h1, Run.bind_ok, Nat.zero_add, h4]
    · constructor
      · rintro (⟨i, hi, hp⟩ | hp)
        · exact ⟨i, by omega, hp⟩
        · exact ⟨n, by omega, hp⟩
      · rintro ⟨i, hi, hp⟩
        by_cases hin : i = n
        · subst hin; exact .inr hp
        · exact .inl ⟨i, by omega, hp⟩

/-- `Point` draws its pixel where it is on the canvas (R124). -/
theorem point_spec {s : State} (x y : Int) (c : Byte) (hs : Drawable s) :
    ∃ t, point x y c s = .ok t ∧ Drawable t ∧ Draws (solid c (fun px py => px = x ∧ py = y)) s t := by
  unfold point
  by_cases h : InCanvas s.cfg x y
  · obtain ⟨t, h1, h2, h3⟩ := setPixel_spec c hs h
    refine ⟨t, by rw [if_pos h, h1], h2, h3.congr fun px py v _ => ?_⟩
    unfold solid
    tauto
  · refine ⟨s, by rw [if_neg h], hs, (Draws.refl s).congr fun px py v hc => ?_⟩
    simp only [solid, false_iff]
    rintro ⟨⟨rfl, rfl⟩, _⟩
    exact h hc

/-- `Point` where a bit is set (R188, R191). -/
theorem pointIf_spec {s : State} (b : Bool) (x y : Int) (c : Byte) (hs : Drawable s) :
    ∃ t, pointIf b x y c s = .ok t ∧ Drawable t ∧ Draws (solid c (fun px py => b = true ∧ px = x ∧ py = y)) s t := by
  unfold pointIf
  cases b with
  | false => exact ⟨s, rfl, hs, (Draws.refl s).congr fun px py v _ => by simp [solid]⟩
  | true =>
    obtain ⟨t, h1, h2, h3⟩ := point_spec x y c hs
    exact ⟨t, h1, h2, h3.congr fun px py v _ => by simp [solid]⟩

end Sys2Proof.Machine
end

