-- ==== Sys2Proof/Laws/Memory.lean ====
section
/-! SUPPORT. Host memory: a read after a write, the canonical form, and that equal reads mean equal data. -/

namespace Sys2Proof.Machine

@[simp] theorem Memory.read_write_same (m : Memory) (a : Nat) (v : Byte) (h : Memory.wf m = true) :
    Memory.read (Memory.write m a v) a = v := by
  have read_above : ∀ m : Memory, (∀ c ∈ m, a < c.1) → Memory.read m a = unlistedByte := by
    intro m
    induction m with
    | nil => intro _; rfl
    | cons d m ih =>
      intro hm
      have hd := hm d (by simp)
      rw [Memory.read, if_neg (by omega)]
      exact ih (fun c hc => hm c (by simp [hc]))
  induction m with
  | nil => unfold Memory.write; split <;> simp_all [Memory.read]
  | cons d m ih =>
    obtain ⟨b, u⟩ := d
    simp only [Memory.wf, Bool.and_eq_true, decide_eq_true_eq, List.all_eq_true] at h
    obtain ⟨⟨⟨_, _⟩, hall⟩, hm⟩ := h
    unfold Memory.write
    split
    · split
      · next hv =>
        rw [hv]
        exact read_above _ (fun c hc => by
          rcases List.mem_cons.1 hc with rfl | hc
          · assumption
          · have := hall c hc; omega)
      · simp [Memory.read]
    · split
      · next hab =>
        subst hab
        split
        · next hv => rw [hv]; exact read_above _ hall
        · simp [Memory.read]
      · next hab => rw [Memory.read, if_neg hab]; exact ih hm

theorem Memory.read_write_other (m : Memory) (a b : Nat) (v : Byte) (h : b ≠ a) :
    Memory.read (Memory.write m a v) b = Memory.read m b := by
  induction m with
  | nil => unfold Memory.write; split <;> simp [Memory.read, h]
  | cons d m ih =>
    obtain ⟨k, u⟩ := d
    unfold Memory.write
    split
    · split <;> simp [Memory.read, h]
    · split
      · next hk => subst hk; split <;> simp [Memory.read, h]
      · simp [Memory.read, ih]

/-- Every address a write lists is the written one or was listed before. -/
theorem Memory.mem_write {m : Memory} {a : Nat} {v : Byte} {c : Host.Cell} (h : c ∈ Memory.write m a v) :
    c = (a, v) ∨ c ∈ m := by
  induction m with
  | nil => unfold Memory.write at h; split at h <;> simp_all
  | cons d m ih =>
    unfold Memory.write at h
    split at h
    · split at h <;> simp_all
    · split at h
      · split at h
        · exact .inr (by simp [h])
        · rcases List.mem_cons.1 h with rfl | h
          · exact .inl rfl
          · exact .inr (by simp [h])
      · rcases List.mem_cons.1 h with rfl | h
        · exact .inr (by simp)
        · rcases ih h with rfl | h
          · exact .inl rfl
          · exact .inr (by simp [h])

/-- A write below 2^32 keeps the canonical form. -/
theorem Memory.write_wf (m : Memory) (a : Nat) (v : Byte) (h : Memory.wf m = true) (ha : a < 4294967296) :
    Memory.wf (Memory.write m a v) = true := by
  induction m with
  | nil => unfold Memory.write; split <;> simp_all [Memory.wf]
  | cons d m ih =>
    obtain ⟨k, u⟩ := d
    have h0 := h
    simp only [Memory.wf, Bool.and_eq_true, decide_eq_true_eq, List.all_eq_true] at h
    obtain ⟨⟨⟨hu, hk⟩, hall⟩, hm⟩ := h
    unfold Memory.write
    split
    · split
      · exact h0
      · next hak hv =>
        simp only [Memory.wf, Bool.and_eq_true, decide_eq_true_eq, List.all_eq_true] at h0 ⊢
        refine ⟨⟨⟨hv, ha⟩, fun c hc => ?_⟩, h0⟩
        rcases List.mem_cons.1 hc with rfl | hc
        · exact hak
        · have := hall c hc; omega
    · split
      · next hak =>
        subst hak
        split
        · exact hm
        · next hv =>
          simp only [Memory.wf, Bool.and_eq_true, decide_eq_true_eq, List.all_eq_true]
          exact ⟨⟨⟨hv, hk⟩, hall⟩, hm⟩
      · next hlt hne =>
        simp only [Memory.wf, Bool.and_eq_true, decide_eq_true_eq, List.all_eq_true]
        refine ⟨⟨⟨hu, hk⟩, fun c hc => ?_⟩, ih hm⟩
        rcases Memory.mem_write hc with rfl | hc
        · show k < a
          omega
        · exact hall c hc

/-- In canonical form, two memories that read the same everywhere are the same list. -/
theorem Memory.ext_read {m n : Memory} (hm : Memory.wf m = true) (hn : Memory.wf n = true)
    (h : ∀ a, Memory.read m a = Memory.read n a) : m = n := by
  have read_absent : ∀ (m : Memory) (a : Nat), (∀ c ∈ m, a < c.1) → Memory.read m a = unlistedByte := by
    intro m a
    induction m with
    | nil => intro _; rfl
    | cons d m ih =>
      intro hm
      have hd := hm d (by simp)
      rw [Memory.read, if_neg (by omega)]
      exact ih (fun c hc => hm c (by simp [hc]))
  induction m generalizing n with
  | nil =>
    cases n with
    | nil => rfl
    | cons d n =>
      simp only [Memory.wf, Bool.and_eq_true, decide_eq_true_eq] at hn
      have := h d.1
      simp [Memory.read] at this
      exact absurd this.symm hn.1.1.1
  | cons d m ih =>
    cases n with
    | nil =>
      simp only [Memory.wf, Bool.and_eq_true, decide_eq_true_eq] at hm
      have := h d.1
      simp [Memory.read] at this
      exact absurd this hm.1.1.1
    | cons e n =>
      obtain ⟨a, u⟩ := d
      obtain ⟨b, w⟩ := e
      simp only [Memory.wf, Bool.and_eq_true, decide_eq_true_eq, List.all_eq_true] at hm hn
      obtain ⟨⟨⟨hu, _⟩, hma⟩, hm'⟩ := hm
      obtain ⟨⟨⟨hw, _⟩, hnb⟩, hn'⟩ := hn
      have hab : a = b := by
        rcases Nat.lt_trichotomy a b with hlt | heq | hgt
        · have := h a
          rw [read_absent ((b, w) :: n) a (fun c hc => by
            rcases List.mem_cons.1 hc with rfl | hc
            · exact hlt
            · have := hnb c hc; omega)] at this
          simp [Memory.read] at this
          exact absurd this hu
        · exact heq
        · have := h b
          rw [read_absent ((a, u) :: m) b (fun c hc => by
            rcases List.mem_cons.1 hc with rfl | hc
            · exact hgt
            · have := hma c hc; omega)] at this
          simp [Memory.read] at this
          exact absurd this.symm hw
      subst hab
      have huw : u = w := by simpa [Memory.read] using h a
      subst huw
      have htail : m = n := ih hm' hn' (fun x => by
        by_cases hx : x = a
        · subst hx
          rw [read_absent m x hma, read_absent n x hnb]
        · simpa [Memory.read, hx] using h x)
      rw [htail]

end Sys2Proof.Machine
end

