-- ==== Sys2Proof/Laws/Writes.lean ====
section
/-! SUPPORT. Sequences of host-memory writes: what GRAB's and XFORM's loops do to memory and to the journal. -/

namespace Sys2Proof.Machine

/-- Store a list of bytes, in order. -/
def storeAll (l : List Host.Cell) (s : State) : State :=
  l.foldl (fun t c => storeByte c.1 c.2 t) s

@[simp] theorem storeAll_nil (s : State) : storeAll [] s = s := rfl

theorem storeAll_append (l m : List Host.Cell) (s : State) : storeAll (l ++ m) s = storeAll m (storeAll l s) := by
  simp [storeAll]

/-- Only host memory and the journal change: memory by the writes in order, the journal by their list. -/
theorem storeAll_eq (l : List Host.Cell) (s : State) :
    storeAll l s = { s with hmem := l.foldl (fun m c => Memory.write m c.1 c.2) s.hmem, bus := s.bus ++ l } := by
  induction l generalizing s with
  | nil => simp [storeAll]
  | cons c l ih =>
    have : storeAll (c :: l) s = storeAll l (storeByte c.1 c.2 s) := rfl
    rw [this, ih]
    simp [storeByte]

@[simp] theorem storeAll_cfg (l : List Host.Cell) (s : State) : (storeAll l s).cfg = s.cfg := by rw [storeAll_eq]

/-- A loop each of whose passes stores a list of bytes stores them all. -/
theorem forRange_storeAll {n : Nat} {body : Nat → State → Run} {L : Nat → List Host.Cell} {s : State}
    (hb : ∀ i, i < n → body i (storeAll ((List.range i).flatMap L) s)
      = .ok (storeAll (L i) (storeAll ((List.range i).flatMap L) s))) :
    forRange n body s = .ok (storeAll ((List.range n).flatMap L) s) := by
  unfold forRange
  induction n with
  | zero => rfl
  | succ n ih =>
    rw [loopFrom_snoc, ih (fun i hi => hb i (by omega)), Run.bind_ok, Nat.zero_add, hb n (by omega),
      List.range_succ, List.flatMap_append, storeAll_append]
    simp

/-- Writes elsewhere leave a byte alone. -/
theorem read_foldl_write_other (l : List Host.Cell) (m : Memory) (a : Nat) (h : ∀ c ∈ l, c.1 ≠ a) :
    Memory.read (l.foldl (fun m c => Memory.write m c.1 c.2) m) a = Memory.read m a := by
  induction l generalizing m with
  | nil => rfl
  | cons c l ih =>
    rw [List.foldl_cons, ih _ (fun d hd => h d (by simp [hd])),
      Memory.read_write_other _ _ _ _ (Ne.symm (h c (by simp)))]

/-- Writes below 2^32 keep the canonical form. -/
theorem wf_foldl_write (l : List Host.Cell) (m : Memory) (hm : Memory.wf m = true) (h : ∀ c ∈ l, c.1 < 4294967296) :
    Memory.wf (l.foldl (fun m c => Memory.write m c.1 c.2) m) = true := by
  induction l generalizing m with
  | nil => exact hm
  | cons c l ih => exact ih _ (Memory.write_wf _ _ _ hm (h c (by simp))) (fun d hd => h d (by simp [hd]))

/-- The byte of the last write to an address is the one read there. -/
theorem read_foldl_write_last (l r : List Host.Cell) (c : Host.Cell) (m : Memory) (hm : Memory.wf m = true)
    (hl : ∀ d ∈ l, d.1 < 4294967296) (hr : ∀ d ∈ r, d.1 ≠ c.1) :
    Memory.read ((l ++ c :: r).foldl (fun m c => Memory.write m c.1 c.2) m) c.1 = c.2 := by
  rw [List.foldl_append, List.foldl_cons, read_foldl_write_other _ _ _ hr,
    Memory.read_write_same _ _ _ (wf_foldl_write l m hm hl)]

end Sys2Proof.Machine
end

