-- ==== Sys2Proof/Laws/Effects.lean ====
section
/-! SUPPORT. What the shared operations can change at all, with no hypothesis on the accesses they make: each operation
ends, or raises HostMemFault, and changes no more than its relation says. -/

namespace Sys2Proof.Machine

/-! ## Operations that draw -/

/-- Only the canvas and the dirty map changed; the canvas keeps its form, no flag is cleared, and a pixel that changed has
its band marked (R123). -/
def OnlyDraws (s t : State) : Prop :=
  SameBut s t ∧ (Drawable s → Drawable t ∧
    (∀ y b, y < s.cfg.h → b < bandCount s.cfg → dirtyFlag y b s = true → dirtyFlag y b t = true) ∧
    (∀ x y : Nat, InCanvas s.cfg x y → canvasRead x y t ≠ canvasRead x y s → dirtyFlag y (bandOf s.cfg x) t = true))

theorem OnlyDraws.refl (s : State) : OnlyDraws s s :=
  ⟨rfl, fun h => ⟨h, fun _ _ _ _ h => h, fun _ _ _ h => absurd rfl h⟩⟩

theorem OnlyDraws.trans {s t u : State} (h : OnlyDraws s t) (h' : OnlyDraws t u) : OnlyDraws s u := by
  refine ⟨h.1.trans h'.1, fun hs => ?_⟩
  obtain ⟨a1, a2, a3⟩ := h.2 hs
  obtain ⟨b1, b2, b3⟩ := h'.2 a1
  rw [h.1.cfg] at b2 b3
  refine ⟨b1, fun y b hy hb hd => b2 y b hy hb (a2 y b hy hb hd), fun x y hc hne => ?_⟩
  by_cases hx : canvasRead x y t = canvasRead x y s
  · exact b3 x y hc (by rw [hx]; exact hne)
  · obtain ⟨h1, h2, h3, h4⟩ := hc
    exact b2 _ _ (by omega) (bandOf_lt hs.1.2.2.2.2.2.2.1 h1 h2) (a3 x y ⟨h1, h2, h3, h4⟩ hx)

theorem Draws.onlyDraws {W : Int → Int → Byte → Prop} {s t : State} (h : Draws W s t) (ht : Drawable t) :
    OnlyDraws s t := by
  refine ⟨h.1, fun hs => ⟨ht, fun y b hy hb hd => (h.2.2.2 y b hy hb).2 (.inl hd), fun x y hc hne => ?_⟩⟩
  obtain ⟨h1, h2, h3, h4⟩ := hc
  by_cases hw : ∃ v, W x y v
  · obtain ⟨v, hw⟩ := hw
    exact (h.2.2.2 y _ (by omega) (bandOf_lt hs.1.2.2.2.2.2.2.1 h1 h2)).2 (.inr ⟨x, v, ⟨h1, h2, h3, h4⟩, rfl, hw⟩)
  · exact absurd (h.2.2.1 x y (fun v hv => hw ⟨v, hv⟩)) hne

theorem setPixel_onlyDraws {s : State} {x y : Int} (c : Byte) (h : InCanvas s.cfg x y) :
    ∃ t, setPixel x y c s = .ok t ∧ OnlyDraws s t := by
  obtain ⟨⟨d, off⟩, htr⟩ := Option.isSome_iff_exists.1 ((translate_isSome_iff s.cfg x y).2 h)
  have e : setPixel x y c s = .ok (withSector d (SectorMem.set (sectorOf d (mark x y s)) off c) (mark x y s)) := by
    unfold setPixel canvasWrite
    rw [mark_cfg, htr]
  refine ⟨_, e, ?_, fun hs => ?_⟩
  · cases d <;> rfl
  · obtain ⟨t, h1, h2, h3⟩ := setPixel_spec c hs h
    rw [e] at h1
    injection h1 with h1
    rw [h1]
    exact (h3.onlyDraws h2).2 hs

theorem setPixels_onlyDraws (c : Byte) (qs : List (Int × Int)) (s : State) (hq : ∀ q ∈ qs, InCanvas s.cfg q.1 q.2) :
    ∃ t, setPixels c qs s = .ok t ∧ OnlyDraws s t := by
  induction qs generalizing s with
  | nil => exact ⟨s, rfl, OnlyDraws.refl s⟩
  | cons q qs ih =>
    obtain ⟨t, h1, h2⟩ := setPixel_onlyDraws c (hq q (by simp))
    obtain ⟨u, h3, h4⟩ := ih t (fun r hr => by rw [h2.1.cfg]; exact hq r (by simp [hr]))
    exact ⟨u, by rw [setPixels, h1, Run.bind_ok, h3], h2.trans h4⟩

/-- The drawing commands that read no memory end, whatever the state. -/
theorem drawPixels_onlyDraws {c : Byte} {qs : List (Int × Int)} {s : State} (hq : ∀ q ∈ qs, InCanvas s.cfg q.1 q.2) :
    ∃ t, drawPixels c qs s = .next t ∧ OnlyDraws s t := by
  obtain ⟨t, h1, h2⟩ := setPixels_onlyDraws c qs s hq
  exact ⟨t, by rw [drawPixels, h1]; rfl, h2⟩

/-- FAULT ENTRY by the engine is what the statements call `faulted` (R224). -/
theorem raiseFault_eq_faulted (c : Cause) (n : Int) (s : State) : raiseFault true c n s = faulted c n s := rfl

/-- HostMemFault at one of the addresses of `A`, one that may not be accessed, in a state that `R` allows. -/
def MemFault (A : Int → Prop) (s : State) (R : State → State → Prop) (c : Cause) (n : Int) (t : State) : Prop :=
  c = .hostMemFault ∧ (A n ∧ ¬ Accessible s.cfg n) ∧ R s t

/-- The run only draws, to its end or to a HostMemFault at an address of `A`. -/
def RunDraws (A : Int → Prop) (s : State) (r : Run) : Prop :=
  r.Sat (OnlyDraws s) (MemFault A s OnlyDraws)

theorem RunDraws.trans {A : Int → Prop} {s t : State} {r : Run} (h : OnlyDraws s t) (h' : RunDraws A t r) :
    RunDraws A s r :=
  Run.Sat.mono h' (fun _ hu => h.trans hu)
    (fun _ _ _ hu => ⟨hu.1, by rw [← h.1.cfg]; exact hu.2.1, h.trans hu.2.2⟩)

theorem RunDraws.readByte {A : Int → Prop} {s : State} {a : Int} {k : Byte → Run} (ha : A a)
    (hk : RunDraws A s (k (Memory.read s.hmem a.toNat))) : RunDraws A s (readByte a s k) :=
  readByte_sat (fun _ => hk) (fun h => ⟨rfl, ⟨ha, h⟩, OnlyDraws.refl s⟩)

theorem RunDraws.bind {A : Int → Prop} {s : State} {r : Run} {f : State → Run} (h : RunDraws A s r)
    (hf : ∀ t, OnlyDraws s t → RunDraws A t (f t)) : RunDraws A s (r.bind f) :=
  Run.Sat.bind h (fun t ht => RunDraws.trans ht (hf t ht))

theorem RunDraws.forRange {A : Int → Prop} {n : Nat} {body : Nat → State → Run} {s : State}
    (h : ∀ i t, i < n → OnlyDraws s t → RunDraws A t (body i t)) : RunDraws A s (forRange n body s) :=
  forRange_sat (fun _ t => OnlyDraws s t) n s (OnlyDraws.refl s) (fun i t hi ht => RunDraws.trans ht (h i t hi ht))

theorem point_runDraws (A : Int → Prop) (x y : Int) (c : Byte) (s : State) : RunDraws A s (point x y c s) := by
  unfold point
  split
  · obtain ⟨t, h, ht⟩ := setPixel_onlyDraws c ‹_›
    rw [h]
    exact ht
  · exact OnlyDraws.refl s

theorem pointIf_runDraws (A : Int → Prop) (b : Bool) (x y : Int) (c : Byte) (s : State) :
    RunDraws A s (pointIf b x y c s) := by
  unfold pointIf
  split
  · exact point_runDraws A x y c s
  · exact OnlyDraws.refl s

theorem monoBit_runDraws {A : Int → Prop} {addr w h r c : Int} {s : State} {k : Bool → Run}
    (hA : ∀ a, MonoByte addr w h a → A a) (hk : ∀ b, RunDraws A s (k b)) : RunDraws A s (monoBit addr w h r c s k) := by
  unfold monoBit
  split
  · exact hk _
  · exact RunDraws.readByte (hA _ ⟨r, c, by omega, by omega, by omega, by omega, rfl⟩) (hk _)

/-- The 1x blit only draws, and reads bytes of its bitmap only (R188). -/
theorem monoBlit_runDraws {A : Int → Prop} {w h addr : Int} (hA : ∀ a, MonoByte addr w h a → A a) (x y : Int) (c : Byte)
    (s : State) : RunDraws A s (monoBlit x y w h addr c s) := by
  unfold monoBlit
  exact RunDraws.forRange fun i t _ _ => RunDraws.forRange fun j u _ _ => monoBit_runDraws hA fun b =>
    pointIf_runDraws A b _ _ _ _

theorem drawBlock_runDraws (A : Int → Prop) (q : Bool × Bool × Bool × Bool) (x y : Int) (c : Byte) (s : State) :
    RunDraws A s (drawBlock q x y c s) := by
  unfold drawBlock
  exact (pointIf_runDraws _ _ _ _ _ _).bind fun _ _ => (pointIf_runDraws _ _ _ _ _ _).bind fun _ _ =>
    (pointIf_runDraws _ _ _ _ _ _).bind fun _ _ => pointIf_runDraws _ _ _ _ _ _

/-- The 2x blit only draws, and reads bytes of its bitmap only (R191). -/
theorem mono2xBlit_runDraws {A : Int → Prop} {w h addr : Int} (hA : ∀ a, MonoByte addr w h a → A a) (x y : Int)
    (c : Byte) (s : State) : RunDraws A s (mono2xBlit x y w h addr c s) := by
  unfold mono2xBlit
  exact RunDraws.forRange fun i t _ _ => RunDraws.forRange fun j u _ _ => monoBit_runDraws hA fun e =>
    monoBit_runDraws hA fun up => monoBit_runDraws hA fun d => monoBit_runDraws hA fun l => monoBit_runDraws hA fun rt =>
    drawBlock_runDraws _ _ _ _ _ _

/-- The string walk only draws where its glyphs do, and reads its own bytes and those its glyphs read (R194, R195). -/
theorem stringLoop_runDraws {A : Int → Prop} {glyph : Int → Int → Byte → State → Run} {addr : Nat} {s : State}
    (n k : Nat) (ha : ∀ i : Nat, i < k + n → A (stringAddr addr i))
    (hg : ∀ (i : Nat) x y b t, i < k + n → b = memByte s (stringAddr addr i) → b ≠ 0x08#8 → b ≠ 0x0A#8 →
      OnlyDraws s t → RunDraws A t (glyph x y b t))
    (x y adv line cx cy : Int) {t : State} (ht : OnlyDraws s t) :
    RunDraws A t (stringLoop glyph addr x y adv line n k cx cy t) := by
  induction n generalizing k cx cy t with
  | zero => exact OnlyDraws.refl t
  | succ n ih =>
    have ha' : ∀ i : Nat, i < k + 1 + n → A (stringAddr addr i) := fun i hi => ha i (by omega)
    have hg' : ∀ (i : Nat) x y b t, i < k + 1 + n → b = memByte s (stringAddr addr i) → b ≠ 0x08#8 → b ≠ 0x0A#8 →
      OnlyDraws s t → RunDraws A t (glyph x y b t) := fun i x y b t hi => hg i x y b t (by omega)
    rw [stringLoop]
    refine RunDraws.readByte (ha k (by omega)) ?_
    split
    · exact ih (k + 1) ha' hg' _ _ ht
    · split
      · exact ih (k + 1) ha' hg' _ _ ht
      · refine (hg k _ _ _ _ (by omega) (by rw [ht.1.hmem]; rfl) ‹_› ‹_› ht).bind fun u hu => ?_
        exact ih (k + 1) ha' hg' _ _ (ht.trans hu)

/-! ## Blits -/

/-- The pixels of the visible rectangle are on the canvas (R164). -/
theorem blitClip_inCanvas {p : Config} {x y w h : Int} {k : BlitBox} (hk : blitClip p x y w h = some k) (r c : Nat)
    (hr : r < k.hn) (hc : c < k.wn) : InCanvas p (k.xs + (c : Int)) (k.ys + (r : Int)) := by
  unfold blitClip at hk
  split at hk
  · simp at hk
  · split at hk
    · simp at hk
    · simp only [Option.some.injEq] at hk
      subst hk
      simp only [crop] at hr hc ⊢
      split_ifs at hr hc ⊢ <;> simp at hr hc ⊢
      omega

/-- The host address of the blit's loops is that of the canvas pixel (R160, R164). -/
theorem bitmapAddr_eq_blitAddr {p : Config} {x y w h : Int} {k : BlitBox} (hk : blitClip p x y w h = some k)
    (stride addr r c : Nat) :
    bitmapAddr addr stride k.ox k.oy r c = blitAddr x y stride addr (k.xs + (c : Int)) (k.ys + (r : Int)) := by
  have ho : k.ox = k.xs - x ∧ k.oy = k.ys - y := by
    unfold blitClip at hk
    split at hk
    · simp at hk
    · split at hk
      · simp at hk
      · simp only [Option.some.injEq] at hk
        subst hk
        exact ⟨rfl, rfl⟩
  unfold bitmapAddr blitAddr
  rw [ho.1, ho.2]
  ring

/-- The pixels of the visible rectangle are those of the rectangle on the canvas (R164). -/
theorem blitClip_visible {p : Config} {x y w h : Int} {k : BlitBox} (hk : blitClip p x y w h = some k) (r c : Nat)
    (hr : r < k.hn) (hc : c < k.wn) : Visible p x y w h (k.xs + (c : Int)) (k.ys + (r : Int)) := by
  refine ⟨blitClip_inCanvas hk r c hr hc, ?_⟩
  unfold blitClip at hk
  split at hk
  · simp at hk
  · split at hk
    · simp at hk
    · simp only [Option.some.injEq] at hk
      subst hk
      simp only [crop, InRect] at hr hc ⊢
      split_ifs at hr hc ⊢ <;> simp at hr hc ⊢
      omega

theorem blitLoop_runDraws {A : Int → Prop} {body : Int → Int → Int → State → Run} {k : BlitBox} {addr stride : Nat}
    {s : State} {x y w h : Int} (hk : blitClip s.cfg x y w h = some k)
    (hA : ∀ px py, Visible s.cfg x y w h px py → A (blitAddr x y stride addr px py))
    (hb : ∀ a b d t, InCanvas t.cfg a b → A d → RunDraws A t (body a b d t)) :
    RunDraws A s (blitLoop k addr stride body s) := by
  unfold blitLoop
  refine RunDraws.forRange fun i t hi ht => RunDraws.forRange fun j u hj hu => ?_
  rw [bitmapAddr_eq_blitAddr hk]
  refine hb _ _ _ _ ?_ (hA _ _ (blitClip_visible hk i j hi hj))
  rw [hu.1.cfg, ht.1.cfg]
  exact blitClip_inCanvas hk i j hi hj

theorem blitPixel_runDraws {A : Int → Prop} {x y a : Int} {s : State} (h : InCanvas s.cfg x y) (ha : A a) :
    RunDraws A s (blitPixel x y a s) := by
  refine RunDraws.readByte ha ?_
  obtain ⟨t, ht, hd⟩ := setPixel_onlyDraws (Memory.read s.hmem a.toNat) h
  rw [ht]
  exact hd

theorem blitkPixel_runDraws {A : Int → Prop} (key : Byte) {x y a : Int} {s : State} (h : InCanvas s.cfg x y)
    (ha : A a) : RunDraws A s (blitkPixel key x y a s) := by
  refine RunDraws.readByte ha ?_
  split
  · obtain ⟨t, ht, hd⟩ := setPixel_onlyDraws (Memory.read s.hmem a.toNat) h
    rw [ht]
    exact hd
  · exact OnlyDraws.refl s

/-! ## Operations that write host memory -/

/-- Only host memory and the journal changed, by a list of byte writes. -/
def OnlyStores (s t : State) : Prop :=
  ∃ l : List Host.Cell, (∀ c ∈ l, c.1 < 4294967296) ∧ t = storeAll l s

theorem OnlyStores.refl (s : State) : OnlyStores s s :=
  ⟨[], by simp, rfl⟩

theorem OnlyStores.trans {s t u : State} (h : OnlyStores s t) (h' : OnlyStores t u) : OnlyStores s u := by
  obtain ⟨l, h1, rfl⟩ := h
  obtain ⟨m, h2, rfl⟩ := h'
  refine ⟨l ++ m, fun c hc => ?_, (storeAll_append _ _ _).symm⟩
  rcases List.mem_append.1 hc with h | h
  · exact h1 c h
  · exact h2 c h

theorem OnlyStores.cfg {s t : State} (h : OnlyStores s t) : t.cfg = s.cfg := by
  obtain ⟨l, _, rfl⟩ := h
  simp

/-- The run only stores, to its end or to a HostMemFault at an address of `A`. -/
def RunStores (A : Int → Prop) (s : State) (r : Run) : Prop :=
  r.Sat (OnlyStores s) (MemFault A s OnlyStores)

theorem RunStores.trans {A : Int → Prop} {s t : State} {r : Run} (h : OnlyStores s t) (h' : RunStores A t r) :
    RunStores A s r :=
  Run.Sat.mono h' (fun _ hu => h.trans hu) (fun _ _ _ hu => ⟨hu.1, by rw [← h.cfg]; exact hu.2.1, h.trans hu.2.2⟩)

theorem RunStores.forRange {A : Int → Prop} {n : Nat} {body : Nat → State → Run} {s : State}
    (h : ∀ i t, i < n → OnlyStores s t → RunStores A t (body i t)) : RunStores A s (forRange n body s) :=
  forRange_sat (fun _ t => OnlyStores s t) n s (OnlyStores.refl s) (fun i t hi ht => RunStores.trans ht (h i t hi ht))

theorem writeByte_runStores {A : Int → Prop} {a : Int} (ha : A a) (v : Byte) (s : State) :
    RunStores A s (writeByte a v s) := by
  refine writeByte_sat (fun h => ⟨[(a.toNat, v)], ?_, rfl⟩) (fun h => ⟨rfl, ⟨ha, h⟩, OnlyStores.refl s⟩)
  obtain ⟨h1, h2, _⟩ := (accessible_iff _ _).1 h
  simp
  omega

/-- GRAB's loops only store, at the addresses of visible pixels (R163). -/
theorem grabLoop_runStores {A : Int → Prop} {k : BlitBox} {addr stride : Nat} {s : State} {x y w h : Int}
    (hk : blitClip s.cfg x y w h = some k)
    (hA : ∀ px py, Visible s.cfg x y w h px py → A (blitAddr x y stride addr px py)) :
    RunStores A s (blitLoop k addr stride grabPixel s) := by
  unfold blitLoop
  refine RunStores.forRange fun i t hi ht => RunStores.forRange fun j u hj hu => ?_
  rw [bitmapAddr_eq_blitAddr hk]
  unfold grabPixel
  have hc := blitClip_inCanvas hk i j hi hj
  rw [← ht.cfg, ← hu.cfg] at hc
  obtain ⟨v, hv⟩ := canvasRead_isSome hc
  rw [hv]
  exact writeByte_runStores (hA _ _ (blitClip_visible hk i j hi hj)) _ _

/-- XFORM's loops only store, and access the addresses of its copies (R175). -/
theorem xformLoop_runStores {A : Int → Prop} {src : Nat} {sw sh : Int} {ss sx sy : Nat} {ang : Int} {dst : Nat}
    {dw dh : Int}
    (hA : ∀ q ∈ xformCopies src sw sh ss sx sy ang dst dw dh, A q.2 ∧ ∀ a, q.1 = some a → A a) (bg : Byte) (s : State) :
    RunStores A s (xformLoop src sw sh ss sx sy ang dst bg dw dh s) := by
  unfold xformLoop
  refine RunStores.forRange fun j t hj ht => RunStores.forRange fun i u hi hu => ?_
  have h := hA _ (List.mem_flatMap.2 ⟨j, List.mem_range.2 hj, List.mem_map.2 ⟨i, List.mem_range.2 hi, rfl⟩⟩)
  unfold xformPixel
  split
  · exact readByte_sat (fun _ => writeByte_runStores h.1 _ _)
      (fun hn => ⟨rfl, ⟨h.2 _ (if_pos ‹_›), hn⟩, OnlyStores.refl _⟩)
  · exact writeByte_runStores h.1 _ _

/-! ## The palette and the flush -/

/-- Only palette entries changed. -/
def OnlyPalette (s t : State) : Prop :=
  ∃ p : List Word, t = { s with pal := p } ∧ p.length = s.pal.length

/-- PAL_LOAD's loop only sets entries, and reads the two bytes of each colour (R102). -/
theorem palLoadLoop_sat (addr count : Nat) (s : State) :
    (palLoadLoop addr count s).Sat (OnlyPalette s)
      (MemFault (fun a => ∃ i : Nat, i < count ∧ (a = colourAddr addr i ∨ a = colourAddr addr i + 1)) s OnlyPalette) := by
  unfold palLoadLoop
  refine forRange_sat (fun _ t => OnlyPalette s t) _ s ⟨s.pal, rfl, rfl⟩ ?_
  rintro i t hi ⟨p, rfl, hp⟩
  unfold readWord
  apply readByte_sat
  · intro _
    apply readByte_sat
    · intro _
      exact ⟨_, rfl, by simpa using hp⟩
    · exact fun h => ⟨rfl, ⟨⟨i, hi, .inr rfl⟩, h⟩, _, rfl, hp⟩
  · exact fun h => ⟨rfl, ⟨⟨i, hi, .inl rfl⟩, h⟩, _, rfl, hp⟩

/-- Only transactions were sent and dirty flags changed. -/
def OnlySends (s t : State) : Prop :=
  ∃ (ts : List SinkTx) (d : List Bool), t = { s with sink := s.sink ++ ts, dirty := d } ∧ d.length = s.dirty.length

theorem OnlySends.refl (s : State) : OnlySends s s :=
  ⟨[], s.dirty, by simp, rfl⟩

theorem OnlySends.trans {s t u : State} (h : OnlySends s t) (h' : OnlySends t u) : OnlySends s u := by
  obtain ⟨l, d, rfl, h1⟩ := h
  obtain ⟨m, e, rfl, h2⟩ := h'
  exact ⟨l ++ m, e, by simp, by simpa [h1] using h2⟩

theorem OnlySends.cfg {s t : State} (h : OnlySends s t) : t.cfg = s.cfg := by
  obtain ⟨l, d, rfl, h1⟩ := h
  rfl

/-- A band ends inside the row (R202). -/
theorem bandEnd_le {p : Config} {b : Nat} (hb : b < bandCount p) : bandStart p b + bandWidth p b ≤ p.w := by
  have hpos : 0 < p.bandW := by
    by_contra h
    have h0 : p.bandW = 0 := by omega
    simp [bandCount, h0] at hb
  have h1 : (b + 1) * p.bandW ≤ p.w + p.bandW - 1 :=
    le_trans (Nat.mul_le_mul_right _ hb) (Nat.div_mul_le_self _ _)
  have h2 : (b + 1) * p.bandW = b * p.bandW + p.bandW := by ring
  unfold bandStart bandWidth
  omega

/-- In a row of the canvas, the bytes of a band are one for each of its columns (R202, R204). -/
theorem bandBytes_eq {s : State} {y b : Nat} (hy : y < s.cfg.h) (hb : b < bandCount s.cfg) :
    bandBytes y b s = (List.range (bandWidth s.cfg b)).map
      (fun (i : Nat) => (canvasRead ((bandStart s.cfg b : Int) + (i : Int)) y s).getD 0) := by
  have hw := bandEnd_le hb
  unfold bandBytes
  rw [← List.filterMap_eq_map]
  apply List.filterMap_congr
  intro i hi
  have hi := List.mem_range.1 hi
  obtain ⟨v, hv⟩ := canvasRead_isSome (s := s) (x := (bandStart s.cfg b : Int) + (i : Int)) (y := y)
    ⟨by omega, by omega, by omega, by omega⟩
  simp [hv]

theorem emitBand_onlySends (y b : Nat) (s : State) : OnlySends s (emitBand y b s) :=
  ⟨_, s.dirty.set (dirtyIndex s.cfg y b) false, rfl, by simp⟩

theorem flushRow_onlySends (y : Nat) (s : State) : OnlySends s (flushRow y s) := by
  unfold flushRow
  generalize List.range (bandCount s.cfg) = l
  induction l generalizing s with
  | nil => exact OnlySends.refl s
  | cons b l ih =>
    refine OnlySends.trans ?_ (ih _)
    beta_reduce
    split
    · exact emitBand_onlySends y b s
    · exact OnlySends.refl s

/-- FLUSH's loops only send and clear flags. -/
theorem flushRows_onlySends (i p : Bool) (s : State) : OnlySends s (flushRows i p s) := by
  unfold flushRows
  generalize List.range s.cfg.h = l
  induction l generalizing s with
  | nil => exact OnlySends.refl s
  | cons y l ih =>
    refine OnlySends.trans ?_ (ih _)
    beta_reduce
    split
    · exact flushRow_onlySends y s
    · exact OnlySends.refl s

end Sys2Proof.Machine
end

