-- ==== Sys2Proof/Laws/Geometry.lean ====
section
/-! SUPPORT. The pixels of runs and lines, and that the circle loop's fuel is enough. -/

namespace Sys2Proof.Machine

/-- A pixel `HLine` writes: on the canvas, in the row, in the span (R130). -/
theorem mem_hlinePixels {p : Config} {x y len px py : Int} :
    (px, py) ∈ hlinePixels p x y len ↔ InCanvas p px py ∧ py = y ∧ x ≤ px ∧ px < x + len := by
  unfold hlinePixels
  by_cases hy : y < 0 ∨ y ≥ p.h
  · rw [if_pos hy]
    simp only [List.not_mem_nil, false_iff]
    rintro ⟨⟨_, _, _, _⟩, rfl, _⟩
    omega
  · rw [if_neg hy]
    unfold crop
    by_cases hc : len ≤ 0 ∨ (p.w : Int) ≤ 0 ∨ x ≥ p.w ∨ x + len - 1 < 0
    · rw [if_pos hc]
      simp only [List.not_mem_nil, false_iff]
      rintro ⟨⟨_, _, _, _⟩, _, _, _⟩
      omega
    · rw [if_neg hc]
      simp only [List.mem_map, List.mem_range, Prod.mk.injEq]
      constructor
      · rintro ⟨i, hi, rfl, rfl⟩
        refine ⟨⟨?_, ?_, ?_, ?_⟩, rfl, ?_, ?_⟩ <;> omega
      · rintro ⟨⟨_, _, _, _⟩, rfl, _, _⟩
        exact ⟨(px - max x 0).toNat, by omega, by omega, rfl⟩

/-- A pixel `VLine` writes: on the canvas, in the column, in the span (R131). -/
theorem mem_vlinePixels {p : Config} {x y len px py : Int} :
    (px, py) ∈ vlinePixels p x y len ↔ InCanvas p px py ∧ px = x ∧ y ≤ py ∧ py < y + len := by
  unfold vlinePixels
  by_cases hx : x < 0 ∨ x ≥ p.w
  · rw [if_pos hx]
    simp only [List.not_mem_nil, false_iff]
    rintro ⟨⟨_, _, _, _⟩, rfl, _⟩
    omega
  · rw [if_neg hx]
    unfold crop
    by_cases hc : len ≤ 0 ∨ (p.h : Int) ≤ 0 ∨ y ≥ p.h ∨ y + len - 1 < 0
    · rw [if_pos hc]
      simp only [List.not_mem_nil, false_iff]
      rintro ⟨⟨_, _, _, _⟩, _, _, _⟩
      omega
    · rw [if_neg hc]
      simp only [List.mem_map, List.mem_range, Prod.mk.injEq]
      constructor
      · rintro ⟨i, hi, rfl, rfl⟩
        refine ⟨⟨?_, ?_, ?_, ?_⟩, rfl, ?_, ?_⟩ <;> omega
      · rintro ⟨⟨_, _, _, _⟩, rfl, _, _⟩
        exact ⟨(py - max y 0).toNat, by omega, rfl, by omega⟩

/-- A pixel `Line` writes: on the canvas and on the line (R135). -/
theorem mem_linePixels {p : Config} {x0 y0 x1 y1 px py : Int} :
    (px, py) ∈ linePixels p x0 y0 x1 y1 ↔ InCanvas p px py ∧ OnLine x0 y0 x1 y1 px py := by
  unfold linePixels OnLine
  split
  · rw [mem_hlinePixels]
    constructor <;> rintro ⟨hc, h, _, _⟩ <;> exact ⟨hc, h, by omega, by omega⟩
  · split
    · rw [mem_vlinePixels]
      constructor <;> rintro ⟨hc, h, _, _⟩ <;> exact ⟨hc, h, by omega, by omega⟩
    · simp only [List.mem_filter, decide_eq_true_eq]
      tauto

/-- More fuel than `px - py + 1` gives R150's loop no further pass: it ends by itself where `px < py`. -/
theorem circleSteps_fuel (n m : Nat) (px py dx dy err : Int) (hn : px - py < n) (hm : px - py < m) :
    circleSteps n px py dx dy err = circleSteps m px py dx dy err := by
  induction n generalizing m px py dx dy err with
  | zero => cases m with
    | zero => rfl
    | succ m => rw [circleSteps, circleSteps, if_pos (by omega)]
  | succ n ih =>
    cases m with
    | zero => rw [circleSteps, circleSteps, if_pos (by omega)]
    | succ m =>
      rw [circleSteps, circleSteps]
      split
      · rfl
      · congr 1
        split <;> exact ih _ _ _ _ _ _ (by omega) (by omega)

end Sys2Proof.Machine
end

