-- ==== Sys2Proof/Laws/Palette.lean ====
section
/-! SUPPORT. The default palette by entry. -/

namespace Sys2Proof.Machine

theorem defaultPalette_length {p : Config} (h : p.defpal.length = 16) : (defaultPalette p).length = 256 := by
  rw [defaultPalette, List.length_append, List.length_replicate, h]

/-- The default palette by entry (R101). -/
theorem defaultPalette_getD {p : Config} (h : p.defpal.length = 16) (k : Nat) :
    (defaultPalette p).getD k 0 = if k < 16 then p.defpal.getD k 0 else 0 := by
  simp only [defaultPalette, List.getD_eq_getElem?_getD, List.getElem?_append, h, List.getElem?_replicate]
  split
  · rfl
  · split <;> rfl

end Sys2Proof.Machine
end

