-- ==== Sys2Proof/Laws/PerInstr.lean ====
section
/-! SUPPORT. The shape of every command's encoding: a header with the operation's opcode, and as many operand words as
R82 gives it. One lemma per constructor. -/

namespace Sys2Proof

namespace Laws.EncodeShape

/-- The encoding is the header of an operation and that operation's number of operand words (R80, R81, R82). -/
def Statement (i : Instr) : Prop :=
  ∃ (o : Op) (imm8 : Byte) (ws : List Word), encode i = header o imm8 :: ws ∧ ws.length = o.operandWords

theorem nop : Statement (.nop) :=
  ⟨.nop, 0, _, rfl, rfl⟩

theorem palDefault : Statement (.palDefault) :=
  ⟨.palDefault, 0, _, rfl, rfl⟩

theorem palLoad (addr count : Nat) : Statement (.palLoad addr count) :=
  ⟨.palLoad, 0, _, rfl, rfl⟩

theorem palRead (idx : Byte) : Statement (.palRead idx) :=
  ⟨.palRead, idx, _, rfl, rfl⟩

theorem getPixel (x y : Int) : Statement (.getPixel x y) :=
  ⟨.getPixel, 0, _, rfl, rfl⟩

theorem point (x y : Int) (c : Byte) : Statement (.point x y c) :=
  ⟨.point, c, _, rfl, rfl⟩

theorem fillScreen (c : Byte) : Statement (.fillScreen c) :=
  ⟨.fillScreen, c, _, rfl, rfl⟩

theorem crop (start len view : Int) : Statement (.crop start len view) :=
  ⟨.crop, 0, _, rfl, rfl⟩

theorem hline (x y len : Int) (c : Byte) : Statement (.hline x y len c) :=
  ⟨.hline, c, _, rfl, rfl⟩

theorem vline (x y len : Int) (c : Byte) : Statement (.vline x y len c) :=
  ⟨.vline, c, _, rfl, rfl⟩

theorem line (x0 y0 x1 y1 : Int) (c : Byte) : Statement (.line x0 y0 x1 y1 c) :=
  ⟨.line, c, _, rfl, rfl⟩

theorem rect (x y w h : Int) (c : Byte) : Statement (.rect x y w h c) :=
  ⟨.rect, c, _, rfl, rfl⟩

theorem frect (x y w h : Int) (c : Byte) : Statement (.frect x y w h c) :=
  ⟨.frect, c, _, rfl, rfl⟩

theorem tri (x0 y0 x1 y1 x2 y2 : Int) (c : Byte) : Statement (.tri x0 y0 x1 y1 x2 y2 c) :=
  ⟨.tri, c, _, rfl, rfl⟩

theorem ftri (x0 y0 x1 y1 x2 y2 : Int) (c : Byte) : Statement (.ftri x0 y0 x1 y1 x2 y2 c) :=
  ⟨.ftri, c, _, rfl, rfl⟩

theorem circ (x y r : Int) (c : Byte) : Statement (.circ x y r c) :=
  ⟨.circ, c, _, rfl, rfl⟩

theorem fcirc (x y r : Int) (c : Byte) : Statement (.fcirc x y r c) :=
  ⟨.fcirc, c, _, rfl, rfl⟩

theorem blit (x y w h : Int) (stride addr : Nat) : Statement (.blit x y w h stride addr) :=
  ⟨.blit, 0, _, rfl, rfl⟩

theorem blitk (x y w h : Int) (stride addr : Nat) (key : Byte) : Statement (.blitk x y w h stride addr key) :=
  ⟨.blitk, key, _, rfl, rfl⟩

theorem grab (x y w h : Int) (stride addr : Nat) : Statement (.grab x y w h stride addr) :=
  ⟨.grab, 0, _, rfl, rfl⟩

theorem xform (src : Nat) (sw sh : Int) (ss sx sy : Nat) (ang : Int) (dst : Nat) (bg : Byte) : Statement (.xform src sw sh ss sx sy ang dst bg) :=
  ⟨.xform, bg, _, rfl, rfl⟩

theorem mono (x y w h : Int) (addr : Nat) (c : Byte) : Statement (.mono x y w h addr c) :=
  ⟨.mono, c, _, rfl, rfl⟩

theorem mono2x (x y w h : Int) (addr : Nat) (c : Byte) : Statement (.mono2x x y w h addr c) :=
  ⟨.mono2x, c, _, rfl, rfl⟩

theorem font (addr : Nat) (width height : Int) : Statement (.font addr width height) :=
  ⟨.font, 0, _, rfl, rfl⟩

theorem char (x y : Int) (code c : Byte) : Statement (.char x y code c) :=
  ⟨.char, c, _, rfl, rfl⟩

theorem char2x (x y : Int) (code c : Byte) : Statement (.char2x x y code c) :=
  ⟨.char2x, c, _, rfl, rfl⟩

theorem str (x y : Int) (addr len : Nat) (c : Byte) : Statement (.str x y addr len c) :=
  ⟨.str, c, _, rfl, rfl⟩

theorem str2x (x y : Int) (addr len : Nat) (c : Byte) : Statement (.str2x x y addr len c) :=
  ⟨.str2x, c, _, rfl, rfl⟩

theorem flush : Statement (.flush) :=
  ⟨.flush, 0, _, rfl, rfl⟩

end Laws.EncodeShape

end Sys2Proof
end

