-- ==== Sys2Proof/Tests/Slice0.lean ====
section
/-! SUPPORT. Our own tests: ill-formed commands refused, every command's words decoded, one step of each command against
the vectors of 95_test_vectors.md, and a witness for the hypotheses of each statement. -/

namespace Sys2Proof.Tests

open Sys2Proof Sys2Proof.Machine

set_option Elab.async false

/-! ## Helpers -/

/-- The "clean state" of 95_test_vectors.md: canvas 0, no dirty flag, PARITY 0, ILACE 1. -/
def clean : State :=
  { State.reset with
    top := [(76800, some 0#8)]
    bot := [(76800, some 0#8)]
    dirty := List.replicate 2400 false
    ilace := true }

/-- `s` with host memory holding the bytes `bs` from address `a` on. -/
def bytesAt (a : Nat) (bs : List Nat) (s : State) : State :=
  { s with hmem := (bs.zipIdx a).foldl (fun m c => Memory.write m c.2 (BitVec.ofNat 8 c.1)) s.hmem }

/-- The bytes of `w` by `h` canvas pixels from `(x, y)` on, row by row, after a command that answered a next state. -/
def picture (o : Out) (x y w h : Nat) : List (List Nat) :=
  match o with
  | .next t =>
    (List.range h).map (fun (r : Nat) =>
      (List.range w).map (fun (c : Nat) => ((canvasRead ((x + c : Nat) : Int) ((y + r : Nat) : Int) t).getD 0).toNat))
  | _ => []

/-- The dirty bands, row and band, after a command. -/
def bandsAfter (o : Out) (rows : Nat) : List (Nat × Nat) :=
  match o with
  | .next t =>
    (List.range rows).flatMap (fun (y : Nat) =>
      ((List.range 5).filter (fun b => dirtyFlag y b t)).map (fun (b : Nat) => (y, b)))
  | _ => []

/-- Host memory's bytes at the addresses from `a` on, after a command. -/
def memoryAfter (o : Out) (a n : Nat) : List Nat :=
  match o with
  | .next t => (List.range n).map (fun (k : Nat) => (Memory.read t.hmem (a + k)).toNat)
  | _ => []

/-- FAULT, FCAUSE, FINFO, RES0, RES1, RES2 after a command. -/
def registersAfter (o : Out) : List Nat :=
  match o with
  | .next t => [t.fault.toNat, t.fcause.toNat, t.finfo.toNat, t.res0.toNat, t.res1.toNat, t.res2.toNat]
  | _ => []

/-- Whether a step or a command answered a next state. -/
def isNext (o : Out) : Bool :=
  match o with
  | .next _ => true
  | _ => false

/-- The sink's trace after a command. -/
def sinkAfter (o : Out) : List SinkTx :=
  match o with
  | .next t => t.sink
  | _ => []

/-! ## Well-formedness -/

theorem test_wellFormed_refuses_s16_below : (Instr.getPixel (-32769) 0).wellFormed = false := by decide
theorem test_wellFormed_refuses_s16_above : (Instr.crop 0 0 32768).wellFormed = false := by decide
theorem test_wellFormed_refuses_u16 : (Instr.palLoad 0 65536).wellFormed = false := by decide
theorem test_wellFormed_refuses_addr32 : (Instr.font 4294967296 1 1).wellFormed = false := by decide
theorem test_wellFormed_refuses_stride : (Instr.blit 0 0 1 1 65536 0).wellFormed = false := by decide
theorem test_wellFormed_refuses_angle : (Instr.xform 0 1 1 1 1 1 32768 0 0).wellFormed = false := by decide
theorem test_wellFormed_accepts_extremes :
    (Instr.line (-32768) 32767 (-32768) 32767 0xFF).wellFormed = true ∧
    (Instr.palLoad 4294967295 65535).wellFormed = true ∧
    (Instr.xform 4294967295 (-32768) 32767 65535 65535 65535 (-32768) 4294967295 0).wellFormed = true := by decide

/-! ## Decoding: V-ENC, one command of every opcode -/

theorem test_decode_palette :
    decode [0x0100#16] = .command .palDefault [] ∧
    decode [0x0200#16, 0x1000#16, 0x0000#16, 0x0004#16] = .command (.palLoad 0x1000 4) [] ∧
    decode [0x0301#16] = .command (.palRead 1#8) [] := by decide

theorem test_decode_canvas :
    decode [0x1000#16, 0x013F#16, 0x0066#16] = .command (.getPixel 319 102) [] ∧
    decode [0x1103#16, 0x0046#16, 0x0005#16] = .command (.point 70 5 3#8) [] ∧
    decode [0x1201#16] = .command (.fillScreen 1#8) [] ∧
    decode [0x1300#16, 0xFFFD#16, 0x000A#16, 0x0140#16] = .command (.crop (-3) 10 320) [] := by decide

theorem test_decode_lines :
    decode [0x2002#16, 0x003C#16, 0x0007#16, 0x000A#16] = .command (.hline 60 7 10 2#8) [] ∧
    decode [0x2107#16, 0x0005#16, 0xFFFD#16, 0x0006#16] = .command (.vline 5 (-3) 6 7#8) [] ∧
    decode [0x2207#16, 0xFFFE#16, 0xFFFF#16, 0x0003#16, 0x0002#16] = .command (.line (-2) (-1) 3 2 7#8) [] := by
  decide

theorem test_decode_polygons :
    decode [0x3009#16, 0x000A#16, 0x000A#16, 0x0004#16, 0x0003#16] = .command (.rect 10 10 4 3 9#8) [] ∧
    decode [0x3102#16, 0x0000#16, 0x0000#16, 0x0008#16, 0x0008#16] = .command (.frect 0 0 8 8 2#8) [] ∧
    decode [0x3203#16, 0x0000#16, 0x0000#16, 0x0004#16, 0x0000#16, 0x0000#16, 0x0003#16]
      = .command (.tri 0 0 4 0 0 3 3#8) [] ∧
    decode [0x3303#16, 0x000A#16, 0x0000#16, 0x0000#16, 0x0003#16, 0x000A#16, 0x0006#16]
      = .command (.ftri 10 0 0 3 10 6 3#8) [] := by decide

theorem test_decode_circles :
    decode [0x4001#16, 0x000A#16, 0x000A#16, 0x0002#16] = .command (.circ 10 10 2 1#8) [] ∧
    decode [0x4101#16, 0x000A#16, 0x000A#16, 0x0003#16] = .command (.fcirc 10 10 3 1#8) [] := by decide

theorem test_decode_blits :
    decode [0x5000#16, 0x0002#16, 0x0002#16, 0x0003#16, 0x0002#16, 0x0003#16, 0x5000#16, 0x0000#16]
      = .command (.blit 2 2 3 2 3 0x5000) [] ∧
    decode [0x5100#16, 0x0002#16, 0x0002#16, 0x0003#16, 0x0002#16, 0x0003#16, 0x2000#16, 0x0000#16]
      = .command (.blitk 2 2 3 2 3 0x2000 0#8) [] ∧
    decode [0x5200#16, 0x0002#16, 0x0002#16, 0x0003#16, 0x0002#16, 0x0003#16, 0x5000#16, 0x0000#16]
      = .command (.grab 2 2 3 2 3 0x5000) [] := by decide

theorem test_decode_xform :
    decode [0x6009#16, 0x2000#16, 0x0000#16, 0x0003#16, 0x0002#16, 0x0003#16, 0x0100#16, 0x0100#16, 0x005A#16,
      0x4000#16, 0x0000#16] = .command (.xform 0x2000 3 2 3 0x100 0x100 90 0x4000 9#8) [] := by decide

theorem test_decode_mono_and_font :
    decode [0x7001#16, 0x000A#16, 0x0014#16, 0x0005#16, 0x0005#16, 0x0100#16, 0x0000#16]
      = .command (.mono 10 20 5 5 0x100 1#8) [] ∧
    decode [0x7103#16, 0x0000#16, 0x0000#16, 0x0002#16, 0x0002#16, 0x0200#16, 0x0000#16]
      = .command (.mono2x 0 0 2 2 0x200 3#8) [] ∧
    decode [0x7200#16, 0x1000#16, 0x0000#16, 0x0004#16, 0x0002#16] = .command (.font 0x1000 4 2) [] := by decide

theorem test_decode_text :
    decode [0x7301#16, 0x0000#16, 0x0000#16, 0x0041#16] = .command (.char 0 0 0x41#8 1#8) [] ∧
    decode [0x7405#16, 0x0000#16, 0x0000#16, 0x0041#16] = .command (.char2x 0 0 0x41#8 5#8) [] ∧
    decode [0x7505#16, 0x000A#16, 0x000A#16, 0x3000#16, 0x0000#16, 0x0006#16]
      = .command (.str 10 10 0x3000 6 5#8) [] ∧
    decode [0x7605#16, 0x0000#16, 0x0000#16, 0x3000#16, 0x0000#16, 0x0003#16]
      = .command (.str2x 0 0 0x3000 3 5#8) [] := by decide

theorem test_decode_nop_and_flush :
    decode [0x0000#16] = .command .nop [] ∧ decode [0x8000#16] = .command .flush [] := by decide

/-- V-DEC (a), (c), (e). -/
theorem test_decode_rest :
    decode [0x22FF#16] = .incomplete 4 ∧ decode [0x0400#16, 0x1201#16] = .illegal 0x0400#16 ∧
    decode [0x1103#16, 0x0046#16, 0x0005#16, 0x1201#16] = .command (.point 70 5 3#8) [0x1201#16] := by decide

/-- The opcode table numbers the first word's bits first: here CROP -3, 10, 320. -/
theorem test_decodeTableWord : decodeTableWord 64 0x0140000AFFFD1300 = some (.crop (-3) 10 320) := by decide

/-! ## One step of each command -/

/-- V-PAL1. -/
theorem test_palLoad :
    (match exec (.palLoad 0x1000 2) (bytesAt 0x1000 [0x34, 0x12, 0x78, 0x56] clean) with
      | .next t => (t.pal.take 3, t.pal.length)
      | _ => ([], 0)) = ([0x1234#16, 0x5678#16, 0#16], 256) := by decide +kernel

/-- V-PAL4. -/
theorem test_palLoad_too_many : registersAfter (exec (.palLoad 0x1000 257) clean) = [1, 2, 0x101, 0, 0, 0] := by
  decide +kernel

/-- V-PAL1. -/
theorem test_palRead :
    registersAfter (exec (.palRead 1) { clean with pal := [0x1234#16, 0x5678#16] }) = [0, 0, 0, 0x5678, 0, 0] := by
  decide +kernel

/-- V-PAL5. -/
theorem test_palDefault :
    (match exec .palDefault { clean with pal := List.replicate 256 0xFFFF#16 } with
      | .next t => t.pal.drop 16
      | _ => []) = List.replicate 240 0#16 := by decide +kernel

/-- S2: the row above the sector boundary and the row below it. -/
theorem test_point_at_boundary :
    picture (exec (.point 5 239 0xAB) clean) 4 238 3 3 = [[0, 0, 0], [0, 0xAB, 0], [0, 0, 0]] ∧
    picture (exec (.point 5 240 0xCD) clean) 4 239 3 2 = [[0, 0, 0], [0, 0xCD, 0]] := by decide +kernel

/-- V-PT. -/
theorem test_point_marks :
    bandsAfter (exec (.point 70 5 3) clean) 10 = [(5, 1)] ∧ bandsAfter (exec (.point 320 0 3) clean) 10 = [] := by
  decide +kernel

/-- V-GP, for the pixels of the whole machine filled with 4. -/
theorem test_getPixel :
    registersAfter (exec (.getPixel 319 479) { clean with bot := [(76800, some 4#8)] }) = [0, 0, 0, 4, 0, 0] ∧
    registersAfter (exec (.getPixel 320 0) { clean with top := [(76800, some 4#8)] }) = [0, 0, 0, 0, 0, 0] := by
  decide +kernel

/-- V-FS. -/
theorem test_fillScreen :
    picture (exec (.fillScreen 0x2A) State.reset) 319 239 1 2 = [[0x2A], [0x2A]] ∧
    bandsAfter (exec (.fillScreen 0x2A) clean) 2
      = [(0, 0), (0, 1), (0, 2), (0, 3), (0, 4), (1, 0), (1, 1), (1, 2), (1, 3), (1, 4)] := by decide +kernel

/-- V-CROP. -/
theorem test_crop :
    registersAfter (exec (.crop (-3) 10 320) clean) = [0, 0, 0, 0, 7, 6] ∧
    registersAfter (exec (.crop (-10) 10 320) clean) = [0, 0, 0, 0, 0, 0xFFFF] := by decide +kernel

/-- V-CROP, the last row. -/
theorem test_crop_long : registersAfter (exec (.crop (-1) 32767 32767) clean) = [0, 0, 0, 0, 0x7FFE, 0x7FFD] := by
  decide +kernel

/-- V-HL. -/
theorem test_hline :
    picture (exec (.hline 60 7 10 2) clean) 59 6 12 3
      = [[0, 0, 0, 0, 0, 0, 0, 0, 0, 0, 0, 0], [0, 2, 2, 2, 2, 2, 2, 2, 2, 2, 2, 0], [0, 0, 0, 0, 0, 0, 0, 0, 0, 0, 0, 0]] ∧
    bandsAfter (exec (.hline 60 7 10 2) clean) 12 = [(7, 0), (7, 1)] := by decide +kernel

/-- V-VL. -/
theorem test_vline :
    picture (exec (.vline 5 238 4 7) clean) 4 237 3 6
      = [[0, 0, 0], [0, 7, 0], [0, 7, 0], [0, 7, 0], [0, 7, 0], [0, 0, 0]] := by decide +kernel

/-- V-LN: a flat line, drawn from either end. -/
theorem test_line :
    picture (exec (.line 0 0 5 2 1) clean) 0 0 7 4
      = [[1, 1, 0, 0, 0, 0, 0], [0, 0, 1, 1, 0, 0, 0], [0, 0, 0, 0, 1, 1, 0], [0, 0, 0, 0, 0, 0, 0]] ∧
    picture (exec (.line 5 2 0 0 1) clean) 0 0 6 3 = [[1, 1, 0, 0, 0, 0], [0, 0, 1, 1, 0, 0], [0, 0, 0, 0, 1, 1]] := by
  decide +kernel

/-- V-LN: steep, the row falling. -/
theorem test_line_steep :
    lineCandidates 0 5 2 0 = [(2, 0), (2, 1), (1, 2), (1, 3), (0, 4), (0, 5)] ∧
    lineCandidates (-2) (-1) 3 2 = [(-2, -1), (-1, 0), (0, 0), (1, 1), (2, 1), (3, 2)] := by decide +kernel

/-- V-RECT. -/
theorem test_rect :
    picture (exec (.rect 10 10 4 3 9) clean) 10 10 5 4
      = [[9, 9, 9, 9, 0], [9, 0, 0, 9, 0], [9, 9, 9, 9, 0], [0, 0, 0, 0, 0]] ∧
    picture (exec (.rect (-1) (-1) 3 3 9) clean) 0 0 3 3 = [[0, 9, 0], [9, 9, 0], [0, 0, 0]] := by decide +kernel

/-- V-FRECT. -/
theorem test_frect :
    picture (exec (.frect (-2) (-2) 5 4 9) clean) 0 0 4 3 = [[9, 9, 9, 0], [9, 9, 9, 0], [0, 0, 0, 0]] ∧
    bandsAfter (exec (.frect 60 3 8 2 1) clean) 8 = [(3, 0), (3, 1), (4, 0), (4, 1)] := by decide +kernel

/-- V-TRI. -/
theorem test_tri :
    picture (exec (.tri 0 0 4 0 0 3 3) clean) 0 0 6 5
      = [[3, 3, 3, 3, 3, 0], [3, 0, 0, 3, 0, 0], [3, 3, 3, 0, 0, 0], [3, 0, 0, 0, 0, 0], [0, 0, 0, 0, 0, 0]] := by
  decide +kernel

/-- V-FTRI: the flat bottom. -/
theorem test_ftri :
    picture (exec (.ftri 0 0 0 3 4 3 1) clean) 0 0 6 5
      = [[1, 0, 0, 0, 0, 0], [1, 1, 0, 0, 0, 0], [1, 1, 1, 0, 0, 0], [1, 1, 1, 1, 1, 0], [0, 0, 0, 0, 0, 0]] := by
  decide +kernel

/-- V-FTRI: the runs of the first row of its table. -/
theorem test_ftri_spans :
    ftriSpans 10 0 0 3 10 6
      = [⟨10, 0, 1⟩, ⟨7, 1, 4⟩, ⟨4, 2, 7⟩, ⟨0, 3, 11⟩, ⟨3, 4, 8⟩, ⟨6, 5, 5⟩, ⟨10, 6, 1⟩] := by decide +kernel

/-- V-CIRC. -/
theorem test_circ :
    picture (exec (.circ 10 10 2 1) clean) 7 7 7 7
      = [[0, 0, 0, 0, 0, 0, 0], [0, 0, 1, 1, 1, 0, 0], [0, 1, 0, 0, 0, 1, 0], [0, 1, 0, 0, 0, 1, 0],
         [0, 1, 0, 0, 0, 1, 0], [0, 0, 1, 1, 1, 0, 0], [0, 0, 0, 0, 0, 0, 0]] := by decide +kernel

/-- V-CTRACE. -/
theorem test_circlePairs :
    circlePairs 6 = [(6, 0), (6, 1), (6, 2), (5, 3), (4, 4)] ∧ circlePairs 0 = [(0, 0)] ∧ circlePairs (-1) = [] := by
  decide +kernel

/-- S6. -/
theorem test_fcirc :
    picture (exec (.fcirc 10 10 3 1) clean) 6 6 9 9
      = [[0, 0, 0, 0, 0, 0, 0, 0, 0], [0, 0, 0, 1, 1, 1, 0, 0, 0], [0, 0, 1, 1, 1, 1, 1, 0, 0],
         [0, 1, 1, 1, 1, 1, 1, 1, 0], [0, 1, 1, 1, 1, 1, 1, 1, 0], [0, 1, 1, 1, 1, 1, 1, 1, 0],
         [0, 0, 1, 1, 1, 1, 1, 0, 0], [0, 0, 0, 1, 1, 1, 0, 0, 0], [0, 0, 0, 0, 0, 0, 0, 0, 0]] := by decide +kernel

/-- The 3 by 2 bitmap of V-BLIT. -/
def withBitmap : State := bytesAt 0x2000 [1, 2, 3, 4, 5, 6] clean

/-- V-BLIT: cut off on the left, and a stride shorter than the width. -/
theorem test_blit :
    picture (exec (.blit (-1) 0 3 2 3 0x2000) withBitmap) 0 0 3 3 = [[2, 3, 0], [5, 6, 0], [0, 0, 0]] ∧
    picture (exec (.blit 0 0 3 2 2 0x2000) withBitmap) 0 0 4 2 = [[1, 2, 3, 0], [3, 4, 5, 0]] := by decide +kernel

/-- V-F5: no wrap-around. -/
theorem test_blit_no_wrap :
    registersAfter (exec (.blit 0 0 2 1 2 0xFFFFFFFF) withBitmap) = [1, 3, 0, 0, 0, 0] := by decide +kernel

/-- V-BLITK. -/
theorem test_blitk :
    picture (exec (.blitk 0 0 3 2 3 0x2000 5) { withBitmap with top := [(76800, some 8#8)] }) 0 0 4 2
      = [[1, 2, 3, 8], [4, 8, 6, 8]] := by decide +kernel

/-- V-GRAB. -/
theorem test_grab :
    memoryAfter (exec (.grab (-1) (-1) 3 3 3 0x5000) { clean with top := [(76800, some 7#8)] }) 0x5000 9
      = [0, 0, 0, 0, 7, 7, 0, 7, 7] := by decide +kernel

/-- V-XF, 45 degrees. -/
theorem test_xform_45 :
    memoryAfter (exec (.xform 0x2000 3 2 3 256 256 45 0x4000 9) withBitmap) 0x4000 17
      = [9, 1, 9, 9, 4, 4, 2, 9, 9, 5, 6, 3, 9, 9, 6, 9, 0] := by decide +kernel

/-- V-XF, -90 degrees; V-XF3. -/
theorem test_xform_turn :
    memoryAfter (exec (.xform 0x2000 3 2 3 256 256 (-90) 0x4000 9) withBitmap) 0x4000 6 = [3, 6, 2, 5, 1, 4] ∧
    registersAfter (exec (.xform 0x2000 32767 1 1 512 256 0 0x4000 9) withBitmap) = [1, 2, 0, 0, 0, 0] := by
  decide +kernel

/-- V-MONO. -/
theorem test_mono :
    picture (exec (.mono 0 0 10 2 0x300 3) (bytesAt 0x300 [0x80, 0x40, 0x01, 0x80] clean)) 0 0 11 3
      = [[3, 0, 0, 0, 0, 0, 0, 0, 0, 3, 0], [0, 0, 0, 0, 0, 0, 0, 3, 3, 0, 0], [0, 0, 0, 0, 0, 0, 0, 0, 0, 0, 0]] := by
  decide +kernel

/-- An instance whose valid addresses are `first..last`. -/
def validOnly (first last : Nat) (s : State) : State :=
  { s with cfg := { s.cfg with hvalid := [(first, last)] } }

/-- P4: the second row of the bitmap may not be read; the first is drawn. -/
theorem test_mono_fault :
    picture (exec (.mono 0 0 8 2 0x5FFF 1) (validOnly 0x1000 0x5FFF (bytesAt 0x5FFF [0x81] clean))) 0 0 9 2
      = [[1, 0, 0, 0, 0, 0, 0, 1, 0], [0, 0, 0, 0, 0, 0, 0, 0, 0]] ∧
    registersAfter (exec (.mono 0 0 8 2 0x5FFF 1) (validOnly 0x1000 0x5FFF (bytesAt 0x5FFF [0x81] clean)))
      = [1, 3, 0x6000, 0, 0, 0] := by decide +kernel

/-- V-S2X: the L. -/
theorem test_mono2x :
    picture (exec (.mono2x 0 0 2 2 0x200 1) (bytesAt 0x200 [0x80, 0xC0] clean)) 0 0 5 5
      = [[1, 1, 0, 0, 0], [1, 1, 1, 0, 0], [1, 1, 1, 1, 0], [0, 1, 1, 1, 0], [0, 0, 0, 0, 0]] := by decide +kernel

/-- The font of the vectors: 4 by 2 at 0x1000, glyphs A and B. -/
def withFont : State :=
  bytesAt 0x1082 [0xF0, 0x90, 0x80, 0xF0]
    { clean with fontAddr := 0x1000#32, fontW := 4, fontH := 2, fontV := true }

/-- V-FONT. -/
theorem test_font :
    (match exec (.font 0x1000 4 2) clean with
      | .next t => (t.fontAddr.toNat, t.fontW.toNat, t.fontH.toNat, t.fontV, glyphAddr t 0x41)
      | _ => (0, 0, 0, false, 0)) = (0x1000, 4, 2, true, 0x1082) ∧
    registersAfter (exec (.font 0x1000 4 (-1)) clean) = [1, 2, 0xFFFF, 0, 0, 0] := by decide +kernel

/-- V-CHAR; V-F3. -/
theorem test_char :
    picture (exec (.char 10 10 0x41 5) withFont) 9 9 6 4
      = [[0, 0, 0, 0, 0, 0], [0, 5, 5, 5, 5, 0], [0, 5, 0, 0, 5, 0], [0, 0, 0, 0, 0, 0]] ∧
    registersAfter (exec (.char 0 0 0x41 1) clean) = [1, 4, 0, 0, 0, 0] := by decide +kernel

/-- V-CHAR. -/
theorem test_char2x :
    picture (exec (.char2x 0 0 0x41 5) withFont) 0 0 8 4
      = [[0, 5, 5, 5, 5, 5, 5, 0], [5, 5, 5, 5, 5, 5, 5, 5], [5, 5, 5, 0, 0, 5, 5, 5], [5, 5, 0, 0, 0, 0, 5, 5]] := by
  decide +kernel

/-- V-STR1. -/
theorem test_str :
    picture (exec (.str 10 10 0x3000 6 5) (bytesAt 0x3000 [0x41, 0x42, 0x0A, 0x41, 0x08, 0x42] withFont)) 10 10 9 5
      = [[5, 5, 5, 5, 5, 0, 0, 0, 0], [5, 0, 0, 5, 5, 5, 5, 5, 0], [5, 5, 5, 5, 0, 0, 0, 0, 0],
         [5, 5, 5, 5, 0, 0, 0, 0, 0], [0, 0, 0, 0, 0, 0, 0, 0, 0]] := by decide +kernel

/-- V-STR2X, the advance doubled. -/
theorem test_str2x :
    picture (exec (.str2x 0 0 0x3000 2 5) (bytesAt 0x3000 [0x41, 0x42] withFont)) 0 0 16 4
      = [[0, 5, 5, 5, 5, 5, 5, 0, 5, 5, 0, 0, 0, 0, 0, 0], [5, 5, 5, 5, 5, 5, 5, 5, 5, 5, 5, 0, 0, 0, 0, 0],
         [5, 5, 5, 0, 0, 5, 5, 5, 5, 5, 5, 5, 5, 5, 5, 5], [5, 5, 0, 0, 0, 0, 5, 5, 0, 5, 5, 5, 5, 5, 5, 5]] := by
  decide +kernel

/-- A small instance: W = 6, H = 4, K = 2, BAND_W = 4 (so NB = 2, the last band 2 wide), THRESH = 2. -/
def small : State :=
  { clean with
    cfg := { hardware with w := 6, h := 4, k := 2, bandW := 4, thresh := 2, fifoDepth := 11 }
    top := [(5, some 0#8), (1, some 3#8), (6, some 0#8)]
    bot := [(12, some 1#8)]
    pal := [0x0000#16, 0x001F#16, 0x07E0#16, 0xF800#16] ++ List.replicate 252 0#16
    dirty := [false, true, false, false, false, false, true, false] }

/-- R203, R204 by hand: two dirty bands are not more than THRESH, so all rows are sent. -/
theorem test_flush :
    sinkAfter (exec .flush small)
      = [.setWindow 4 0 2 1, .writePixels [0x0000#16, 0xF800#16],
         .setWindow 0 3 4 1, .writePixels [0x001F#16, 0x001F#16, 0x001F#16, 0x001F#16]] := by decide +kernel

/-- R203, R205 by hand: four dirty bands are more than THRESH, so with PARITY 0 only the even rows are sent and cleared,
and PARITY and ILACE become 1. -/
theorem test_flush_interlaced :
    (match exec .flush { small with dirty := [true, false, true, false, false, true, false, true] } with
      | .next t => (t.dirty, t.parity, t.ilace, t.sink.length)
      | _ => ([], false, false, 0))
      = ([false, false, true, false, false, false, false, true], true, true, 4) := by decide +kernel

/-! ## Witnesses: states and operands that meet the hypotheses of the statements

Statements whose only hypothesis on the state is `Sound` have their witness in `test_witness_sound`; the extremes of
`DecodeOfEncode` stand in `test_wellFormed_accepts_extremes`. -/

theorem test_witness_sound : clean.Sound ∧ withBitmap.Sound ∧ withFont.Sound ∧ small.Sound :=
  ⟨by decide +kernel, by decide +kernel, by decide +kernel, by decide +kernel⟩

theorem test_witness_configWf : ConfigWf hardware ∧ ConfigWf small.cfg := by decide +kernel

/-- With every address valid, all of 0..2^32-1 may be accessed. -/
theorem accessible_of_lt {s : State} (hs : s.cfg = hardware) (a : Int) (h : 0 ≤ a) (h' : a < 4294967296) :
    Accessible s.cfg a := by
  rw [hs, accessible_iff]
  refine ⟨h, h', ?_⟩
  simp [hValid, hardware]
  omega

/-- IllegalHeadersFault, at the first and the last illegal opcode. -/
theorem test_witness_illegalHeaders :
    (∃ r ∈ illegalOpcodes, r.1 ≤ (0x0400#16).toNat / 256 ∧ (0x0400#16).toNat / 256 ≤ r.2) ∧
    (∃ r ∈ illegalOpcodes, r.1 ≤ (0xFFFF#16).toNat / 256 ∧ (0xFFFF#16).toNat / 256 ≤ r.2) ∧
    clean.inputs = [] ∧ clean.fault = false ∧ clean.cur = none := by decide +kernel

/-- StepRunsDecodedCommand: a command to fetch, and one in execution. -/
theorem test_witness_stepRuns :
    decode ({ clean with fifo := [0x1201#16, 0x8000#16] } : State).fifo = .command (.fillScreen 1#8) [0x8000#16] ∧
    ({ clean with cur := some .flush, inputs := [.engineTurn] } : State).cur = some .flush := by decide +kernel

/-- EngineWaits: the fault state, an empty FIFO, one operand word short. -/
theorem test_witness_engineWaits :
    ({ clean with fault := true } : State).fault = true ∧ clean.fifo = [] ∧
    opOf (opcodeOf 0x1103#16) = some .point ∧ [0x0046#16].length < Op.point.operandWords := by decide +kernel

theorem test_witness_beginThenTurn :
    ({ clean with inputs := [.engineBegin, .engineTurn], fifo := [0x8000#16] } : State).inputs
      = .engineBegin :: .engineTurn :: [] ∧ clean.cur = none := by decide +kernel

/-- StepKeepsInvariant: a fetch, and a command in execution while a write to CMD finds the FIFO full. -/
theorem test_witness_stepKeepsInvariant :
    State.Inv { clean with fifo := [0x1103#16, 0x0046#16, 0x0005#16] } ∧
    isNext (step { clean with fifo := [0x1103#16, 0x0046#16, 0x0005#16] }) = true ∧
    State.Inv { small with
      fifo := List.replicate 11 0#16, cur := some .flush, fstate := .flushing, inputs := [.regWrite 0 16 0#16] } ∧
    isNext (step { small with
      fifo := List.replicate 11 0#16, cur := some .flush, fstate := .flushing, inputs := [.regWrite 0 16 0#16] })
      = true :=
  ⟨by decide +kernel, by decide +kernel, by decide +kernel, by decide +kernel⟩

/-- CommandFaultEntry and CommandFootprints: a command that faults and one that does not; in the fault state too. -/
theorem test_witness_commands :
    isNext (exec (.palLoad 0x1000 257) clean) = true ∧ isNext (exec .nop clean) = true ∧
    isNext (exec (.palLoad 0x1000 257) { clean with fault := true, fcause := 5 }) = true := by decide +kernel

/-- What CommandFaultEntry says of FINFO, of an operand and of an address that wraps nowhere (V-F5). -/
theorem test_witness_raisesWith :
    raisesWith (.palLoad 0x1000 257) clean .badOperand 257 ∧ ¬ raisesWith (.palLoad 0x1000 257) clean .badOperand 256 ∧
    raisesWith (.blit 0 0 2 1 2 0xFFFFFFFF) clean .hostMemFault 0x100000000 ∧
    ¬ raisesWith (.blit 0 0 2 1 2 0xFFFFFFFF) clean .hostMemFault 0x100000001 := by
  refine ⟨.inl ⟨rfl, by decide, rfl⟩, ?_, .inr ⟨rfl, ⟨1, 0, by decide, by decide⟩, by decide⟩, ?_⟩
  · rintro (⟨_, _, h⟩ | ⟨h, _⟩)
    · exact absurd h (by decide)
    · cases h
  · rintro (h | ⟨_, ⟨px, py, ⟨_, _, h1, h2, h3⟩, h⟩, _⟩)
    · exact h
    · unfold blitAddr at h
      omega

/-- ChangedPixelsAreDirty. -/
theorem test_witness_changedPixels :
    clean.Sound ∧ isNext (exec (.point 70 5 3) clean) = true ∧ Instr.point 70 5 3 ≠ .flush := by decide +kernel

/-- OnlyResetLeavesFaultState: an ignored write, and a reset. -/
theorem test_witness_onlyReset :
    isNext (step { clean with fault := true, fcause := 1, inputs := [.regWrite 0 16 0x1201#16] }) = true ∧
    isNext (step { clean with fault := true, fcause := 1, inputs := [.hwReset] }) = true := by decide +kernel

/-- ResetProcedure and AbandonedCommandLeavesPrefix: both triggers, a FLUSH in execution that would send, and a GRAB in
execution that would write host memory. -/
theorem test_witness_reset :
    isReset .hwReset ∧ isReset (.regWrite 0x10 16 1#16) ∧ ¬ isReset (.regWrite 0x10 16 0xFFFE#16) ∧
    State.Sound { small with cur := some .flush, inputs := [.hwReset] } ∧
    sinkAfter (exec .flush { small with cur := some .flush, inputs := [] }) ≠ [] ∧
    memoryAfter (exec (.grab 4 0 2 1 2 0x5000)
      { small with cur := some (.grab 4 0 2 1 2 0x5000), inputs := [] }) 0x5000 2 = [0, 3] := by
  refine ⟨.inl rfl, .inr ⟨1#16, by decide, rfl⟩, ?_, by decide +kernel, by decide +kernel, by decide +kernel⟩
  rintro (h | ⟨v, hv, h⟩)
  · cases h
  · cases h
    exact absurd hv (by decide)

/-- CmdWrite: the fault state, the last free word, and a full FIFO. -/
theorem test_witness_cmdWrite :
    ({ clean with fault := true } : State).fault = true ∧
    (List.replicate 63 0#16).length < clean.cfg.fifoDepth ∧ (List.replicate 64 0#16).length = clean.cfg.fifoDepth := by
  decide +kernel

/-- StatusBits: a command in execution when the FIFO overran. -/
theorem test_witness_statusBits :
    State.Inv { clean with
      fault := true, fcause := 5, finfo := 0x1205#32, cur := some (.fillScreen 1), inputs := [.regRead 2 16] } := by
  decide +kernel

/-- RegisterBlock: the first and the last register, the offsets beside them, another width. -/
theorem test_witness_registerBlock :
    ((0x00, 0#16) : Nat × Word) ∈ [((0x00 : Nat), 0#16), (0x10, 0#16)] ∧ hardware.fifoDepth - 0 < 65536 ∧
    0x12 ∈ [0x02, 0x04, 0x06, 0x08, 0x0A, 0x0C, 0x0E, 0x12] ∧ (0xFFFE#16).getLsbD 0 = false ∧
    0x01 ∉ [0x00, 0x02, 0x04, 0x06, 0x08, 0x0A, 0x0C, 0x0E, 0x10, 0x12] ∧
    0x14 ∉ [0x00, 0x02, 0x04, 0x06, 0x08, 0x0A, 0x0C, 0x0E, 0x10, 0x12] ∧ (8 : Nat) ≠ 16 := by decide

/-- HostMemoryWrite: the last colour byte of an executing PAL_LOAD, and the byte behind it. -/
theorem test_witness_byteInUse_executing :
    ByteInUse { clean with cur := some (.palLoad 0x1000 256) } 0x11FF ∧
    ¬ ByteInUse { clean with cur := some (.palLoad 0x1000 256) } 0x1200 := by
  refine ⟨⟨[], [], [], _, [], rfl, rfl, by decide, by decide, by decide⟩, ?_⟩
  rintro ⟨l, before, after, i, rest, hl, he, hu⟩
  cases l with
  | cons j l =>
    obtain ⟨_, h, _⟩ := hl
    cases h
  | nil =>
    cases before with
    | nil =>
      cases he
      exact absurd hu.2.2 (by decide)
    | cons b before =>
      have := congrArg List.length he
      simp at this

/-- HostMemoryWrite: the first and the last byte of the font table that a queued CHAR uses, the font being the one a FONT
queued before it sets; and the model's answer. -/
theorem test_witness_byteInUse_queued :
    ∀ s : State, s = { clean with
      fifo := [0x7200#16, 0x1000#16, 0x0000#16, 0x0004#16, 0x0002#16, 0x7301#16, 0x0000#16, 0x0000#16, 0x0041#16] } →
    ByteInUse s 0x1000 ∧ ByteInUse s 0x11FF ∧ bufferInUse 0x11FF s = true ∧ bufferInUse 0x1200 s = false := by
  rintro s rfl
  have hd : decodesTo [.font 0x1000 4 2, .char 0 0 0x41#8 1#8]
      [0x7200#16, 0x1000#16, 0x0000#16, 0x0004#16, 0x0002#16, 0x7301#16, 0x0000#16, 0x0000#16, 0x0041#16] [] :=
    ⟨[0x7301#16, 0x0000#16, 0x0000#16, 0x0041#16], by decide, [], by decide, rfl⟩
  exact ⟨⟨_, [.font 0x1000 4 2], [], .char 0 0 0x41#8 1#8, [], hd, rfl, by decide +kernel, by decide +kernel, by decide +kernel⟩,
    ⟨_, [.font 0x1000 4 2], [], .char 0 0 0x41#8 1#8, [], hd, rfl, by decide +kernel, by decide +kernel, by decide +kernel⟩,
    by decide +kernel, by decide +kernel⟩

/-- HostMemoryWrite: the last byte of each other kind of region. -/
theorem test_witness_usesByte :
    usesByte (.blitk 0 0 3 2 3 0x2000 5) clean 0x2005 ∧ usesByte (.grab (-1) (-1) 3 3 3 0x5000) clean 0x5008 ∧
    usesByte (.xform 0x2000 3 2 3 256 256 90 0x4000 9) clean 0x2005 ∧
    usesByte (.xform 0x2000 3 2 3 256 256 90 0x4000 9) clean 0x4005 ∧
    usesByte (.mono 0 0 10 2 0x300 3) clean 0x303 ∧ usesByte (.str2x 0 0 0x3000 6 1) clean 0x3005 := by
  refine ⟨⟨2, 1, by decide, by decide⟩, ⟨1, 1, by decide, by decide⟩, ?_, ?_,
    ⟨by decide, by decide, by decide, by decide⟩, .inl ⟨by decide, by decide⟩⟩
  · exact ⟨by decide, by decide +kernel, by decide +kernel, .inl ⟨2, 1, by decide, by decide⟩⟩
  · exact ⟨by decide, by decide +kernel, by decide +kernel, .inr ⟨by decide, by decide +kernel⟩⟩

/-- PalLoadRoundTrip: a full table, and V-PAL1's two colours. -/
theorem test_witness_palLoad :
    (∀ i : Nat, i < 256 →
      Accessible clean.cfg ((0x1000 : Nat) + 2 * i) ∧ memByte clean ((0x1000 : Nat) + 2 * i) = 0#8 ∧
      Accessible clean.cfg ((0x1000 : Nat) + 2 * i + 1) ∧ memByte clean ((0x1000 : Nat) + 2 * i + 1) = 0#8) ∧
    (∀ i : Nat, i < 2 →
      memByte (bytesAt 0x1000 [0x34, 0x12, 0x78, 0x56] clean) ((0x1000 : Nat) + 2 * i)
        = ([0x1234#16, 0x5678#16].getD i 0).extractLsb' 0 8 ∧
      memByte (bytesAt 0x1000 [0x34, 0x12, 0x78, 0x56] clean) ((0x1000 : Nat) + 2 * i + 1)
        = ([0x1234#16, 0x5678#16].getD i 0).extractLsb' 8 8) := by decide +kernel

/-- PalLoadStops: V-PAL6, and the load stopped by a first byte. -/
theorem test_witness_palLoadStops :
    (∀ i : Nat, i < 2 → Accessible (validOnly 0x1000 0x1004 clean).cfg ((0x1000 : Nat) + 2 * i) ∧
      Accessible (validOnly 0x1000 0x1004 clean).cfg ((0x1000 : Nat) + 2 * i + 1)) ∧
    Accessible (validOnly 0x1000 0x1004 clean).cfg 0x1004 ∧ ¬ Accessible (validOnly 0x1000 0x1004 clean).cfg 0x1005 ∧
    ¬ Accessible (validOnly 0x1000 0x1003 clean).cfg 0x1004 := by decide +kernel

/-- PointThenGetPixel and GetPixelReads: the corners, both sides of the sector boundary, outside. -/
theorem test_witness_inCanvas :
    InCanvas hardware 0 0 ∧ InCanvas hardware 319 479 ∧ translate hardware 5 239 = some (.top, 76485) ∧
    translate hardware 5 240 = some (.bot, 5) ∧ ¬ InCanvas hardware 320 0 ∧ ¬ InCanvas hardware 0 480 := by decide

/-- CropLaws and CropCommand: V-CROP's extremes, with and without a visible part. -/
theorem test_witness_crop :
    isS16 (-32768) = true ∧ isS16 32767 = true ∧ crop (-1) 32767 32767 = (0, 32766, some 32765) ∧
    crop (-32768) 32767 480 = (0, 0, none) := by decide

/-- LineClosedForm: flat, at 45 degrees, steep. -/
theorem test_witness_line :
    ((0 : Int) < 5 ∧ |(2 : Int) - 0| ≤ 5 - 0 ∧ (0 : Int) ≠ 2) ∧ ((0 : Int) < 3 ∧ |(3 : Int) - 0| ≤ 3 - 0) ∧
    ((0 : Int) < 5 ∧ |(2 : Int) - 0| < 5 - 0) := by decide

/-- FtriDraws and FtriVertexOrder: V-FTRI's first triangle, in another order. -/
theorem test_witness_ftri :
    sortByY (10, 6) (10, 0) (0, 3) = ((10, 0), (0, 3), (10, 6)) ∧ sortByY (0, 0) (4, 0) (0, 3) = ((0, 0), (4, 0), (0, 3)) ∧
    [((10, 6) : Int × Int), (10, 0), (0, 3)].Perm [(10, 0), (0, 3), (10, 6)] := by decide

/-- BlitsDraw, GrabCopies and GrabThenBlitRestores: the bitmap of V-BLIT, and one pixel at the last address. -/
theorem test_witness_blit :
    BlitAccessible withBitmap 0 0 3 2 3 0x2000 ∧ BlitAccessible withBitmap 319 479 1 1 1 0xFFFFFFFF ∧
    (3 : Int) ≤ (3 : Nat) := by
  refine ⟨?_, ?_, by decide⟩
  all_goals
    rintro px py ⟨_, h1, h2, h3, h4⟩
    unfold blitAddr
    exact accessible_of_lt rfl _ (by omega) (by omega)

/-- BlitsFaultKeepsPixelsBefore: V-F4. -/
theorem test_witness_blitFault :
    (validOnly 0x1000 0x1FFF clean).Sound ∧ BlitStopsAt (validOnly 0x1000 0x1FFF clean) 0 0 2 2 2 0x1FFE 0 1 := by
  refine ⟨by decide +kernel, by decide +kernel, by decide +kernel, ?_⟩
  rintro px py ⟨_, h1, h2, h3, h4⟩ hb
  have hb : py < 1 ∨ py = 1 ∧ px < 0 := hb
  rw [accessible_iff]
  unfold blitAddr
  refine ⟨by omega, by omega, ?_⟩
  simp [hValid, validOnly]
  omega

/-- XformInverseMap: the numbers of R173 and of R175's example. -/
theorem test_witness_xformInverseMap :
    [sinQ 45, cosQ 45, sinQ (-30), cosQ (-30), sinQ 135, cosQ 135] = [23170, 23170, -16384, 28378, 23170, -23170] ∧
    xformWidth 3 2 256 256 90 = 2 ∧ xformHeight 3 2 256 256 90 = 3 ∧ xformSource 3 2 256 256 90 2 3 0 0 = (0, 1) := by
  decide +kernel

/-- The copies of a 2 by 1 bitmap to the byte behind its start: the second reads what the first wrote. -/
theorem test_xformCopies :
    xformCopies 0x2000 2 1 2 256 256 0 0x2001 2 1 = [(some 0x2000, 0x2001), (some 0x2001, 0x2002)] ∧
    memoryAfter (exec (.xform 0x2000 2 1 2 256 256 0 0x2001 9) withBitmap) 0x2000 4 = [1, 1, 1, 4] := by
  decide +kernel

/-- XformRunsInOrder: those copies, all accessible; the second's destination not; the first's source not. -/
theorem test_witness_xformRuns :
    ¬ XformEmpty 2 1 256 256 ∧ xformWidth 2 1 256 256 0 = 2 ∧ xformHeight 2 1 256 256 0 = 1 ∧
    (∀ q ∈ [((some 0x2000, 0x2001) : Option Int × Int), (some 0x2001, 0x2002)], CopyAccessible withBitmap.cfg q) ∧
    CopyAccessible (validOnly 0x2000 0x2001 withBitmap).cfg (some 0x2000, 0x2001) ∧
    CopyStopsAt (validOnly 0x2000 0x2001 withBitmap).cfg (some 0x2001, 0x2002) 0x2002 ∧
    CopyStopsAt (validOnly 0x2001 0x2002 withBitmap).cfg (some 0x2000, 0x2001) 0x2000 := by
  refine ⟨by decide, by decide +kernel, by decide +kernel, ?_, ⟨?_, by decide +kernel⟩, ⟨by decide +kernel, .inr ⟨rfl, ?_⟩⟩,
    ⟨by decide +kernel, .inl rfl⟩⟩
  · intro q hq
    simp only [List.mem_cons, List.not_mem_nil, or_false] at hq
    rcases hq with rfl | rfl <;> refine ⟨?_, by decide +kernel⟩ <;> rintro a h <;> cases h <;> decide +kernel
  · rintro a h
    cases h
    decide +kernel
  · rintro a h
    cases h
    decide +kernel

/-- XformWrites: V-XF's source and destination at 45 degrees. -/
theorem test_witness_xformWrites :
    ¬ XformEmpty 3 2 256 256 ∧ xformWidth 3 2 256 256 45 = 4 ∧ xformHeight 3 2 256 256 45 = 4 ∧
    (∀ i j : Nat, (i : Int) < 4 → (j : Int) < 4 → Accessible withBitmap.cfg ((0x4000 : Nat) + (j : Int) * 4 + i)) ∧
    (∀ i j : Nat, (i : Int) < 4 → (j : Int) < 4 → ∀ q, q = xformSource 3 2 256 256 45 4 4 i j → InSource 3 2 q →
      Accessible withBitmap.cfg ((0x2000 : Nat) + q.2 * (3 : Nat) + q.1) ∧
        ∀ i' j' : Nat, (i' : Int) < 4 → (j' : Int) < 4 →
          ((0x2000 : Nat) : Int) + q.2 * (3 : Nat) + q.1 ≠ (0x4000 : Nat) + (j' : Int) * 4 + i') := by
  refine ⟨by decide, by decide +kernel, by decide +kernel, fun i j hi hj => ?_, ?_⟩
  · exact accessible_of_lt rfl _ (by omega) (by omega)
  · rintro i j hi hj q rfl ⟨h1, h2, h3, h4⟩
    exact ⟨accessible_of_lt rfl _ (by omega) (by omega), fun i' j' hi' hj' => by omega⟩

/-- XformIdentity: V-XF's source, a whole turn. -/
theorem test_witness_xformIdentity :
    (360 : Int) % 360 = 0 ∧ ∀ i j : Int, 0 ≤ i → i < 3 → 0 ≤ j → j < 2 →
      Accessible withBitmap.cfg ((0x2000 : Nat) + j * (3 : Nat) + i) ∧
      Accessible withBitmap.cfg ((0x4000 : Nat) + j * 3 + i) ∧
      ∀ i' j' : Int, 0 ≤ i' → i' < 3 → 0 ≤ j' → j' < 2 →
        ((0x2000 : Nat) : Int) + j * (3 : Nat) + i ≠ (0x4000 : Nat) + j' * 3 + i' := by
  refine ⟨by decide, fun i j h1 h2 h3 h4 => ⟨?_, ?_, fun i' j' h5 h6 h7 h8 => by omega⟩⟩
  · exact accessible_of_lt rfl _ (by omega) (by omega)
  · exact accessible_of_lt rfl _ (by omega) (by omega)

/-- XformExactCases and XformEarlyEnds: V-XF3's sizes beyond and at the bound. -/
theorem test_witness_xformSizes :
    (180 : Int) % 360 = 180 ∧ (-270 : Int) % 360 = 90 ∧ (-90 : Int) % 360 = 270 ∧ (-360 : Int) % 360 = 0 ∧
    32767 < xformWidth 32767 1 512 256 0 ∧ xformWidth 32767 1 256 256 0 = 32767 := by decide +kernel

/-- MonoDraws: V-MONO's bitmap, and an empty one. -/
theorem test_witness_mono : MonoReadable clean 0x300 10 2 ∧ MonoReadable clean 0xFFFFFFFF 0 5 := by
  constructor
  · intro r c h1 h2 h3 h4
    have hr : rowBytes 10 = 2 := by decide
    unfold monoAddr
    rw [hr]
    exact accessible_of_lt rfl _ (by omega) (by omega)
  · intro r c h1 h2 h3 h4
    omega

/-- FontSets: the smallest and the largest size, and sizes below 1. -/
theorem test_witness_font :
    (Instr.font 4294967295 1 32767).wellFormed = true ∧ (Instr.font 0 0 (-1)).wellFormed = true ∧
    (Instr.font 0 1 0).wellFormed = true := by decide

/-- CharDraws: V-FONT's glyph of 0x41. -/
theorem test_witness_char : withFont.fontV = true ∧ glyphAddr withFont 0x41 = 0x1082 ∧
    MonoReadable withFont (glyphAddr withFont 0x41) withFont.fontW.toNat withFont.fontH.toNat := by
  refine ⟨rfl, by decide +kernel, ?_⟩
  have hg : glyphAddr withFont 0x41 = 0x1082 := by decide +kernel
  have hw : ((withFont.fontW.toNat : Nat) : Int) = 4 := by decide +kernel
  have hh : ((withFont.fontH.toNat : Nat) : Int) = 2 := by decide +kernel
  have hr : rowBytes 4 = 1 := by decide
  rw [hg, hw, hh]
  intro r c h1 h2 h3 h4
  unfold monoAddr
  rw [hr]
  exact accessible_of_lt rfl _ (by omega) (by omega)

/-- StringsDraw: a string of a glyph, a newline and a backspace, and the empty string, every hypothesis of the statement. -/
theorem test_witness_string :
    ∀ s : State, s = bytesAt 0x3000 [0x41, 0x0A, 0x08] withFont →
    s.Sound ∧ s.fontV = true ∧ stringBytes s 0x3000 3 = [0x41#8, 0x0A#8, 0x08#8] ∧
    (∀ k : Nat, k < 3 → Accessible s.cfg (stringAddr 0x3000 k)) ∧ GlyphsReadable s 0x3000 3 ∧
    GlyphsReadable s 0x3000 0 := by
  rintro s rfl
  have hb : stringBytes (bytesAt 0x3000 [0x41, 0x0A, 0x08] withFont) 0x3000 3 = [0x41#8, 0x0A#8, 0x08#8] := by
    decide +kernel
  refine ⟨by decide +kernel, rfl, hb, by decide +kernel, ?_, ?_⟩
  · intro b h h8 hA
    rw [hb] at h
    simp only [List.mem_cons, List.not_mem_nil, or_false, h8, hA] at h
    subst h
    exact test_witness_char.2.2
  · intro b h
    cases h

/-- GlyphFaultKeepsPixelsBefore: P4's MONO stops in its second row, MONO2X already in its first pass, which reads the row
below; CHAR and CHAR2X in the second row of their glyph. -/
theorem test_witness_glyphFault :
    PassStopsAt (validOnly 0x1000 0x5FFF clean).cfg 8 2 (monoReads 0x5FFF 8) 1 0 0x6000 ∧
    PassStopsAt (validOnly 0x1000 0x5FFF clean).cfg 8 2 (mono2xReads 0x5FFF 8 2) 0 0 0x6000 ∧
    (validOnly 0x1000 0x1082 withFont).Sound ∧ glyphAddr (validOnly 0x1000 0x1082 withFont) 0x41 = 0x1082 ∧
    PassStopsAt (validOnly 0x1000 0x1082 withFont).cfg 4 2 (monoReads 0x1082 4) 1 0 0x1083 ∧
    PassStopsAt (validOnly 0x1000 0x1082 withFont).cfg 4 2 (mono2xReads 0x1082 4 2) 0 0 0x1083 := by
  have h8 : rowBytes 8 = 1 := by decide
  have h4 : rowBytes 4 = 1 := by decide
  refine ⟨⟨by decide, by decide, by decide, by decide, by decide +kernel, ?_⟩,
    ⟨by decide, by decide, by decide, by decide, by decide +kernel, ?_⟩, by decide +kernel, by decide +kernel,
    ⟨by decide, by decide, by decide, by decide, by decide +kernel, ?_⟩,
    ⟨by decide, by decide, by decide, by decide, by decide +kernel, ?_⟩⟩
  all_goals
    intro r c h1 h2 h3 h5 hb b hm
    unfold PixelBefore at hb
  · simp only [monoReads, List.mem_singleton] at hm
    rw [hm, accessible_iff]
    unfold monoAddr
    rw [h8]
    refine ⟨by omega, by omega, ?_⟩
    simp [hValid, validOnly]
    omega
  · omega
  · simp only [monoReads, List.mem_singleton] at hm
    rw [hm, accessible_iff]
    unfold monoAddr
    rw [h4]
    refine ⟨by omega, by omega, ?_⟩
    simp [hValid, validOnly]
    omega
  · omega

/-- Where the two bytes of the glyph of 0x41 are valid addresses, it may be read. -/
theorem glyphA_readable {first last : Nat} (h1 : first ≤ 0x1082) (h2 : 0x1083 ≤ last) (a : Nat) (bs : List Nat) :
    MonoReadable (validOnly first last (bytesAt a bs withFont)) (glyphAddr (validOnly first last (bytesAt a bs withFont)) 0x41#8)
      (validOnly first last (bytesAt a bs withFont)).fontW.toNat (validOnly first last (bytesAt a bs withFont)).fontH.toNat := by
  have hg : glyphAddr withFont 0x41#8 = 0x1082 := by decide +kernel
  have hr : rowBytes 4 = 1 := by decide
  intro r c h3 h4 h5 h6
  change r < 2 at h4
  change c < 4 at h6
  change Accessible _ (monoAddr (glyphAddr withFont 0x41#8) 4 r c)
  rw [hg, accessible_iff]
  unfold monoAddr
  rw [hr]
  refine ⟨by omega, by omega, ?_⟩
  simp [hValid, validOnly]
  omega

/-- StringFaultKeepsGlyphsBefore: the second byte of a string may not be read, all hypotheses together. -/
theorem test_witness_stringFault :
    ∀ s : State, s = validOnly 0x1082 0x3000 (bytesAt 0x3000 [0x41, 0x42] withFont) →
    s.Sound ∧ s.fontV = true ∧ (∀ k : Nat, k < 1 → Accessible s.cfg (stringAddr 0x3000 k)) ∧ GlyphsReadable s 0x3000 1 ∧
    ¬ Accessible s.cfg (stringAddr 0x3000 1) := by
  rintro s rfl
  have hb : stringBytes (validOnly 0x1082 0x3000 (bytesAt 0x3000 [0x41, 0x42] withFont)) 0x3000 1 = [0x41#8] := by
    decide +kernel
  refine ⟨by decide +kernel, rfl, by decide +kernel, ?_, by decide +kernel⟩
  intro b h _ _
  rw [hb, List.mem_singleton] at h
  rw [h]
  exact glyphA_readable (by decide) (by decide) _ _

/-- StringFaultKeepsGlyphsBefore: the second glyph of a string may not be read, all hypotheses together, at 1x and 2x. -/
theorem test_witness_stringFault_glyph :
    ∀ s : State, s = validOnly 0x0F00 0x1083 (bytesAt 0x0F00 [0x41, 0x42] withFont) →
    s.Sound ∧ s.fontV = true ∧ (∀ k : Nat, k < 2 → Accessible s.cfg (stringAddr 0x0F00 k)) ∧ GlyphsReadable s 0x0F00 1 ∧
    strWalk s 0x0F00 2 = strWalk s 0x0F00 1 ++ [(4, 0, 0x42#8)] ∧
    str2xWalk s 0x0F00 2 = str2xWalk s 0x0F00 1 ++ [(8, 0, 0x42#8)] ∧
    PassStopsAt s.cfg 4 2 (monoReads (glyphAddr s 0x42#8) 4) 0 0 0x1084 ∧
    PassStopsAt s.cfg 4 2 (mono2xReads (glyphAddr s 0x42#8) 4 2) 0 0 0x1084 := by
  rintro s rfl
  have hb : stringBytes (validOnly 0x0F00 0x1083 (bytesAt 0x0F00 [0x41, 0x42] withFont)) 0x0F00 1 = [0x41#8] := by
    decide +kernel
  refine ⟨by decide +kernel, rfl, by decide +kernel, ?_, by decide +kernel, by decide +kernel,
    ⟨by decide, by decide, by decide, by decide, by decide +kernel, ?_⟩,
    ⟨by decide, by decide, by decide, by decide, by decide +kernel, ?_⟩⟩
  · intro b h _ _
    rw [hb, List.mem_singleton] at h
    rw [h]
    exact glyphA_readable (by decide) (by decide) _ _
  all_goals
    intro r c h1 h2 h3 h5 hb b hm
    unfold PixelBefore at hb
    omega

/-- NoFontFault. -/
theorem test_witness_noFont : clean.fontV = false := by decide +kernel

/-- FlushClearsDirtyMap: a flush that is interlaced and one that is not. -/
theorem test_witness_flush :
    isNext (exec .flush small) = true ∧ dirtyCount small ≤ small.cfg.thresh ∧
    small.cfg.thresh < dirtyCount { small with dirty := List.replicate 8 true } := by decide +kernel

/-- FirstRefreshTakesTwoFlushes: every flag set, on this hardware. -/
theorem test_witness_firstRefresh :
    State.Sound { clean with dirty := allDirty hardware } ∧
    ∀ y b, y < 480 → b < 5 → dirtyFlag y b { clean with dirty := allDirty hardware } = true := by
  refine ⟨by decide +kernel, fun y b hy hb => ?_⟩
  have h5 : bandCount hardware = 5 := by decide
  have hi : dirtyIndex clean.cfg y b < 2400 := by
    show y * bandCount hardware + b < 2400
    rw [h5]
    omega
  show (List.replicate (480 * bandCount hardware) true).getD (dirtyIndex clean.cfg y b) false = true
  rw [h5, List.getD_eq_getElem?_getD, List.getElem?_replicate, if_pos hi]
  rfl

end Sys2Proof.Tests
end

namespace Sys2Proof.Machine

/-! ## The bands of a row (R113, R202) -/

theorem bandOf_natCast (p : Config) (x : Nat) : bandOf p (x : Int) = x / p.bandW := by
  rw [bandOf, Int.toNat_natCast]

/-- A column of the canvas lies in the range of its own band. -/
theorem column_in_own_band {p : Config} (hb : 1 ≤ p.bandW) {x : Nat} (hx : x < p.w) :
    bandStart p (bandOf p x) ≤ x ∧ x < bandStart p (bandOf p x) + bandWidth p (bandOf p x) := by
  rw [bandOf_natCast, bandStart, bandWidth]
  have hle : x / p.bandW * p.bandW ≤ x := Nat.div_mul_le_self x p.bandW
  have hlt : x < x / p.bandW * p.bandW + p.bandW := Nat.lt_div_mul_add hb
  omega

/-- A column in the range of a band has that band. -/
theorem bandOf_eq_of_in_band {p : Config} {x b : Nat} (hs : bandStart p b ≤ x)
    (he : x < bandStart p b + bandWidth p b) : bandOf p x = b := by
  rw [bandOf_natCast]
  refine Nat.div_eq_of_lt_le hs (lt_of_lt_of_le he ?_)
  rw [Nat.succ_mul]
  exact Nat.add_le_add_left (Nat.min_le_left _ _) _

/-- Settles O23: a column lies in the range of its own band, and the ranges of the bands stay inside the row. -/
theorem bandsPartitionRow : Obligations.BandsPartitionRow := by
  intro p ⟨_, _, _, _, _, _, hbw, _⟩ x b
  constructor
  · rintro ⟨hx, rfl⟩
    exact ⟨bandOf_lt hbw (by omega) (by omega), column_in_own_band hbw hx⟩
  · rintro ⟨hb, hs, he⟩
    exact ⟨lt_of_lt_of_le he (bandEnd_le hb), bandOf_eq_of_in_band hs he⟩

end Sys2Proof.Machine

namespace Sys2Proof

/-! ## What the decoder answers

The operands it reads are in the ranges of R83 and R84, and it removes words from the front only. -/

theorem isS16_iff (v : Int) : isS16 v = true ↔ -32768 ≤ v ∧ v ≤ 32767 := by
  simp only [isS16, Bool.and_eq_true, decide_eq_true_eq]

theorem sext16_range (v : Word) : -32768 ≤ sext16 v ∧ sext16 v ≤ 32767 := by
  have := v.isLt
  unfold sext16
  split <;> omega

@[simp] theorem isS16_s16At (x : List Word) (i : Nat) : isS16 (s16At x i) = true :=
  (isS16_iff _).2 (sext16_range _)

@[simp] theorem isU16_u16At (x : List Word) (i : Nat) : isU16 (u16At x i) = true :=
  decide_eq_true (wordAt x i).isLt

theorem addr32_lt (lo hi : Word) : addr32 lo hi < 4294967296 := by
  have := lo.isLt
  have := hi.isLt
  unfold addr32 zext16
  omega

@[simp] theorem isAddr32_addrAt (x : List Word) (i : Nat) : isAddr32 (addrAt x i) = true :=
  decide_eq_true (addr32_lt _ _)

/-- Whatever the words, the operands the decoder assembles are in range (R83, R84). -/
theorem assemble_wellFormed (o : Op) (x : List Word) : (assemble o x).wellFormed = true := by
  cases o <;> simp [assemble, Instr.wellFormed]

/-- What the decoder has found where it answers a command (R86). -/
theorem decode_command {ws rest : List Word} {i : Instr} (h : decode ws = .command i rest) :
    ∃ hd tl o, ws = hd :: tl ∧ i = assemble o (hd :: tl.take o.operandWords) ∧ rest = tl.drop o.operandWords := by
  cases ws with
  | nil => cases h
  | cons hd tl =>
    rw [decode] at h
    split at h
    · cases h
    · next o _ =>
      split at h
      · cases h
      · cases h
        exact ⟨hd, tl, o, rfl, rfl, rfl⟩

theorem decode_wellFormed {ws rest : List Word} {i : Instr} (h : decode ws = .command i rest) :
    i.wellFormed = true := by
  obtain ⟨hd, tl, o, -, rfl, -⟩ := decode_command h
  exact assemble_wellFormed o _

theorem decode_rest_length_le {ws rest : List Word} {i : Instr} (h : decode ws = .command i rest) :
    rest.length ≤ ws.length := by
  obtain ⟨hd, tl, o, rfl, -, rfl⟩ := decode_command h
  rw [List.length_drop, List.length_cons]
  omega

end Sys2Proof

namespace Sys2Proof.Machine

/-! ## The pixels of the drawing commands are on the canvas (R51, R115) -/

/-- Every pixel of the list is on the canvas. -/
def OnCanvas (p : Config) (l : List (Int × Int)) : Prop :=
  ∀ q ∈ l, InCanvas p q.1 q.2

theorem OnCanvas.append {p : Config} {l m : List (Int × Int)} (hl : OnCanvas p l) (hm : OnCanvas p m) :
    OnCanvas p (l ++ m) := fun q hq =>
  (List.mem_append.1 hq).elim (hl q) (hm q)

theorem OnCanvas.flatMap {α : Type} {p : Config} {l : List α} {f : α → List (Int × Int)}
    (h : ∀ a, OnCanvas p (f a)) : OnCanvas p (l.flatMap f) := fun q hq =>
  let ⟨a, _, hqa⟩ := List.mem_flatMap.1 hq
  h a q hqa

theorem OnCanvas.filter {p : Config} {l : List (Int × Int)} :
    OnCanvas p (l.filter fun q => decide (InCanvas p q.1 q.2)) := fun _ hq =>
  of_decide_eq_true (List.mem_filter.1 hq).2

theorem pointPixels_onCanvas {p : Config} {x y : Int} : OnCanvas p (pointPixels p x y) := by
  intro q hq
  unfold pointPixels at hq
  split at hq
  · rw [List.mem_singleton.1 hq]
    assumption
  · cases hq

theorem hlinePixels_onCanvas {p : Config} {x y len : Int} : OnCanvas p (hlinePixels p x y len) :=
  fun _ hq => (mem_hlinePixels.1 hq).1

theorem vlinePixels_onCanvas {p : Config} {x y len : Int} : OnCanvas p (vlinePixels p x y len) :=
  fun _ hq => (mem_vlinePixels.1 hq).1

theorem linePixels_onCanvas {p : Config} {x0 y0 x1 y1 : Int} : OnCanvas p (linePixels p x0 y0 x1 y1) :=
  fun _ hq => (mem_linePixels.1 hq).1

theorem rectPixels_onCanvas {p : Config} {x y w h : Int} : OnCanvas p (rectPixels p x y w h) := by
  unfold rectPixels
  split
  · exact fun _ hq => nomatch hq
  · exact ((linePixels_onCanvas.append linePixels_onCanvas).append linePixels_onCanvas).append
      linePixels_onCanvas

theorem frectPixels_onCanvas {p : Config} {x y w h : Int} : OnCanvas p (frectPixels p x y w h) := by
  unfold frectPixels
  split
  · exact fun _ hq => nomatch hq
  · split
    · exact fun _ hq => nomatch hq
    · exact .flatMap fun _ => hlinePixels_onCanvas

theorem triPixels_onCanvas {p : Config} {x0 y0 x1 y1 x2 y2 : Int} :
    OnCanvas p (triPixels p x0 y0 x1 y1 x2 y2) :=
  (linePixels_onCanvas.append linePixels_onCanvas).append linePixels_onCanvas

theorem ftriPixels_onCanvas {p : Config} {x0 y0 x1 y1 x2 y2 : Int} :
    OnCanvas p (ftriPixels p x0 y0 x1 y1 x2 y2) :=
  .flatMap fun _ => hlinePixels_onCanvas

theorem circPixels_onCanvas {p : Config} {x y r : Int} : OnCanvas p (circPixels p x y r) :=
  .flatMap fun _ => .filter

theorem fcircPixels_onCanvas {p : Config} {x y r : Int} : OnCanvas p (fcircPixels p x y r) :=
  .flatMap fun _ => ((hlinePixels_onCanvas.append hlinePixels_onCanvas).append
    hlinePixels_onCanvas).append hlinePixels_onCanvas

/-! ## What a command keeps, up to its end or to the statement where it raises -/

/-- What command `i` keeps of state `s` on the way to `t`: the parameters, the FIFO, EXEC and the fault registers as
they are, FSTATE as it is or Idle, and soundness where its operands are in range (only FONT looks at their ranges). -/
structure CommandKeeps (i : Instr) (s t : State) : Prop where
  cfg : t.cfg = s.cfg
  fifo : t.fifo = s.fifo
  cur : t.cur = s.cur
  fault : t.fault = s.fault
  fcause : t.fcause = s.fcause
  finfo : t.finfo = s.finfo
  fstate : t.fstate = s.fstate ∨ t.fstate = .idle
  sound : i.wellFormed = true → s.Sound → t.Sound

/-- The command answers a state it reached keeping this, or the fault state of what it raised in such a state. -/
def AnswersKeeping (i : Instr) (s : State) (o : Out) : Prop :=
  ∃ t, CommandKeeps i s t ∧ (o = .next t ∨ ∃ c n, o = .next (raiseFault true c n t))

/-- The run ends, or raises, in a state reached keeping what command `i` keeps. -/
def RunKeeps (i : Instr) (s : State) (r : Run) : Prop :=
  r.Sat (CommandKeeps i s) (fun _ _ => CommandKeeps i s)

section
variable {i : Instr} {s t : State}

theorem CommandKeeps.refl (i : Instr) (s : State) : CommandKeeps i s s :=
  ⟨rfl, rfl, rfl, rfl, rfl, rfl, .inl rfl, fun _ h => h⟩

/-- The result registers are free. -/
theorem CommandKeeps.withResults (h : CommandKeeps i s t) (a b c : Word) :
    CommandKeeps i s { t with res0 := a, res1 := b, res2 := c } :=
  { h with }

theorem CommandKeeps.withPalette {p : List Word} (hp : s.Sound → p.length = 256) :
    CommandKeeps i s { s with pal := p } := by
  refine ⟨rfl, rfl, rfl, rfl, rfl, rfl, .inl rfl, fun _ hs => ?_⟩
  have hlen := hp hs
  obtain ⟨hcfg, hcanvas, -, hrest⟩ := hs
  exact ⟨hcfg, hcanvas, hlen, hrest⟩

theorem OnlyDraws.keeps (h : OnlyDraws s t) : CommandKeeps i s t := by
  obtain ⟨hsame, hdraw⟩ := h
  have hcfg := hsame.cfg
  unfold SameBut at hsame
  refine ⟨hcfg, by rw [hsame], by rw [hsame], by rw [hsame], by rw [hsame], by rw [hsame], .inl (by rw [hsame]),
    fun _ hs => ?_⟩
  obtain ⟨hcfg', hcanvas, hdirty⟩ := (hdraw hs.drawable).1
  obtain ⟨-, -, hpal, -, hfont, hmem, hbus⟩ := hs
  rw [hsame] at hcfg' hcanvas hdirty ⊢
  exact ⟨hcfg', hcanvas, hpal, hdirty, hfont, hmem, hbus⟩

theorem OnlyStores.keeps (h : OnlyStores s t) : CommandKeeps i s t := by
  obtain ⟨l, hl, rfl⟩ := h
  rw [storeAll_eq]
  refine ⟨rfl, rfl, rfl, rfl, rfl, rfl, .inl rfl, fun _ hs => ?_⟩
  obtain ⟨hcfg, hcanvas, hpal, hdirty, hfont, hmem, hbus⟩ := hs
  refine ⟨hcfg, hcanvas, hpal, hdirty, hfont, wf_foldl_write l _ hmem hl, ?_⟩
  rw [List.all_append, hbus, Bool.true_and]
  simpa using hl

theorem RunDraws.keeps {A : Int → Prop} {r : Run} (h : RunDraws A s r) : RunKeeps i s r :=
  Run.Sat.mono h (fun _ hd => hd.keeps) (fun _ _ _ hf => hf.2.2.keeps)

theorem RunStores.keeps {A : Int → Prop} {r : Run} (h : RunStores A s r) : RunKeeps i s r :=
  Run.Sat.mono h (fun _ hd => hd.keeps) (fun _ _ _ hf => hf.2.2.keeps)

theorem RunKeeps.outcome {r : Run} (h : RunKeeps i s r) : AnswersKeeping i s r.outcome := by
  rcases Run.Sat.outcome h with ⟨t, ho, ht⟩ | ⟨c, n, t, ho, ht⟩
  · exact ⟨t, ht, .inl ho⟩
  · exact ⟨t, ht, .inr ⟨c, n, ho⟩⟩

theorem CommandKeeps.answers (h : CommandKeeps i s t) : AnswersKeeping i s (.next t) :=
  ⟨t, h, .inl rfl⟩

/-- A command that raises before any effect. -/
theorem raise_answersKeeping (i : Instr) (c : Cause) (n : Int) (s : State) :
    AnswersKeeping i s (Run.outcome (.raise c n s)) :=
  ⟨s, .refl i s, .inr ⟨c, n, rfl⟩⟩

theorem drawPixels_answersKeeping {c : Byte} {qs : List (Int × Int)} (h : OnCanvas s.cfg qs) :
    AnswersKeeping i s (drawPixels c qs s) := by
  obtain ⟨t, ht, hd⟩ := drawPixels_onlyDraws (c := c) h
  exact ⟨t, hd.keeps, .inl ht⟩

theorem needFont_runKeeps {body : State → Run} (h : RunKeeps i s (body s)) : RunKeeps i s (needFont s body) := by
  unfold needFont
  split
  · exact h
  · exact CommandKeeps.refl i s

end

/-! ## One lemma per command that is more than a list of pixels -/

/-- Any host address at all: the bound on accesses where none is needed. -/
abbrev AnyAddress : Int → Prop := fun _ => True

/-- Legal parameters have sixteen default colours (R9). -/
theorem defpal_length {p : Config} (h : ConfigWf p) : p.defpal.length = 16 := by
  obtain ⟨-, -, -, -, -, -, -, -, -, hdefpal, -⟩ := h
  exact hdefpal

theorem execPalLoad_answersKeeping (i : Instr) (addr count : Nat) (s : State) :
    AnswersKeeping i s (execPalLoad addr count s) := by
  unfold execPalLoad
  split
  · exact raise_answersKeeping ..
  · have hpal : ∀ t, OnlyPalette { s with pal := List.replicate 256 0 } t → CommandKeeps i s t := by
      rintro t ⟨p, rfl, hp⟩
      exact .withPalette fun _ => hp.trans List.length_replicate
    exact RunKeeps.outcome (Run.Sat.mono (palLoadLoop_sat addr count _) hpal fun _ _ t hf => hpal t hf.2.2)

theorem execPalDefault_answersKeeping (i : Instr) (s : State) : AnswersKeeping i s (execPalDefault s) :=
  CommandKeeps.answers <| .withPalette fun hs => defaultPalette_length (defpal_length hs.1)

theorem execGetPixel_answersKeeping (i : Instr) (x y : Int) (s : State) : AnswersKeeping i s (execGetPixel x y s) := by
  unfold execGetPixel
  split <;> exact ((CommandKeeps.refl i s).withResults _ s.res1 s.res2).answers

theorem execFillScreen_answersKeeping (i : Instr) (c : Byte) (s : State) : AnswersKeeping i s (execFillScreen c s) := by
  refine CommandKeeps.answers ⟨rfl, rfl, rfl, rfl, rfl, rfl, .inl rfl, fun _ hs => ?_⟩
  obtain ⟨hcfg, -, hpal, -, hrest⟩ := hs
  exact ⟨hcfg, ⟨SectorMem.wf_fill _ _, SectorMem.size_fill _ _, SectorMem.wf_fill _ _, SectorMem.size_fill _ _⟩, hpal,
    List.length_replicate, hrest⟩

theorem execBlit_answersKeeping (i : Instr) (x y w h : Int) (stride addr : Nat) (s : State) :
    AnswersKeeping i s (execBlit x y w h stride addr s) := by
  unfold execBlit
  split
  · exact (CommandKeeps.refl i s).answers
  · next k hk =>
    exact (RunDraws.keeps (blitLoop_runDraws (A := AnyAddress) hk (fun _ _ _ => trivial)
      fun _ _ _ _ hc ha => blitPixel_runDraws hc ha)).outcome

theorem execBlitk_answersKeeping (i : Instr) (x y w h : Int) (stride addr : Nat) (key : Byte) (s : State) :
    AnswersKeeping i s (execBlitk x y w h stride addr key s) := by
  unfold execBlitk
  split
  · exact (CommandKeeps.refl i s).answers
  · next k hk =>
    exact (RunDraws.keeps (blitLoop_runDraws (A := AnyAddress) hk (fun _ _ _ => trivial)
      fun _ _ _ _ hc ha => blitkPixel_runDraws key hc ha)).outcome

theorem execGrab_answersKeeping (i : Instr) (x y w h : Int) (stride addr : Nat) (s : State) :
    AnswersKeeping i s (execGrab x y w h stride addr s) := by
  unfold execGrab
  split
  · exact (CommandKeeps.refl i s).answers
  · next k hk => exact (RunStores.keeps (grabLoop_runStores (A := AnyAddress) hk fun _ _ _ => trivial)).outcome

theorem execXform_answersKeeping (i : Instr) (src : Nat) (sw sh : Int) (ss sx sy : Nat) (ang : Int) (dst : Nat)
    (bg : Byte) (s : State) : AnswersKeeping i s (execXform src sw sh ss sx sy ang dst bg s) := by
  unfold execXform
  split
  · exact ((CommandKeeps.refl i s).withResults 0 0 s.res2).answers
  · extract_lets dw dh
    split
    · exact raise_answersKeeping ..
    · have hloop : RunKeeps i s (xformLoop src sw sh ss sx sy ang dst bg dw dh s) :=
        RunStores.keeps (xformLoop_runStores (A := AnyAddress) (fun _ _ => ⟨trivial, fun _ _ => trivial⟩) bg s)
      exact RunKeeps.outcome (Run.Sat.bind hloop fun t ht => ht.withResults _ _ t.res2)

theorem monoBlit_runKeeps (i : Instr) (x y w h addr : Int) (c : Byte) (s : State) :
    RunKeeps i s (monoBlit x y w h addr c s) :=
  RunDraws.keeps (monoBlit_runDraws (A := AnyAddress) (fun _ _ => trivial) x y c s)

theorem mono2xBlit_runKeeps (i : Instr) (x y w h addr : Int) (c : Byte) (s : State) :
    RunKeeps i s (mono2xBlit x y w h addr c s) :=
  RunDraws.keeps (mono2xBlit_runDraws (A := AnyAddress) (fun _ _ => trivial) x y c s)

theorem execStr_answersKeeping (i : Instr) (x y : Int) (addr len : Nat) (c : Byte) (s : State) :
    AnswersKeeping i s (execStr x y addr len c s) :=
  (needFont_runKeeps <| RunDraws.keeps <| stringLoop_runDraws (A := AnyAddress) len 0 (fun _ _ => trivial)
    (fun _ _ _ _ _ _ _ _ _ _ => monoBlit_runDraws (fun _ _ => trivial) ..) _ _ _ _ _ _ (.refl s)).outcome

theorem execStr2x_answersKeeping (i : Instr) (x y : Int) (addr len : Nat) (c : Byte) (s : State) :
    AnswersKeeping i s (execStr2x x y addr len c s) :=
  (needFont_runKeeps <| RunDraws.keeps <| stringLoop_runDraws (A := AnyAddress) len 0 (fun _ _ => trivial)
    (fun _ _ _ _ _ _ _ _ _ _ => mono2xBlit_runDraws (fun _ _ => trivial) ..) _ _ _ _ _ _ (.refl s)).outcome

/-- A positive `s16` operand keeps its value and its sign as a word. -/
theorem toNat_ofInt_of_isS16 {v : Int} (h : isS16 v = true) (hpos : ¬ v < 1) :
    1 ≤ (BitVec.ofInt 16 v).toNat ∧ (BitVec.ofInt 16 v).toNat ≤ 32767 := by
  rw [isS16_iff] at h
  rw [BitVec.toNat_ofInt]
  omega

/-- FONT sets a legal descriptor: the sizes it lets through are positive, and at most 32767 by their type (R190). -/
theorem execFont_answersKeeping (addr : Nat) (width height : Int) (s : State) :
    AnswersKeeping (.font addr width height) s (execFont addr width height s) := by
  unfold execFont
  split
  · exact raise_answersKeeping ..
  · split
    · exact raise_answersKeeping ..
    · next hw hh =>
      refine CommandKeeps.answers ⟨rfl, rfl, rfl, rfl, rfl, rfl, .inl rfl, fun hwf hs => ?_⟩
      simp only [Instr.wellFormed, Bool.and_eq_true] at hwf
      obtain ⟨⟨-, hws⟩, hhs⟩ := hwf
      obtain ⟨hw1, hw2⟩ := toNat_ofInt_of_isS16 hws hw
      obtain ⟨hh1, hh2⟩ := toNat_ofInt_of_isS16 hhs hh
      obtain ⟨hcfg, hcanvas, hpal, hdirty, -, hrest⟩ := hs
      exact ⟨hcfg, hcanvas, hpal, hdirty, ⟨fun _ => ⟨hw1, hw2, hh1, hh2⟩, nofun⟩, hrest⟩

/-- FLUSH answers a state that differs in the sink, the dirty flags, PARITY, ILACE and FSTATE only (R203). -/
theorem execFlush_eq (s : State) :
    ∃ (ts : List SinkTx) (d : List Bool) (par il : Bool), d.length = s.dirty.length ∧
      execFlush s = .next { s with sink := s.sink ++ ts, dirty := d, parity := par, ilace := il, fstate := .idle } := by
  obtain ⟨ts, d, hrows, hd⟩ := flushRows_onlySends (flushInterlaced s) s.parity { s with fstate := .flushing }
  have hexec : execFlush s = .next
      { updateParity (flushInterlaced s) (flushRows (flushInterlaced s) s.parity { s with fstate := .flushing }) with
        ilace := flushInterlaced s, fstate := .idle } := rfl
  rw [hexec, hrows, updateParity]
  split
  · exact ⟨ts, d, _, _, hd, rfl⟩
  · exact ⟨ts, d, _, _, hd, rfl⟩

theorem execFlush_answersKeeping (i : Instr) (s : State) : AnswersKeeping i s (execFlush s) := by
  obtain ⟨ts, d, par, il, hd, hflush⟩ := execFlush_eq s
  rw [hflush]
  refine CommandKeeps.answers ⟨rfl, rfl, rfl, rfl, rfl, rfl, .inr rfl, fun _ hs => ?_⟩
  obtain ⟨hcfg, hcanvas, hpal, hdirty, hrest⟩ := hs
  exact ⟨hcfg, hcanvas, hpal, hd.trans hdirty, hrest⟩

/-- Every command answers a next state, reached keeping what commands keep, or the fault state of what it raised. -/
theorem exec_answersKeeping (i : Instr) (s : State) : AnswersKeeping i s (exec i s) := by
  cases i with
  | nop => exact (CommandKeeps.refl _ s).answers
  | palDefault => exact execPalDefault_answersKeeping _ s
  | palLoad addr count => exact execPalLoad_answersKeeping _ addr count s
  | palRead idx => exact ((CommandKeeps.refl _ s).withResults _ s.res1 s.res2).answers
  | getPixel x y => exact execGetPixel_answersKeeping _ x y s
  | point x y c => exact drawPixels_answersKeeping pointPixels_onCanvas
  | fillScreen c => exact execFillScreen_answersKeeping _ c s
  | crop start len view => exact ((CommandKeeps.refl _ s).withResults ..).answers
  | hline x y len c => exact drawPixels_answersKeeping hlinePixels_onCanvas
  | vline x y len c => exact drawPixels_answersKeeping vlinePixels_onCanvas
  | line x0 y0 x1 y1 c => exact drawPixels_answersKeeping linePixels_onCanvas
  | rect x y w h c => exact drawPixels_answersKeeping rectPixels_onCanvas
  | frect x y w h c => exact drawPixels_answersKeeping frectPixels_onCanvas
  | tri x0 y0 x1 y1 x2 y2 c => exact drawPixels_answersKeeping triPixels_onCanvas
  | ftri x0 y0 x1 y1 x2 y2 c => exact drawPixels_answersKeeping ftriPixels_onCanvas
  | circ x y r c => exact drawPixels_answersKeeping circPixels_onCanvas
  | fcirc x y r c => exact drawPixels_answersKeeping fcircPixels_onCanvas
  | blit x y w h stride addr => exact execBlit_answersKeeping _ x y w h stride addr s
  | blitk x y w h stride addr key => exact execBlitk_answersKeeping _ x y w h stride addr key s
  | grab x y w h stride addr => exact execGrab_answersKeeping _ x y w h stride addr s
  | xform src sw sh ss sx sy ang dst bg => exact execXform_answersKeeping _ src sw sh ss sx sy ang dst bg s
  | mono x y w h addr c => exact (monoBlit_runKeeps ..).outcome
  | mono2x x y w h addr c => exact (mono2xBlit_runKeeps ..).outcome
  | font addr width height => exact execFont_answersKeeping addr width height s
  | char x y code c => exact (needFont_runKeeps (monoBlit_runKeeps ..)).outcome
  | char2x x y code c => exact (needFont_runKeeps (mono2xBlit_runKeeps ..)).outcome
  | str x y addr len c => exact execStr_answersKeeping _ x y addr len c s
  | str2x x y addr len c => exact execStr2x_answersKeeping _ x y addr len c s
  | flush => exact execFlush_answersKeeping _ s

/-- A command with operands in range keeps a state sound, faulting or not. -/
theorem exec_sound {i : Instr} {s t : State} (hwf : i.wellFormed = true) (hs : s.Sound) (h : exec i s = .next t) :
    t.Sound := by
  obtain ⟨u, hk, hu | ⟨c, n, hu⟩⟩ := exec_answersKeeping i s <;> rw [hu] at h <;> cases h
  · exact hk.sound hwf hs
  · exact hk.sound hwf hs

/-! ## The fault registers, the FIFO and FSTATE after a command -/

theorem causeCode_range (c : Cause) : 1 ≤ (causeCode c).toNat ∧ (causeCode c).toNat ≤ 5 := by
  cases c <;> decide

/-- Fault entry keeps the fault registers in agreement: only FifoOverrun leaves a command in execution (R224). -/
theorem faultWf_raiseFault {byEngine : Bool} {c : Cause} (n : Int) {s : State} (hs : FaultWf s)
    (hc : byEngine = false → c = .fifoOverrun) : FaultWf (raiseFault byEngine c n s) := by
  refine ⟨nofun, fun _ => ?_⟩
  rw [raiseFault_fifo, raiseFault_fcause, raiseFault_cur]
  cases hf : s.fault with
  | true =>
    obtain ⟨-, hlo, hhi, hcur⟩ := hs.2 hf
    refine ⟨rfl, hlo, hhi, ?_⟩
    cases byEngine with
    | true => exact nofun
    | false => exact hcur
  | false =>
    obtain ⟨hlo, hhi⟩ := causeCode_range c
    refine ⟨rfl, hlo, hhi, ?_⟩
    cases byEngine with
    | true => exact nofun
    | false => exact fun _ => by rw [hc rfl]; rfl

/-- Ending the command in execution keeps the fault registers in agreement. -/
theorem faultWf_endCommand {s : State} (hs : FaultWf s) : FaultWf { s with cur := none } := by
  obtain ⟨hoff, hon⟩ := hs
  refine ⟨hoff, fun hf => ?_⟩
  obtain ⟨hfifo, hlo, hhi, -⟩ := hon hf
  exact ⟨hfifo, hlo, hhi, nofun⟩

/-- A command keeps the fault registers in agreement, faulting or not. -/
theorem exec_faultWf {i : Instr} {s t : State} (hs : FaultWf s) (h : exec i s = .next t) : FaultWf t := by
  obtain ⟨u, hk, hu⟩ := exec_answersKeeping i s
  have hfw : FaultWf u := by
    unfold FaultWf at hs ⊢
    rwa [hk.fifo, hk.cur, hk.fault, hk.fcause, hk.finfo]
  rcases hu with hu | ⟨c, n, hu⟩ <;> rw [hu] at h <;> cases h
  · exact hfw
  · exact faultWf_raiseFault n hfw nofun

/-- A command adds no word to the FIFO, whose depth stays (R27). -/
theorem exec_fits {i : Instr} {s t : State} (hs : s.fifo.length ≤ s.cfg.fifoDepth) (h : exec i s = .next t) :
    t.fifo.length ≤ t.cfg.fifoDepth := by
  obtain ⟨u, hk, hu | ⟨c, n, hu⟩⟩ := exec_answersKeeping i s <;> rw [hu] at h <;> cases h
  · rwa [hk.fifo, hk.cfg]
  · exact Nat.zero_le _

/-- FSTATE is Idle after a command: FLUSH ends Idle, and any other one began Idle (R25). -/
theorem exec_fstate_idle {i : Instr} {s t : State} (hs : s.fstate = .flushing → i = .flush)
    (h : exec i s = .next t) : t.fstate = .idle := by
  by_cases hi : i = .flush
  · subst hi
    obtain ⟨ts, d, par, il, -, hflush⟩ := execFlush_eq s
    have hexec : exec .flush s = execFlush s := rfl
    rw [hexec, hflush] at h
    cases h
    rfl
  · have hidle : s.fstate = .idle := by
      cases hf : s.fstate with
      | idle => rfl
      | flushing => exact absurd (hs hf) hi
    obtain ⟨u, hk, hu | ⟨c, n, hu⟩⟩ := exec_answersKeeping i s <;> rw [hu] at h <;> cases h
    · exact hk.fstate.elim (·.trans hidle) id
    · rfl

/-! ## The engine keeps the invariant -/

/-- The state command `i` runs in: the invariant, but for FSTATE, which is still Idle where the engine fetches a FLUSH and
runs it in one turn. -/
structure Running (i : Instr) (s : State) : Prop where
  sound : s.Sound
  fits : s.fifo.length ≤ s.cfg.fifoDepth
  faultWf : FaultWf s
  fstate : s.fstate = .flushing → i = .flush
  wellFormed : i.wellFormed = true

/-- A command in execution can run. -/
theorem State.Inv.running {s : State} {i : Instr} (h : s.Inv) (hcur : s.cur = some i) : Running i s := by
  obtain ⟨hsound, hfits, hfault, hflush, hwf⟩ := h
  rw [hcur] at hflush hwf
  exact ⟨hsound, hfits, hfault, fun hf => Option.some.inj (hflush.1 hf), hwf⟩

/-- With no command in execution FSTATE is Idle (R25). -/
theorem State.Inv.fstate_idle {s : State} (h : s.Inv) (hcur : s.cur = none) : s.fstate = .idle := by
  obtain ⟨-, -, -, hflush, -⟩ := h
  rw [hcur] at hflush
  cases hf : s.fstate with
  | idle => rfl
  | flushing => cases hflush.1 hf

/-- A command just fetched can run. -/
theorem State.Inv.running_startCommand {s : State} {i : Instr} {rest : List Word} (h : s.Inv) (hcur : s.cur = none)
    (hfault : s.fault = false) (hd : decode s.fifo = .command i rest) : Running i (startCommand i rest s) := by
  have hidle := h.fstate_idle hcur
  obtain ⟨hsound, hfits, ⟨hoff, -⟩, -, -⟩ := h
  refine ⟨hsound, (decode_rest_length_le hd).trans hfits, ⟨hoff, fun hf => ?_⟩, fun hf => ?_, decode_wellFormed hd⟩
  · rw [startCommand_fault, hfault] at hf
    cases hf
  · rw [startCommand_fstate, hidle] at hf
    cases hf

/-- A state with no command in execution and FSTATE Idle meets the invariant where its other parts hold. -/
theorem inv_of_idle {s : State} (hsound : s.Sound) (hfits : s.fifo.length ≤ s.cfg.fifoDepth) (hfault : FaultWf s)
    (hidle : s.fstate = .idle) (hcur : s.cur = none) : s.Inv := by
  refine ⟨hsound, hfits, hfault, ?_, ?_⟩
  · rw [hidle, hcur]
    exact ⟨nofun, nofun⟩
  · rw [hcur]
    rfl

/-- Running a command to its end gives the invariant (R86). -/
theorem completeCommand_inv {i : Instr} {s t : State} (hs : Running i s) (h : completeCommand i s = .next t) :
    t.Inv := by
  unfold completeCommand at h
  split at h
  · next u hu =>
    cases h
    have hsound : u.Sound := exec_sound hs.wellFormed hs.sound hu
    have hfits : u.fifo.length ≤ u.cfg.fifoDepth := exec_fits hs.fits hu
    have hidle : u.fstate = .idle := exec_fstate_idle hs.fstate hu
    exact inv_of_idle hsound hfits (faultWf_endCommand (exec_faultWf hs.faultWf hu)) hidle rfl
  · cases h
  · cases h

/-- The fetch step gives the invariant where what it does with a fetched command does (R86). -/
theorem fetchThen_inv {run : Instr → State → Out} {s t : State} (hs : s.Inv) (hcur : s.cur = none)
    (hrun : ∀ i rest, Running i (startCommand i rest s) → run i (startCommand i rest s) = .next t → t.Inv)
    (h : fetchThen run s = .next t) : t.Inv := by
  unfold fetchThen at h
  split at h
  · cases h
    exact hs
  · next hfault =>
    split at h
    · next i rest hd => exact hrun i rest (hs.running_startCommand hcur (Bool.eq_false_of_not_eq_true hfault) hd) h
    · cases h
      obtain ⟨hsound, -, hfw, -, -⟩ := hs
      exact inv_of_idle hsound (Nat.zero_le _) (faultWf_raiseFault _ hfw nofun) rfl rfl
    · cases h
      exact hs

theorem engineTurn_inv {s t : State} (hs : s.Inv) (h : engineTurn s = .next t) : t.Inv := by
  unfold engineTurn at h
  split at h
  · next hcur => exact completeCommand_inv (hs.running hcur) h
  · next hcur => exact fetchThen_inv hs hcur (fun _ _ => completeCommand_inv) h

/-- FSTATE of a command that starts from Idle: Flushing iff it is a FLUSH (R25). -/
theorem fstateOf_idle_eq_flushing_iff (i : Instr) : fstateOf i .idle = .flushing ↔ some i = some Instr.flush := by
  unfold fstateOf
  split
  · next hi => exact ⟨fun _ => congrArg some hi, fun _ => rfl⟩
  · next hi => exact ⟨nofun, fun h => absurd (Option.some.inj h) hi⟩

theorem engineBegin_inv {s t : State} (hs : s.Inv) (h : engineBegin s = .next t) : t.Inv := by
  unfold engineBegin at h
  split at h
  · cases h
    exact hs
  · next hcur =>
    refine fetchThen_inv hs hcur (fun i rest hr ht => ?_) h
    cases ht
    refine ⟨hr.sound, hr.fits, hr.faultWf, ?_, hr.wellFormed⟩
    rw [startCommand_cur, startCommand_fstate, hs.fstate_idle hcur]
    exact fstateOf_idle_eq_flushing_iff i

/-! ## The host's side keeps the invariant -/

/-- The first writes of an abandoned command keep a state sound (R252). -/
theorem abandonCommand_sound {s : State} (hs : s.Inv) : (abandonCommand s).Sound := by
  obtain ⟨hsound, -, -, -, hwf⟩ := hs
  unfold abandonCommand
  split
  · exact hsound
  · next i hcur =>
    rw [hcur] at hwf
    split
    · next t ht =>
      obtain ⟨-, -, -, -, -, -, hbus⟩ := exec_sound hwf hsound ht
      obtain ⟨hcfg, hcanvas, hpal, hdirty, hfont, hmem, hbus0⟩ := hsound
      extract_lets n writes
      have hwrites : ∀ c ∈ writes, c.1 < 4294967296 := fun c hc =>
        of_decide_eq_true (List.all_eq_true.1 hbus c (List.mem_of_mem_drop (List.mem_of_mem_take hc)))
      refine ⟨hcfg, hcanvas, hpal, hdirty, hfont, wf_foldl_write _ _ hmem hwrites, ?_⟩
      rw [List.all_append, hbus0, Bool.true_and]
      simpa using hwrites
    · exact hsound
    · exact hsound

/-- Reset gives the invariant from every sound state (R37, R251). -/
theorem resetEngine_inv {s : State} (hs : s.Sound) : (resetEngine s).Inv := by
  obtain ⟨hcfg, -, -, -, -, hmem, hbus⟩ := hs
  have hcanvas : CanvasWf (resetEngine s) :=
    ⟨SectorMem.wf_blank _, SectorMem.size_blank _, SectorMem.wf_blank _, SectorMem.size_blank _⟩
  have hfont : FontWf (resetEngine s) := ⟨nofun, fun _ => ⟨rfl, rfl, rfl⟩⟩
  have hpal : (resetEngine s).pal.length = 256 := defaultPalette_length (defpal_length hcfg)
  exact inv_of_idle ⟨hcfg, hcanvas, hpal, List.length_replicate, hfont, hmem, hbus⟩ (Nat.zero_le _)
    ⟨fun _ => ⟨rfl, rfl⟩, nofun⟩ rfl rfl

theorem hostReset_inv {s : State} (hs : s.Inv) : (hostReset s).Inv :=
  resetEngine_inv (abandonCommand_sound hs)

/-- A write of CMD: discarded, appended where it fits, or FifoOverrun, which leaves the command in execution (R30). -/
theorem writeCmd_inv {s : State} (w : Word) (hs : s.Inv) : (writeCmd w s).Inv := by
  unfold writeCmd
  split
  · exact hs
  · next hfault =>
    obtain ⟨hsound, -, hfw, hflush, hwf⟩ := hs
    split
    · next hroom =>
      refine ⟨hsound, ?_, ⟨hfw.1, fun hf => absurd hf hfault⟩, hflush, hwf⟩
      rw [List.length_append]
      exact hroom
    · exact ⟨hsound, Nat.zero_le _, faultWf_raiseFault _ hfw fun _ => rfl, hflush, hwf⟩

theorem writeCtrl_inv {s : State} (v : Word) (hs : s.Inv) : (writeCtrl v s).Inv := by
  unfold writeCtrl
  split
  · exact hostReset_inv hs
  · exact hs

theorem writeReg_inv {s t : State} {off : Nat} {v : Word} (hs : s.Inv) (h : writeReg off v s = some t) : t.Inv := by
  unfold writeReg at h
  split at h
  · cases h
    exact writeCmd_inv v hs
  · split at h
    · cases h
      exact writeCtrl_inv v hs
    · split at h
      · cases h
        exact hs
      · cases h

/-- A host write of a byte keeps memory in canonical form (R52). -/
theorem inv_memWrite {s : State} (a : BitVec 32) (v : Byte) (hs : s.Inv) :
    State.Inv { s with hmem := Memory.write s.hmem a.toNat v } := by
  obtain ⟨⟨hcfg, hcanvas, hpal, hdirty, hfont, hmem, hbus⟩, hrest⟩ := hs
  exact ⟨⟨hcfg, hcanvas, hpal, hdirty, hfont, Memory.write_wf _ _ v hmem a.isLt, hbus⟩, hrest⟩

/-- Every event of the outside world keeps the invariant. -/
theorem hostStep_inv {e : HostEvent} {s t : State} (hs : s.Inv) (h : hostStep e s = .next t) : t.Inv := by
  cases e with
  | regWrite off width v =>
    simp only [hostStep] at h
    split at h
    · split at h
      · next u hu =>
        cases h
        exact writeReg_inv hs hu
      · cases h
    · cases h
  | regRead off width =>
    simp only [hostStep] at h
    split at h
    · split at h
      · cases h
        exact hs
      · cases h
    · cases h
  | memWrite a v =>
    simp only [hostStep] at h
    split at h
    · cases h
    · cases h
      exact inv_memWrite a v hs
  | hwReset =>
    cases h
    exact hostReset_inv hs
  | engineBegin => exact engineBegin_inv hs h
  | engineTurn => exact engineTurn_inv hs h

/-- Settles O9: with no event pending the engine's turn keeps the invariant, which does not speak of the pending events;
an event keeps it by `hostStep_inv`. -/
theorem stepKeepsInvariant : Obligations.StepKeepsInvariant := by
  intro s t hs h
  unfold step at h
  split at h
  · exact engineTurn_inv hs h
  · next e rest _ =>
    have hs' : State.Inv { s with inputs := rest } := hs
    exact hostStep_inv hs' h

end Sys2Proof.Machine

namespace Sys2Proof.Machine

/-! ## What each command can change, up to its end or to the statement where it raises -/

/-- The command answers a state it reached in the relation `R`, or the fault state of what it raised in such a state. -/
def Answers (R : State → State → Prop) (s : State) (o : Out) : Prop :=
  ∃ t, R s t ∧ (o = .next t ∨ ∃ c n, o = .next (raiseFault true c n t))

theorem Answers.mono {R R' : State → State → Prop} {s : State} {o : Out} (h : Answers R s o)
    (hR : ∀ t, R s t → R' s t) : Answers R' s o :=
  let ⟨t, ht, ho⟩ := h
  ⟨t, hR t ht, ho⟩

theorem Answers.next {R : State → State → Prop} {s t : State} (h : R s t) : Answers R s (.next t) :=
  ⟨t, h, .inl rfl⟩

theorem Answers.raise {R : State → State → Prop} {s t : State} (h : R s t) (c : Cause) (n : Int) :
    Answers R s (Run.outcome (.raise c n t)) :=
  ⟨t, h, .inr ⟨c, n, rfl⟩⟩

theorem Run.Sat.answers {R : State → State → Prop} {s : State} {r : Run} (h : r.Sat (R s) (fun _ _ => R s)) :
    Answers R s r.outcome := by
  rcases h.outcome with ⟨t, ho, ht⟩ | ⟨c, n, t, ho, ht⟩
  · exact ⟨t, ht, .inl ho⟩
  · exact ⟨t, ht, .inr ⟨c, n, ho⟩⟩

/-- The state an answer leaves is the reached one, or the fault state entered from it. -/
theorem Answers.reached {R : State → State → Prop} {s t : State} {o : Out} (h : Answers R s o) (ho : o = .next t) :
    ∃ u, R s u ∧ (t = u ∨ ∃ c n, t = raiseFault true c n u) := by
  obtain ⟨u, hu, hn | ⟨c, n, hn⟩⟩ := h <;> rw [hn] at ho <;> cases ho
  · exact ⟨_, hu, .inl rfl⟩
  · exact ⟨u, hu, .inr ⟨c, n, rfl⟩⟩

/-! ### The drawing commands -/

/-- A map with every flag set has each one set (R37, R119). -/
theorem dirtyFlag_of_allDirty {s : State} (h : s.dirty = allDirty s.cfg) {y b : Nat} (hy : y < s.cfg.h)
    (hb : b < bandCount s.cfg) : dirtyFlag y b s = true := by
  rw [dirtyFlag, h, allDirty, List.getD_replicate (h := dirtyIndex_lt hy hb)]

theorem RunDraws.answers {A : Int → Prop} {s : State} {r : Run} (h : RunDraws A s r) :
    Answers OnlyDraws s r.outcome :=
  Run.Sat.answers (Run.Sat.mono h (fun _ hd => hd) (fun _ _ _ hf => hf.2.2))

theorem drawPixels_answers {c : Byte} {qs : List (Int × Int)} {s : State} (h : OnCanvas s.cfg qs) :
    Answers OnlyDraws s (drawPixels c qs s) :=
  let ⟨t, ht, hd⟩ := drawPixels_onlyDraws (c := c) h
  ⟨t, hd, .inl ht⟩

/-- FILLSCREEN only draws: every flag is set after it (R119). -/
theorem execFillScreen_answers (c : Byte) (s : State) : Answers OnlyDraws s (execFillScreen c s) := by
  refine .next ⟨rfl, fun hs => ⟨⟨hs.1, ?_, List.length_replicate⟩, fun y b hy hb _ => ?_, fun x y hc _ => ?_⟩⟩
  · exact ⟨SectorMem.wf_fill _ _, SectorMem.size_fill _ _, SectorMem.wf_fill _ _, SectorMem.size_fill _ _⟩
  · exact dirtyFlag_of_allDirty rfl hy hb
  · obtain ⟨hx, hxw, -, hyh⟩ := hc
    obtain ⟨-, -, -, -, -, -, hbandW, -⟩ := hs.1
    exact dirtyFlag_of_allDirty rfl (by exact_mod_cast hyh) (bandOf_lt hbandW hx hxw)

theorem execBlit_answers (x y w h : Int) (stride addr : Nat) (s : State) :
    Answers OnlyDraws s (execBlit x y w h stride addr s) := by
  unfold execBlit
  split
  · exact .next (.refl s)
  · next k hk =>
    exact (blitLoop_runDraws (A := AnyAddress) hk (fun _ _ _ => trivial)
      fun _ _ _ _ hc ha => blitPixel_runDraws hc ha).answers

theorem execBlitk_answers (x y w h : Int) (stride addr : Nat) (key : Byte) (s : State) :
    Answers OnlyDraws s (execBlitk x y w h stride addr key s) := by
  unfold execBlitk
  split
  · exact .next (.refl s)
  · next k hk =>
    exact (blitLoop_runDraws (A := AnyAddress) hk (fun _ _ _ => trivial)
      fun _ _ _ _ hc ha => blitkPixel_runDraws key hc ha).answers

/-- A text command with no font raises before any effect (R222). -/
theorem needFont_runDraws {A : Int → Prop} {s : State} {body : State → Run} (h : RunDraws A s (body s)) :
    Answers OnlyDraws s (needFont s body).outcome := by
  unfold needFont
  split
  · exact h.answers
  · exact .raise (.refl s) _ _

theorem monoBlit_draws (x y w h addr : Int) (c : Byte) (s : State) :
    RunDraws AnyAddress s (monoBlit x y w h addr c s) :=
  monoBlit_runDraws (fun _ _ => trivial) x y c s

theorem mono2xBlit_draws (x y w h addr : Int) (c : Byte) (s : State) :
    RunDraws AnyAddress s (mono2xBlit x y w h addr c s) :=
  mono2xBlit_runDraws (fun _ _ => trivial) x y c s

/-- A string of glyphs that only draw only draws (R194, R195). -/
theorem stringLoop_draws {glyph : Int → Int → Byte → State → Run}
    (hg : ∀ x y b t, RunDraws AnyAddress t (glyph x y b t)) (addr len : Nat) (x y adv line : Int) (s : State) :
    RunDraws AnyAddress s (stringLoop glyph addr x y adv line len 0 0 0 s) :=
  stringLoop_runDraws len 0 (fun _ _ => trivial) (fun _ x y b t _ _ _ _ _ => hg x y b t) x y adv line 0 0 (.refl s)

/-- The drawing commands only draw, to their end or to the statement where they raise. -/
theorem exec_draws {i : Instr} (hi : drawing i = true) (s : State) : Answers OnlyDraws s (exec i s) := by
  cases i with
  | point x y c => exact drawPixels_answers pointPixels_onCanvas
  | fillScreen c => exact execFillScreen_answers c s
  | hline x y len c => exact drawPixels_answers hlinePixels_onCanvas
  | vline x y len c => exact drawPixels_answers vlinePixels_onCanvas
  | line x0 y0 x1 y1 c => exact drawPixels_answers linePixels_onCanvas
  | rect x y w h c => exact drawPixels_answers rectPixels_onCanvas
  | frect x y w h c => exact drawPixels_answers frectPixels_onCanvas
  | tri x0 y0 x1 y1 x2 y2 c => exact drawPixels_answers triPixels_onCanvas
  | ftri x0 y0 x1 y1 x2 y2 c => exact drawPixels_answers ftriPixels_onCanvas
  | circ x y r c => exact drawPixels_answers circPixels_onCanvas
  | fcirc x y r c => exact drawPixels_answers fcircPixels_onCanvas
  | blit x y w h stride addr => exact execBlit_answers x y w h stride addr s
  | blitk x y w h stride addr key => exact execBlitk_answers x y w h stride addr key s
  | mono x y w h addr c => exact (monoBlit_draws ..).answers
  | mono2x x y w h addr c => exact (mono2xBlit_draws ..).answers
  | char x y code c => exact needFont_runDraws (monoBlit_draws ..)
  | char2x x y code c => exact needFont_runDraws (mono2xBlit_draws ..)
  | str x y addr len c => exact needFont_runDraws (stringLoop_draws (fun _ _ _ _ => monoBlit_draws ..) ..)
  | str2x x y addr len c => exact needFont_runDraws (stringLoop_draws (fun _ _ _ _ => mono2xBlit_draws ..) ..)
  | _ => exact absurd hi Bool.false_ne_true

/-! ### Every command -/

/-- What each command can do to the state on the way to its end, or to the statement where it raises (R20, R31, R104). -/
inductive Effect : Instr → State → State → Prop
  | nop {s : State} : Effect .nop s s
  | palDefault {s : State} (p : List Word) : Effect .palDefault s { s with pal := p }
  | palLoad {s : State} (addr count : Nat) (p : List Word) : Effect (.palLoad addr count) s { s with pal := p }
  | palRead {s : State} (idx : Byte) (v : Word) : Effect (.palRead idx) s { s with res0 := v }
  | getPixel {s : State} (x y : Int) (v : Word) : Effect (.getPixel x y) s { s with res0 := v }
  | crop {s : State} (start len view : Int) (u v w : Word) :
    Effect (.crop start len view) s { s with res0 := u, res1 := v, res2 := w }
  | draw {i : Instr} {s t : State} (hi : drawing i = true) (h : OnlyDraws s t) : Effect i s t
  | grab {s t : State} (x y w h : Int) (stride addr : Nat) (hst : OnlyStores s t) :
    Effect (.grab x y w h stride addr) s t
  | xform {s t : State} (src : Nat) (sw sh : Int) (ss sx sy : Nat) (ang : Int) (dst : Nat) (bg : Byte) (u v : Word)
    (hst : OnlyStores s t) : Effect (.xform src sw sh ss sx sy ang dst bg) s { t with res0 := u, res1 := v }
  | font {s : State} (addr : Nat) (width height : Int) (a : BitVec 32) (w h : Word) (v : Bool) :
    Effect (.font addr width height) s { s with fontAddr := a, fontW := w, fontH := h, fontV := v }
  | flush {s : State} (ts : List SinkTx) (d : List Bool) (par il : Bool) :
    Effect .flush s { s with sink := s.sink ++ ts, dirty := d, parity := par, ilace := il, fstate := .idle }

theorem RunStores.answers {A : Int → Prop} {s : State} {r : Run} (h : RunStores A s r) :
    Answers OnlyStores s r.outcome :=
  Run.Sat.answers (Run.Sat.mono h (fun _ hd => hd) (fun _ _ _ hf => hf.2.2))

theorem execPalLoad_effect (addr count : Nat) (s : State) :
    Answers (Effect (.palLoad addr count)) s (execPalLoad addr count s) := by
  unfold execPalLoad
  split
  · exact .raise (.palLoad addr count s.pal) _ _
  · have hpal : ∀ t, OnlyPalette { s with pal := List.replicate 256 0 } t → Effect (.palLoad addr count) s t := by
      rintro t ⟨p, rfl, -⟩
      exact .palLoad addr count p
    exact Run.Sat.answers (Run.Sat.mono (palLoadLoop_sat addr count _) hpal fun _ _ t hf => hpal t hf.2.2)

theorem execGetPixel_effect (x y : Int) (s : State) : Answers (Effect (.getPixel x y)) s (execGetPixel x y s) := by
  unfold execGetPixel
  split <;> exact .next (.getPixel x y _)

theorem execGrab_effect (x y w h : Int) (stride addr : Nat) (s : State) :
    Answers (Effect (.grab x y w h stride addr)) s (execGrab x y w h stride addr s) := by
  unfold execGrab
  split
  · exact .next (.grab x y w h stride addr (.refl s))
  · next k hk =>
    exact (grabLoop_runStores (A := AnyAddress) hk fun _ _ _ => trivial).answers.mono
      fun _ ht => .grab x y w h stride addr ht

/-- XFORM stores, and writes two result registers at its end (R175). -/
theorem execXform_effect (src : Nat) (sw sh : Int) (ss sx sy : Nat) (ang : Int) (dst : Nat) (bg : Byte) (s : State) :
    Answers (Effect (.xform src sw sh ss sx sy ang dst bg)) s (execXform src sw sh ss sx sy ang dst bg s) := by
  have stores : ∀ (t : State) (u v : Word), OnlyStores s t →
      Effect (.xform src sw sh ss sx sy ang dst bg) s { t with res0 := u, res1 := v } :=
    fun t u v ht => .xform src sw sh ss sx sy ang dst bg u v ht
  unfold execXform
  split
  · exact .next (stores s 0 0 (.refl s))
  · extract_lets dw dh
    split
    · exact .raise (stores s s.res0 s.res1 (.refl s)) _ _
    · have hloop : RunStores AnyAddress s (xformLoop src sw sh ss sx sy ang dst bg dw dh s) :=
        xformLoop_runStores (fun _ _ => ⟨trivial, fun _ _ => trivial⟩) bg s
      refine Run.Sat.answers (Run.Sat.bind (P := OnlyStores s) ?_ fun t ht => stores t _ _ ht)
      exact Run.Sat.mono hloop (fun _ ht => ht) fun _ _ t hf => stores t t.res0 t.res1 hf.2.2

theorem execFont_effect (addr : Nat) (width height : Int) (s : State) :
    Answers (Effect (.font addr width height)) s (execFont addr width height s) := by
  have unchanged : Effect (.font addr width height) s s :=
    .font addr width height s.fontAddr s.fontW s.fontH s.fontV
  unfold execFont
  split
  · exact .raise unchanged _ _
  · split
    · exact .raise unchanged _ _
    · exact .next (.font addr width height _ _ _ _)

theorem execFlush_effect (s : State) : Answers (Effect .flush) s (execFlush s) := by
  obtain ⟨ts, d, par, il, -, hflush⟩ := execFlush_eq s
  rw [hflush]
  exact .next (.flush ts d par il)

/-- Every command answers a next state reached by its effect, or the fault state of what it raised there. -/
theorem exec_effect (i : Instr) (s : State) : Answers (Effect i) s (exec i s) := by
  cases i with
  | nop => exact .next (.nop)
  | palDefault => exact .next (.palDefault _)
  | palLoad addr count => exact execPalLoad_effect addr count s
  | palRead idx => exact .next (.palRead idx _)
  | getPixel x y => exact execGetPixel_effect x y s
  | crop start len view => exact .next (.crop start len view _ _ _)
  | grab x y w h stride addr => exact execGrab_effect x y w h stride addr s
  | xform src sw sh ss sx sy ang dst bg => exact execXform_effect src sw sh ss sx sy ang dst bg s
  | font addr width height => exact execFont_effect addr width height s
  | flush => exact execFlush_effect s
  | _ => exact (exec_draws rfl s).mono fun _ ht => .draw rfl ht

/-! ## Footprints (R20, R31, R104) -/

/-- Everything command `i` leaves as it is, from `s` to `t`: one field per part of the state, with the commands that may
change it excepted. -/
structure Footprint (i : Instr) (s t : State) : Prop where
  cfg : t.cfg = s.cfg
  resets : t.resets = s.resets
  inputs : t.inputs = s.inputs
  hostReads : t.hostReads = s.hostReads
  sink : i ≠ .flush → t.sink = s.sink ∧ t.parity = s.parity ∧ t.ilace = s.ilace
  memory : (∀ x y w h st a, i ≠ .grab x y w h st a) → (∀ a w h st sx sy g d b, i ≠ .xform a w h st sx sy g d b) →
    t.hmem = s.hmem ∧ t.bus = s.bus
  res0 : (∀ k, i ≠ .palRead k) → (∀ x y, i ≠ .getPixel x y) → (∀ a b c, i ≠ .crop a b c) →
    (∀ a w h st sx sy g d b, i ≠ .xform a w h st sx sy g d b) → t.res0 = s.res0
  res1 : (∀ a b c, i ≠ .crop a b c) → (∀ a w h st sx sy g d b, i ≠ .xform a w h st sx sy g d b) → t.res1 = s.res1
  res2 : (∀ a b c, i ≠ .crop a b c) → t.res2 = s.res2
  font : (∀ a w h, i ≠ .font a w h) →
    t.fontAddr = s.fontAddr ∧ t.fontW = s.fontW ∧ t.fontH = s.fontH ∧ t.fontV = s.fontV
  palette : i ≠ .palDefault → (∀ a n, i ≠ .palLoad a n) → t.pal = s.pal
  canvas : drawing i = false → t.top = s.top ∧ t.bot = s.bot ∧ (i ≠ .flush → t.dirty = s.dirty)

theorem Footprint.refl (i : Instr) (s : State) : Footprint i s s where
  cfg := rfl
  resets := rfl
  inputs := rfl
  hostReads := rfl
  sink _ := ⟨rfl, rfl, rfl⟩
  memory _ _ := ⟨rfl, rfl⟩
  res0 _ _ _ _ := rfl
  res1 _ _ := rfl
  res2 _ := rfl
  font _ := ⟨rfl, rfl, rfl, rfl⟩
  palette _ _ := rfl
  canvas _ := ⟨rfl, rfl, fun _ => rfl⟩

/-- Fault entry changes no part of the state that footprints are about (R224). -/
theorem Footprint.raiseFault {i : Instr} {s t : State} (h : Footprint i s t) (e : Bool) (c : Cause) (n : Int) :
    Footprint i s (raiseFault e c n t) :=
  { h with }

theorem Effect.footprint {i : Instr} {s t : State} (h : Effect i s t) : Footprint i s t := by
  cases h with
  | nop => exact .refl _ s
  | palDefault p => exact { Footprint.refl _ s with palette := fun hn _ => absurd rfl hn }
  | palLoad addr count p => exact { Footprint.refl _ s with palette := fun _ hn => absurd rfl (hn addr count) }
  | palRead idx v => exact { Footprint.refl _ s with res0 := fun hn _ _ _ => absurd rfl (hn idx) }
  | getPixel x y v => exact { Footprint.refl _ s with res0 := fun _ hn _ _ => absurd rfl (hn x y) }
  | crop start len view u v w =>
    exact { Footprint.refl _ s with
      res0 := fun _ _ hn _ => absurd rfl (hn start len view)
      res1 := fun hn _ => absurd rfl (hn start len view)
      res2 := fun hn => absurd rfl (hn start len view) }
  | draw hi hd =>
    rw [show t = { s with top := t.top, bot := t.bot, dirty := t.dirty } from hd.1]
    exact { Footprint.refl i s with canvas := fun hn => nomatch hi.symm.trans hn }
  | grab x y w h stride addr hst =>
    obtain ⟨l, -, rfl⟩ := hst
    rw [storeAll_eq]
    exact { Footprint.refl _ s with memory := fun hn _ => absurd rfl (hn x y w h stride addr) }
  | xform src sw sh ss sx sy ang dst bg u v hst =>
    obtain ⟨l, -, rfl⟩ := hst
    rw [storeAll_eq]
    exact { Footprint.refl _ s with
      memory := fun _ hn => absurd rfl (hn src sw sh ss sx sy ang dst bg)
      res0 := fun _ _ _ hn => absurd rfl (hn src sw sh ss sx sy ang dst bg)
      res1 := fun _ hn => absurd rfl (hn src sw sh ss sx sy ang dst bg) }
  | font addr width height a w h v =>
    exact { Footprint.refl _ s with font := fun hn => absurd rfl (hn addr width height) }
  | flush ts d par il =>
    exact { Footprint.refl _ s with
      sink := fun hn => absurd rfl hn
      canvas := fun _ => ⟨rfl, rfl, fun hn => absurd rfl hn⟩ }

/-- A command keeps to its footprint, faulting or not. -/
theorem exec_footprint {i : Instr} {s t : State} (h : exec i s = .next t) : Footprint i s t := by
  obtain ⟨u, hu, rfl | ⟨c, n, rfl⟩⟩ := (exec_effect i s).reached h
  · exact hu.footprint
  · exact hu.footprint.raiseFault true c n

/-- Settles O59: every command has one of the effects of `Effect`, each inside its footprint. -/
theorem commandFootprints : Obligations.CommandFootprints := by
  intro i s t h
  obtain ⟨hcfg, hresets, hinputs, hreads, hsink, hmemory, hres0, hres1, hres2, hfont, hpalette, hcanvas⟩ :=
    exec_footprint h
  exact ⟨hcfg, hresets, hinputs, hreads, hsink, hmemory, hres0, hres1, hres2, hfont, hpalette, hcanvas⟩

/-! ## Changed pixels and the dirty map (R23, R123) -/

/-- A pixel read looks at the parameters, the sectors and the number of resets only (R112). -/
theorem canvasRead_congr {s t : State} (hcfg : t.cfg = s.cfg) (htop : t.top = s.top) (hbot : t.bot = s.bot)
    (hresets : t.resets = s.resets) (x y : Int) : canvasRead x y t = canvasRead x y s := by
  have hsector : ∀ d, sectorOf d t = sectorOf d s := fun d => by cases d <;> assumption
  simp only [canvasRead, sectorByte, hcfg, hresets, hsector]

theorem dirtyFlag_congr {s t : State} (hcfg : t.cfg = s.cfg) (hdirty : t.dirty = s.dirty) (y b : Nat) :
    dirtyFlag y b t = dirtyFlag y b s := by
  rw [dirtyFlag, dirtyFlag, hcfg, hdirty]

/-- No flag is cleared from `s` to `t`, and every pixel that changed has its band marked (R123). -/
structure MarksChanges (s t : State) : Prop where
  flags : ∀ y b, y < s.cfg.h → b < bandCount s.cfg → dirtyFlag y b s = true → dirtyFlag y b t = true
  pixels : ∀ x y : Nat, InCanvas s.cfg x y → canvasRead x y t ≠ canvasRead x y s →
    dirtyFlag y (bandOf s.cfg x) t = true

theorem OnlyDraws.marksChanges {s t : State} (h : OnlyDraws s t) (hs : Drawable s) : MarksChanges s t :=
  let ⟨_, hflags, hpixels⟩ := h.2 hs
  ⟨hflags, hpixels⟩

/-- Fault entry touches neither the canvas nor the dirty map (R224). -/
theorem MarksChanges.raiseFault {s t : State} (h : MarksChanges s t) (e : Bool) (c : Cause) (n : Int) :
    MarksChanges s (raiseFault e c n t) :=
  ⟨h.flags, h.pixels⟩

/-- A command that does not draw, and is not FLUSH, changes neither the canvas nor the dirty map. -/
theorem Footprint.marksChanges {i : Instr} {s t : State} (h : Footprint i s t) (hi : drawing i = false)
    (hflush : i ≠ .flush) : MarksChanges s t := by
  obtain ⟨htop, hbot, hdirty⟩ := h.canvas hi
  refine ⟨fun y b _ _ hd => ?_, fun x y _ hne => ?_⟩
  · rwa [dirtyFlag_congr h.cfg (hdirty hflush)]
  · exact absurd (canvasRead_congr h.cfg htop hbot h.resets x y) hne

theorem exec_marksChanges {i : Instr} {s t : State} (hs : Drawable s) (h : exec i s = .next t) (hflush : i ≠ .flush) :
    MarksChanges s t := by
  cases hi : drawing i with
  | true =>
    obtain ⟨u, hu, rfl | ⟨c, n, rfl⟩⟩ := (exec_draws hi s).reached h
    · exact hu.marksChanges hs
    · exact (hu.marksChanges hs).raiseFault true c n
  | false => exact (exec_footprint h).marksChanges hi hflush

/-- Settles O60: a drawing command only draws, and every other one but FLUSH leaves canvas and dirty map alone. -/
theorem changedPixelsAreDirty : Obligations.ChangedPixelsAreDirty := by
  intro i s t hs h hflush
  obtain ⟨hflags, hpixels⟩ := exec_marksChanges hs.drawable h hflush
  exact ⟨hflags, hpixels⟩

/-! ## What the host sees of one event -/

theorem step_of_input {s : State} {e : HostEvent} {rest : List HostEvent} (h : s.inputs = e :: rest) :
    step s = hostStep e { s with inputs := rest } := by
  rw [step, h]

theorem hostStep_regRead_some {off : Nat} {s : State} {v : Word} (h : readReg off s = some v) :
    hostStep (.regRead off 16) s = .next { s with hostReads := s.hostReads ++ [v] } := by
  rw [hostStep, if_pos rfl, h]

theorem hostStep_regRead_none {off : Nat} {s : State} (h : readReg off s = none) :
    hostStep (.regRead off 16) s = .refused .registerAccess := by
  rw [hostStep, if_pos rfl, h]

theorem hostStep_regWrite_some {off : Nat} {s t : State} {v : Word} (h : writeReg off v s = some t) :
    hostStep (.regWrite off 16 v) s = .next t := by
  rw [hostStep, if_pos rfl, h]

theorem hostStep_regWrite_none {off : Nat} {s : State} {v : Word} (h : writeReg off v s = none) :
    hostStep (.regWrite off 16 v) s = .refused .registerAccess := by
  rw [hostStep, if_pos rfl, h]

theorem hostStep_regRead_width {off width : Nat} (h : width ≠ 16) (s : State) :
    hostStep (.regRead off width) s = .refused .registerAccess := by
  rw [hostStep, if_neg h]

theorem hostStep_regWrite_width {off width : Nat} (h : width ≠ 16) (v : Word) (s : State) :
    hostStep (.regWrite off width v) s = .refused .registerAccess := by
  rw [hostStep, if_neg h]

/-! ## The fault state and what leaves it (R32, R229) -/

/-- The machine is in the fault state, with the cause and the information it had. -/
structure StaysFaulted (s t : State) : Prop where
  fault : t.fault = true
  fcause : t.fcause = s.fcause
  finfo : t.finfo = s.finfo

/-- A later fault is not recorded (R224). -/
theorem staysFaulted_raiseFault {s : State} (hs : s.fault = true) (e : Bool) (c : Cause) (n : Int) :
    StaysFaulted s (raiseFault e c n s) where
  fault := rfl
  fcause := by rw [raiseFault_fcause, if_pos hs]
  finfo := by rw [raiseFault_finfo, if_pos hs]

theorem exec_staysFaulted {i : Instr} {s t : State} (hs : s.fault = true) (h : exec i s = .next t) :
    StaysFaulted s t := by
  obtain ⟨u, hk, hu⟩ := exec_answersKeeping i s
  have hfault : u.fault = true := hk.fault.trans hs
  rcases hu with hu | ⟨c, n, hu⟩ <;> rw [hu] at h <;> cases h
  · exact ⟨hfault, hk.fcause, hk.finfo⟩
  · obtain ⟨hf, hc, hn⟩ := staysFaulted_raiseFault hfault true c n
    exact ⟨hf, hc.trans hk.fcause, hn.trans hk.finfo⟩

theorem completeCommand_staysFaulted {i : Instr} {s t : State} (hs : s.fault = true)
    (h : completeCommand i s = .next t) : StaysFaulted s t := by
  unfold completeCommand at h
  split at h
  · next u hu =>
    cases h
    obtain ⟨hf, hc, hn⟩ := exec_staysFaulted hs hu
    exact ⟨hf, hc, hn⟩
  · cases h
  · cases h

/-- In the fault state nothing is fetched (R224). -/
theorem fetchThen_of_fault {run : Instr → State → Out} {s : State} (hs : s.fault = true) :
    fetchThen run s = .next s :=
  if_pos hs

theorem engineTurn_staysFaulted {s t : State} (hs : s.fault = true) (h : engineTurn s = .next t) :
    StaysFaulted s t := by
  unfold engineTurn at h
  split at h
  · exact completeCommand_staysFaulted hs h
  · rw [fetchThen_of_fault hs] at h
    cases h
    exact ⟨hs, rfl, rfl⟩

theorem engineBegin_of_fault {s : State} (hs : s.fault = true) : engineBegin s = .next s := by
  unfold engineBegin
  split
  · rfl
  · exact fetchThen_of_fault hs

/-- A write of CMD in the fault state is discarded (R30). -/
theorem writeCmd_of_fault {s : State} (w : Word) (hs : s.fault = true) : writeCmd w s = s :=
  if_pos hs

theorem writeCtrl_of_bit_clear {v : Word} (s : State) (hv : v.getLsbD 0 = false) : writeCtrl v s = s :=
  if_neg (by rw [hv]; exact Bool.false_ne_true)

theorem writeCtrl_of_bit_set {v : Word} (s : State) (hv : v.getLsbD 0 = true) : writeCtrl v s = hostReset s :=
  if_pos hv

/-- What a write of a listed register does: CMD, CTRL, or nothing (R28). -/
theorem writeReg_cases {off : Nat} {v : Word} {s t : State} (h : writeReg off v s = some t) :
    off = 0x00 ∧ t = writeCmd v s ∨ off = 0x10 ∧ t = writeCtrl v s ∨ t = s := by
  unfold writeReg at h
  split at h
  · next hoff =>
    cases h
    exact .inl ⟨hoff, rfl⟩
  · split at h
    · next hoff =>
      cases h
      exact .inr (.inl ⟨hoff, rfl⟩)
    · split at h <;> cases h
      exact .inr (.inr rfl)

/-- Of the writes of registers, only that of CTRL with bit 0 set leaves the fault state. -/
theorem writeReg_staysFaulted {off : Nat} {v : Word} {s t : State} (hs : s.fault = true)
    (he : ¬ isReset (.regWrite off 16 v)) (h : writeReg off v s = some t) : StaysFaulted s t := by
  have hsame : t = s := by
    rcases writeReg_cases h with ⟨-, ht⟩ | ⟨rfl, ht⟩ | ht
    · rw [ht, writeCmd_of_fault v hs]
    · have hv : v.getLsbD 0 = false := by
        cases hv : v.getLsbD 0 with
        | false => rfl
        | true => exact absurd (.inr ⟨v, hv, rfl⟩) he
      rw [ht, writeCtrl_of_bit_clear s hv]
    · exact ht
  rw [hsame]
  exact ⟨hs, rfl, rfl⟩

theorem hostStep_staysFaulted {e : HostEvent} {s t : State} (hs : s.fault = true) (he : ¬ isReset e)
    (h : hostStep e s = .next t) : StaysFaulted s t := by
  cases e with
  | regWrite off width v =>
    simp only [hostStep] at h
    split at h
    · next hwidth =>
      subst hwidth
      split at h <;> cases h
      exact writeReg_staysFaulted hs he ‹_›
    · cases h
  | regRead off width =>
    simp only [hostStep] at h
    split at h
    · split at h <;> cases h
      exact ⟨hs, rfl, rfl⟩
    · cases h
  | memWrite a v =>
    simp only [hostStep] at h
    split at h <;> cases h
    exact ⟨hs, rfl, rfl⟩
  | hwReset => exact absurd (.inl rfl) he
  | engineBegin =>
    rw [hostStep, engineBegin_of_fault hs] at h
    cases h
    exact ⟨hs, rfl, rfl⟩
  | engineTurn => exact engineTurn_staysFaulted hs h

/-- Settles O12: the engine's turn and every event but the two triggers of reset stay in the fault state. -/
theorem onlyResetLeavesFaultState : Obligations.OnlyResetLeavesFaultState := by
  intro s t hs h
  unfold step at h
  split at h
  · obtain ⟨hf, hc, hn⟩ := engineTurn_staysFaulted hs h
    exact .inl ⟨hf, hc, hn⟩
  · next e rest hin =>
    by_cases he : isReset e
    · exact .inr ⟨e, rest, hin, he⟩
    · obtain ⟨hf, hc, hn⟩ := hostStep_staysFaulted (s := { s with inputs := rest }) hs he h
      exact .inl ⟨hf, hc, hn⟩

/-! ## Reset while busy (R250, R252) -/

/-- The event is a reset at once, by either trigger (R33, R250). -/
theorem step_of_reset {s : State} {e : HostEvent} {rest : List HostEvent} (hin : s.inputs = e :: rest)
    (he : isReset e) : step s = .next (hostReset { s with inputs := rest }) := by
  rw [step_of_input hin]
  obtain rfl | ⟨v, hv, rfl⟩ := he
  · rfl
  · rw [← writeCtrl_of_bit_set _ hv]
    rfl

/-- Between `s` and `t` the sink took the transactions `ts` and host memory the writes `ws`, of one kind only. -/
structure External (ts : List SinkTx) (ws : List Host.Cell) (s t : State) : Prop where
  sink : t.sink = s.sink ++ ts
  bus : t.bus = s.bus ++ ws
  hmem : t.hmem = ws.foldl (fun m c => Memory.write m c.1 c.2) s.hmem
  oneKind : ts = [] ∨ ws = []

theorem External.none {s t : State} (hsink : t.sink = s.sink) (hbus : t.bus = s.bus) (hmem : t.hmem = s.hmem) :
    External [] [] s t :=
  ⟨by rw [hsink, List.append_nil], by rw [hbus, List.append_nil], hmem, .inl rfl⟩

theorem External.storeAll (l : List Host.Cell) (s : State) : External [] l s (storeAll l s) := by
  rw [storeAll_eq]
  exact ⟨(List.append_nil _).symm, rfl, rfl, .inl rfl⟩

/-- Fault entry has no effect outside the engine (R224). -/
theorem External.raiseFault {ts : List SinkTx} {ws : List Host.Cell} {s t : State} (h : External ts ws s t) (e : Bool)
    (c : Cause) (n : Int) : External ts ws s (raiseFault e c n t) :=
  { h with }

theorem Effect.external {i : Instr} {s t : State} (h : Effect i s t) : ∃ ts ws, External ts ws s t := by
  cases h with
  | draw hi hd =>
    rw [show t = { s with top := t.top, bot := t.bot, dirty := t.dirty } from hd.1]
    exact ⟨[], [], .none rfl rfl rfl⟩
  | grab x y w h stride addr hst =>
    obtain ⟨l, -, rfl⟩ := hst
    exact ⟨[], l, .storeAll l s⟩
  | xform src sw sh ss sx sy ang dst bg u v hst =>
    obtain ⟨l, -, rfl⟩ := hst
    exact ⟨[], l, { External.storeAll l s with }⟩
  | flush ts d par il => exact ⟨ts, [], rfl, (List.append_nil _).symm, rfl, .inr rfl⟩
  | _ => exact ⟨[], [], .none rfl rfl rfl⟩

/-- A command's effects outside the engine are sink transactions or host-memory writes, faulting or not (R252). -/
theorem exec_external {i : Instr} {s t : State} (h : exec i s = .next t) : ∃ ts ws, External ts ws s t := by
  obtain ⟨u, hu, rfl | ⟨c, n, rfl⟩⟩ := (exec_effect i s).reached h
  · exact hu.external
  · obtain ⟨ts, ws, hext⟩ := hu.external
    exact ⟨ts, ws, hext.raiseFault true c n⟩

/-- What an abandoned command had done: the first of its transactions and writes (R252; log 7). -/
theorem abandonCommand_of_external {i : Instr} {s t : State} {ts : List SinkTx} {ws : List Host.Cell}
    (hcur : s.cur = some i) (h : exec i s = .next t) (hext : External ts ws s t) :
    abandonCommand s =
      { s with
        hmem := (ws.take (Config.freeAbandonPoint s.resets)).foldl (fun m c => Memory.write m c.1 c.2) s.hmem
        bus := s.bus ++ ws.take (Config.freeAbandonPoint s.resets)
        sink := s.sink ++ ts.take (Config.freeAbandonPoint s.resets) } := by
  simp only [abandonCommand, hcur, h, hext.sink, hext.bus, List.drop_left]

/-- Settles O14: the reset leaves the first `Config.freeAbandonPoint` of the command's effects. -/
theorem abandonedCommandLeavesPrefix : Obligations.AbandonedCommandLeavesPrefix := by
  intro s t e rest i hin he hcur h
  obtain ⟨ts, ws, hext⟩ := exec_external h
  have hab := abandonCommand_of_external (s := { s with inputs := rest }) hcur h hext
  refine ⟨hostReset { s with inputs := rest }, Config.freeAbandonPoint s.resets, ts, ws, hext.sink, hext.bus,
    hext.hmem, hext.oneKind, step_of_reset hin he, ?_⟩
  rw [hostReset, hab]
  exact ⟨rfl, rfl, rfl, rfl⟩

/-! ## What a reset leaves (R37, R251, R253) -/

/-- Abandoning changes host memory, the journal and the sink at most, and those only where a command was in execution
(R252). -/
theorem abandonCommand_frame (s : State) :
    ∃ m b k, abandonCommand s = { s with hmem := m, bus := b, sink := k } ∧
      (s.cur = none → m = s.hmem ∧ k = s.sink ∧ b = s.bus) := by
  unfold abandonCommand
  split
  · exact ⟨s.hmem, s.bus, s.sink, rfl, fun _ => ⟨rfl, rfl, rfl⟩⟩
  · next i hcur =>
    have hbusy : s.cur ≠ none := by rw [hcur]; exact Option.some_ne_none i
    split
    · exact ⟨_, _, _, rfl, fun hnone => absurd hnone hbusy⟩
    · exact ⟨s.hmem, s.bus, s.sink, rfl, fun hnone => absurd hnone hbusy⟩
    · exact ⟨s.hmem, s.bus, s.sink, rfl, fun hnone => absurd hnone hbusy⟩

theorem palMap_resetEngine {s : State} (h : s.cfg.defpal.length = 16) (k : Byte) :
    palMap k (resetEngine s) = if k.toNat < 16 then s.cfg.defpal.getD k.toNat 0 else 0 :=
  defaultPalette_getD h k.toNat

/-- Every flag is set after a reset (R37). -/
theorem dirtyFlag_resetEngine {s : State} {y b : Nat} (hy : y < s.cfg.h) (hb : b < bandCount s.cfg) :
    dirtyFlag y b (resetEngine s) = true :=
  dirtyFlag_of_allDirty (s := resetEngine s) rfl hy hb

/-- A pixel after a reset is the free byte of that reset (R37; log 1). -/
theorem canvasRead_resetEngine {s : State} {x y : Int} {d : Sector} {off : Nat}
    (h : translate s.cfg x y = some (d, off)) :
    canvasRead x y (resetEngine s) = some (Config.freeCanvasByte (s.resets + 1) (d == .bot) off) := by
  rw [canvasRead_of_translate (s := resetEngine s) h, sectorByte, resetEngine_resets]
  have hblank : SectorMem.get (sectorOf d (resetEngine s)) off = none := by
    cases d <;> exact SectorMem.get_blank _ off
  rw [hblank, Option.getD_none]

/-- STATUS reads 0 after a reset, the FIFO being empty and not of depth 0 (R29, R37). -/
theorem statusWord_resetEngine {s : State} (h : 0 < s.cfg.fifoDepth) : statusWord (resetEngine s) = 0 := by
  have hfull : (0 == s.cfg.fifoDepth) = false := beq_false_of_ne (by omega)
  have hidle : (FlushState.idle == FlushState.flushing) = false := rfl
  simp [statusWord, busy, execBit, flagAt, hfull, hidle]

/-- Legal parameters give the FIFO a depth of at least 11 words (R9). -/
theorem fifoDepth_ge {p : Config} (h : ConfigWf p) : 11 ≤ p.fifoDepth := by
  obtain ⟨-, -, -, -, -, -, -, -, hdepth, -, -⟩ := h
  exact hdepth

/-- Settles O13: either trigger abandons the command in execution and then puts the engine at its reset values. -/
theorem resetProcedure : Obligations.ResetProcedure := by
  intro s e rest hs hin he
  have hcfg : ConfigWf s.cfg := hs.1
  have hdefpal : s.cfg.defpal.length = 16 := defpal_length hcfg
  obtain ⟨m, b, k, hab, hidle⟩ := abandonCommand_frame { s with inputs := rest }
  refine ⟨_, step_of_reset hin he, ?_⟩
  rw [hostReset, hab]
  exact ⟨rfl, hidle, defaultPalette_length hdefpal, palMap_resetEngine hdefpal, List.length_replicate,
    fun _ _ hy hb => dirtyFlag_resetEngine hy hb, fun _ _ _ _ => canvasRead_resetEngine,
    statusWord_resetEngine (Nat.lt_of_lt_of_le (by decide) (fifoDepth_ge hcfg))⟩

/-! ## The bits of STATUS (R29) -/

theorem getLsbD_flagAt {n : Nat} (hn : n < 16) (b : Bool) (k : Nat) : (flagAt n b).getLsbD k = (decide (k = n) && b) := by
  rw [flagAt, BitVec.getLsbD_ofNat]
  cases b with
  | false => simp
  | true =>
    rw [Bool.toNat_true, Nat.one_mul, Nat.testBit_two_pow, Bool.and_true]
    by_cases hk : k = n
    · simp [hk, hn]
    · simp [hk, Ne.symm hk]

/-- A bit of STATUS, by its number (R29). -/
theorem getLsbD_statusWord (s : State) (k : Nat) :
    (statusWord s).getLsbD k =
      (decide (k = 0) && busy s || decide (k = 1) && (s.fstate == .flushing) || decide (k = 2) && s.fault ||
        decide (k = 3) && s.parity || decide (k = 4) && s.ilace || decide (k = 5) && s.fontV ||
        decide (k = 6) && (s.fifo.length == s.cfg.fifoDepth)) := by
  simp only [statusWord, BitVec.getLsbD_or, getLsbD_flagAt (show 0 < 16 by decide),
    getLsbD_flagAt (show 1 < 16 by decide), getLsbD_flagAt (show 2 < 16 by decide),
    getLsbD_flagAt (show 3 < 16 by decide), getLsbD_flagAt (show 4 < 16 by decide),
    getLsbD_flagAt (show 5 < 16 by decide), getLsbD_flagAt (show 6 < 16 by decide)]

theorem busy_iff (s : State) : busy s = true ↔ 0 < s.fifo.length ∨ ∃ i, s.cur = some i := by
  rw [busy, execBit, Bool.or_eq_true, Bool.not_eq_true', List.isEmpty_eq_false_iff, List.length_pos_iff,
    Option.isSome_iff_exists]

/-- In the fault state BUSY is the command a FifoOverrun did not stop (R29). -/
theorem busy_of_fault {s : State} (hs : FaultWf s) (hf : s.fault = true) (hb : busy s = true) :
    s.fcause = 5 ∧ ∃ i, s.cur = some i := by
  obtain ⟨hfifo, -, -, hcause⟩ := hs.2 hf
  obtain hlen | hcur := (busy_iff s).1 hb
  · rw [hfifo] at hlen
    cases hlen
  · exact ⟨hcause (Option.isSome_iff_exists.2 hcur), hcur⟩

/-- Settles O16: each bit of STATUS is its flag, and BUSY in the fault state follows from the invariant. -/
theorem statusBits : Obligations.StatusBits := by
  intro s rest ⟨_, _, hfault, _, _⟩ hin
  have hread : step s = .next { s with inputs := rest, hostReads := s.hostReads ++ [statusWord s] } := by
    rw [step_of_input hin]
    exact hostStep_regRead_some (s := { s with inputs := rest }) rfl
  have hbusy : (statusWord s).getLsbD 0 = busy s := by rw [getLsbD_statusWord]; simp
  refine ⟨statusWord s, hread, ?_, ?_, ?_, ?_, ?_, ?_, ?_, fun k hk => ?_, fun hf hb => ?_⟩
  · rw [hbusy, busy_iff]
  · rw [getLsbD_statusWord]; simp
  · rw [getLsbD_statusWord]; simp
  · rw [getLsbD_statusWord]; simp
  · rw [getLsbD_statusWord]; simp
  · rw [getLsbD_statusWord]; simp
  · rw [getLsbD_statusWord]; simp
  · rw [getLsbD_statusWord]
    have hne : ∀ n, n < 7 → k ≠ n := by omega
    simp [hne]
  · exact busy_of_fault hfault hf (hbusy.symm.trans hb)

/-! ## FONT (R190) -/

/-- An operand word as an unsigned number (R14). -/
theorem toNat_ofInt_word (v : Int) : ((BitVec.ofInt 16 v).toNat : Int) = v % 65536 := by
  rw [BitVec.toNat_ofInt]
  omega

/-- A non-negative `s16` operand is its own word (R83). -/
theorem toNat_ofInt_eq {v : Int} (h : isS16 v = true) (hpos : 1 ≤ v) : ((BitVec.ofInt 16 v).toNat : Int) = v := by
  rw [isS16_iff] at h
  rw [toNat_ofInt_word]
  omega

theorem execFont_legal {width height : Int} (addr : Nat) (s : State) (hw : 1 ≤ width) (hh : 1 ≤ height) :
    execFont addr width height s =
      .next { s with
        fontAddr := BitVec.ofNat 32 addr, fontW := BitVec.ofInt 16 width, fontH := BitVec.ofInt 16 height,
        fontV := true } := by
  rw [execFont, if_neg (by omega), if_neg (by omega)]

theorem execFont_width {width : Int} (addr : Nat) (height : Int) (s : State) (hw : width < 1) :
    execFont addr width height s = .next (faulted .badOperand (width % 65536) s) := by
  rw [execFont, if_pos hw, toNat_ofInt_word, Run.outcome_raise, raiseFault_eq_faulted]

theorem execFont_height {width height : Int} (addr : Nat) (s : State) (hw : 1 ≤ width) (hh : height < 1) :
    execFont addr width height s = .next (faulted .badOperand (height % 65536) s) := by
  rw [execFont, if_neg (by omega), if_pos hh, toNat_ofInt_word, Run.outcome_raise, raiseFault_eq_faulted]

/-- Settles O49: the three branches of FONT, the operands of a legal one keeping their values as words. -/
theorem fontSets : Obligations.FontSets := by
  intro s addr width height hwf
  simp only [Instr.wellFormed, Bool.and_eq_true] at hwf
  obtain ⟨⟨haddr, hws⟩, hhs⟩ := hwf
  refine ⟨fun hw hh => ?_, execFont_width addr height s, execFont_height addr s⟩
  refine ⟨_, execFont_legal addr s hw hh, rfl, ?_, toNat_ofInt_eq hws hw, toNat_ofInt_eq hhs hh⟩
  rw [BitVec.toNat_ofNat]
  exact Nat.mod_eq_of_lt (of_decide_eq_true haddr)

/-! ## The state after reset -/

/-- This hardware's parameters are legal (R9, R10). -/
theorem hardware_wf : ConfigWf hardware := by
  refine ⟨?_, ?_, ?_, ?_, ?_, ?_, ?_, ?_, ?_, ?_, .inr rfl⟩
  case refine_10 => rfl
  all_goals decide

theorem reset_sound : State.reset.Sound :=
  ⟨hardware_wf, ⟨SectorMem.wf_blank (topSize hardware), SectorMem.size_blank (topSize hardware),
      SectorMem.wf_blank (botSize hardware), SectorMem.size_blank (botSize hardware)⟩,
    defaultPalette_length (defpal_length hardware_wf), List.length_replicate, ⟨nofun, fun _ => ⟨rfl, rfl, rfl⟩⟩, rfl, rfl⟩

/-- Settles O10: the state is sound and idle, and its fault registers are 0. -/
theorem resetMeetsInvariant : Obligations.ResetMeetsInvariant :=
  inv_of_idle reset_sound (Nat.zero_le _) ⟨fun _ => ⟨rfl, rfl⟩, nofun⟩ rfl rfl

/-! ## Writes of CMD (R30) -/

theorem step_of_cmdWrite {s : State} {rest : List HostEvent} {w : Word} (hin : s.inputs = .regWrite 0x00 16 w :: rest) :
    step s = .next (writeCmd w { s with inputs := rest }) := by
  rw [step_of_input hin]
  exact hostStep_regWrite_some rfl

theorem writeCmd_of_room {s : State} (w : Word) (hf : s.fault = false) (hroom : s.fifo.length < s.cfg.fifoDepth) :
    writeCmd w s = { s with fifo := s.fifo ++ [w] } := by
  rw [writeCmd, if_neg (by rw [hf]; exact Bool.false_ne_true), if_pos hroom]

theorem ofInt_zext16 (w : Word) : BitVec.ofInt 32 (zext16 w) = w.setWidth 32 := by
  rw [zext16, BitVec.ofInt_natCast, BitVec.ofNat_toNat]

/-- FifoOverrun: recorded, the FIFO emptied, a command in execution not stopped (R30, R224). -/
theorem writeCmd_of_full {s : State} (w : Word) (hf : s.fault = false) (hfull : s.fifo.length = s.cfg.fifoDepth) :
    writeCmd w s = { s with fifo := [], fault := true, fcause := 5, finfo := w.setWidth 32 } := by
  have hrun : ¬ s.fault = true := by rw [hf]; exact Bool.false_ne_true
  rw [writeCmd, if_neg hrun, if_neg (by omega), raiseFault, if_neg hrun, if_neg hrun, ofInt_zext16]
  rfl

/-- Settles O15: the three branches of a write of CMD. -/
theorem cmdWrite : Obligations.CmdWrite := by
  intro s rest w hin
  rw [step_of_cmdWrite hin]
  refine ⟨fun hf => ?_, fun hf hroom => ?_, fun hf hfull => ?_⟩
  · rw [writeCmd_of_fault (s := { s with inputs := rest }) w hf]
  · rw [writeCmd_of_room (s := { s with inputs := rest }) w hf hroom]
  · rw [writeCmd_of_full (s := { s with inputs := rest }) w hf hfull]

/-! ## The register block (R28) -/

/-- The offsets of the ten registers (R28). -/
abbrev registerOffsets : List Nat := [0x00, 0x02, 0x04, 0x06, 0x08, 0x0A, 0x0C, 0x0E, 0x10, 0x12]

/-- The offsets of the registers that are only read (R28). -/
abbrev readOnlyOffsets : List Nat := [0x02, 0x04, 0x06, 0x08, 0x0A, 0x0C, 0x0E, 0x12]

theorem readReg_unlisted {off : Nat} (s : State) (h : off ∉ registerOffsets) : readReg off s = none := by
  simp only [List.mem_cons, List.not_mem_nil, or_false, not_or] at h
  simp only [readReg, h, if_false]

theorem writeReg_unlisted {off : Nat} (v : Word) (s : State) (h : off ∉ registerOffsets) : writeReg off v s = none := by
  simp only [List.mem_cons, List.not_mem_nil, or_false, not_or] at h
  simp only [writeReg, h, if_false, List.mem_cons, List.not_mem_nil, or_false]

/-- A write of a read-only register changes nothing (R28). -/
theorem writeReg_readOnly {off : Nat} (v : Word) (s : State) (h : off ∈ readOnlyOffsets) :
    writeReg off v s = some s := by
  have hcmd : off ≠ 0x00 := by rintro rfl; revert h; decide
  have hctrl : off ≠ 0x10 := by rintro rfl; revert h; decide
  rw [writeReg, if_neg hcmd, if_neg hctrl, if_pos h]

theorem fifoFree_toNat {s : State} (h : s.cfg.fifoDepth - s.fifo.length < 65536) :
    (fifoFree s).toNat = s.cfg.fifoDepth - s.fifo.length := by
  rw [fifoFree, if_pos h, BitVec.toNat_ofNat]
  exact Nat.mod_eq_of_lt h

/-- An access of another width, or of an offset that is not listed, is refused (R28; log 9). -/
theorem hostStep_refuses {e : HostEvent} {off width : Nat} {v : Word} (s : State)
    (he : e = .regRead off width ∨ e = .regWrite off width v) (h : width ≠ 16 ∨ off ∉ registerOffsets) :
    hostStep e s = .refused .registerAccess := by
  by_cases hwidth : width = 16
  · subst hwidth
    have hoff : off ∉ registerOffsets := h.resolve_left fun hne => hne rfl
    obtain rfl | rfl := he
    · exact hostStep_regRead_none (readReg_unlisted s hoff)
    · exact hostStep_regWrite_none (writeReg_unlisted v s hoff)
  · obtain rfl | rfl := he
    · exact hostStep_regRead_width hwidth s
    · exact hostStep_regWrite_width hwidth v s

/-- Settles O17: reads register by register, the writes that are ignored, and the accesses that are refused. -/
theorem registerBlock : Obligations.RegisterBlock := by
  refine ⟨fun s rest off v hin hv => ?_, fun s rest hin => ?_, fun s rest off v hin hoff => ?_,
    fun s rest off width v hin h => ?_⟩
  · rw [step_of_input hin]
    refine hostStep_regRead_some (s := { s with inputs := rest }) ?_
    simp only [List.mem_cons, Prod.mk.injEq, List.not_mem_nil, or_false] at hv
    obtain ⟨rfl, rfl⟩ | ⟨rfl, rfl⟩ | ⟨rfl, rfl⟩ | ⟨rfl, rfl⟩ | ⟨rfl, rfl⟩ | ⟨rfl, rfl⟩ | ⟨rfl, rfl⟩ | ⟨rfl, rfl⟩ |
      ⟨rfl, rfl⟩ := hv <;> rfl
  · refine ⟨fifoFree s, ?_, fifoFree_toNat⟩
    rw [step_of_input hin]
    exact hostStep_regRead_some (s := { s with inputs := rest }) rfl
  · rw [step_of_input hin]
    refine hostStep_regWrite_some ?_
    obtain hro | ⟨rfl, hbit⟩ := hoff
    · exact writeReg_readOnly v _ hro
    · exact congrArg some (writeCtrl_of_bit_clear _ hbit)
  · obtain hin | hin := hin <;> rw [step_of_input hin]
    · exact hostStep_refuses (v := v) _ (.inl rfl) h
    · exact hostStep_refuses _ (.inr rfl) h

end Sys2Proof.Machine

namespace Sys2Proof.Machine

/-! ## No command stops the machine (R51) -/

/-- Settles O8: every command ends or raises, and a raised fault is taken as the next state. -/
theorem everyCommandAnswersANextState : Obligations.EveryCommandAnswersANextState := by
  intro i s
  obtain ⟨t, -, h | ⟨c, n, h⟩⟩ := exec_answersKeeping i s
  · exact ⟨t, h⟩
  · exact ⟨raiseFault true c n t, h⟩

/-! ## The engine's turn (R62, R86) -/

theorem step_of_no_input {s : State} (h : s.inputs = []) : step s = engineTurn s := by
  rw [step, h]

theorem engineTurn_of_cur {s : State} {i : Instr} (h : s.cur = some i) : engineTurn s = completeCommand i s := by
  rw [engineTurn, h]

theorem engineTurn_of_no_cur {s : State} (h : s.cur = none) : engineTurn s = fetchThen completeCommand s := by
  rw [engineTurn, h]

theorem engineBegin_of_no_cur {s : State} (h : s.cur = none) :
    engineBegin s = fetchThen (fun i t => .next { t with fstate := fstateOf i t.fstate }) s := by
  rw [engineBegin, h]

theorem fetchThen_of_command {run : Instr → State → Out} {s : State} {i : Instr} {rest : List Word}
    (hf : s.fault = false) (hd : decode s.fifo = .command i rest) :
    fetchThen run s = run i (startCommand i rest s) := by
  rw [fetchThen, hf, hd]
  rfl

theorem fetchThen_of_illegal {run : Instr → State → Out} {s : State} {h : Word} (hf : s.fault = false)
    (hd : decode s.fifo = .illegal h) : fetchThen run s = .next (raiseFault true .illegalOpcode (zext16 h) s) := by
  rw [fetchThen, hf, hd]
  rfl

/-- With command words missing the engine waits (R86; log 10). -/
theorem fetchThen_of_incomplete {run : Instr → State → Out} {s : State} {n : Nat} (hf : s.fault = false)
    (hd : decode s.fifo = .incomplete n) : fetchThen run s = .next s := by
  rw [fetchThen, hf, hd]
  rfl

/-- Settles O5: either way the step is the engine's turn, which completes the command in execution or the fetched one. -/
theorem stepRunsDecodedCommand : Obligations.StepRunsDecodedCommand := by
  intro s u hu
  have hstep : step s = engineTurn u := by
    obtain ⟨hin, rfl⟩ | ⟨rest, hin, rfl⟩ := hu
    · exact step_of_no_input hin
    · exact step_of_input hin
  rw [hstep]
  refine ⟨fun i rest hf hc hd => ?_, fun i hc => ?_⟩
  · rw [engineTurn_of_no_cur hc, fetchThen_of_command hf hd]
    rfl
  · rw [engineTurn_of_cur hc]
    rfl

/-- That the beginning of a turn sets FSTATE for a FLUSH changes no result: FLUSH sets it itself before anything else
(R25). -/
theorem completeCommand_fstateOf (i : Instr) (s : State) :
    completeCommand i { s with fstate := fstateOf i s.fstate } = completeCommand i s := by
  by_cases hi : i = .flush
  · subst hi
    rfl
  · rw [fstateOf, if_neg hi]

/-- The turn after the beginning of one is the whole turn: it completes what was fetched, and where nothing was, it finds
what the beginning found. -/
theorem engineTurn_after_begin {s : State} (hcur : s.cur = none) (rest : List HostEvent) :
    ∃ u, engineBegin s = .next u ∧ u.inputs = s.inputs ∧
      engineTurn { u with inputs := rest } = engineTurn { s with inputs := rest } := by
  have hbegin := engineBegin_of_no_cur hcur
  have hturn := engineTurn_of_no_cur (s := { s with inputs := rest }) hcur
  by_cases hf : s.fault = true
  · exact ⟨s, hbegin.trans (fetchThen_of_fault hf), rfl, rfl⟩
  · have hf : s.fault = false := Bool.eq_false_of_not_eq_true hf
    cases hd : decode s.fifo with
    | command i ws =>
      refine ⟨_, hbegin.trans (fetchThen_of_command hf hd), rfl, ?_⟩
      rw [hturn, fetchThen_of_command (s := { s with inputs := rest }) hf hd]
      exact completeCommand_fstateOf i (startCommand i ws { s with inputs := rest })
    | illegal h =>
      refine ⟨_, hbegin.trans (fetchThen_of_illegal hf hd), rfl, ?_⟩
      rw [hturn, fetchThen_of_illegal (s := { s with inputs := rest }) hf hd]
      exact (engineTurn_of_no_cur rfl).trans (fetchThen_of_fault rfl)
    | incomplete n => exact ⟨s, hbegin.trans (fetchThen_of_incomplete hf hd), rfl, rfl⟩

/-- Settles O7: the second event is the engine's turn after its beginning. -/
theorem beginThenTurnIsOneTurn : Obligations.BeginThenTurnIsOneTurn := by
  intro s rest hin hcur
  obtain ⟨u, hbegin, hu, hturn⟩ :=
    engineTurn_after_begin (s := { s with inputs := .engineTurn :: rest }) hcur rest
  exact ⟨u, (step_of_input hin).trans hbegin, (step_of_input hu).trans hturn⟩

end Sys2Proof.Machine

namespace Sys2Proof.Machine

/-! ## Loops as walks over lists (R15) -/

theorem Run.bind_assoc (r : Run) (f g : State → Run) : (r.bind f).bind g = r.bind fun t => (f t).bind g := by
  cases r <;> rfl

/-- The body on each element of a list, in order: a loop, with what its passes are about written out. -/
def runEach {α : Type} (body : α → State → Run) : List α → State → Run
  | [], s => .ok s
  | q :: qs, s => (body q s).bind (runEach body qs)

section
variable {α β : Type} {body : α → State → Run}

@[simp] theorem runEach_nil (s : State) : runEach body [] s = .ok s := rfl

theorem runEach_cons (q : α) (l : List α) (s : State) :
    runEach body (q :: l) s = (body q s).bind (runEach body l) := rfl

theorem runEach_append (l m : List α) (s : State) :
    runEach body (l ++ m) s = (runEach body l s).bind (runEach body m) := by
  induction l generalizing s with
  | nil => rfl
  | cons q l ih =>
    rw [List.cons_append, runEach_cons, runEach_cons, Run.bind_assoc]
    exact congrArg _ (funext ih)

theorem runEach_map (f : β → α) (l : List β) (s : State) :
    runEach body (l.map f) s = runEach (fun b => body (f b)) l s := by
  induction l generalizing s with
  | nil => rfl
  | cons b l ih => exact congrArg _ (funext ih)

theorem runEach_flatMap (f : β → List α) (l : List β) (s : State) :
    runEach body (l.flatMap f) s = runEach (fun b => runEach body (f b)) l s := by
  induction l generalizing s with
  | nil => rfl
  | cons b l ih =>
    rw [List.flatMap_cons, runEach_append, runEach_cons]
    exact congrArg _ (funext ih)

/-- A walk whose element `q` raises, the elements before it having ended, raises what `q` raises (R224). -/
theorem runEach_raise {before after : List α} {q : α} {s t u : State} {c : Cause} {n : Int}
    (h : runEach body before s = .ok t) (hq : body q t = .raise c n u) :
    runEach body (before ++ q :: after) s = .raise c n u := by
  rw [runEach_append, h, Run.bind_ok, runEach_cons, hq, Run.bind_raise]

theorem loopFrom_eq_runEach (body : Nat → State → Run) (n i : Nat) (s : State) :
    loopFrom body n i s = runEach body (List.range' i n) s := by
  induction n generalizing i s with
  | zero => rfl
  | succ n ih => exact congrArg _ (funext (ih (i + 1)))

theorem forRange_eq_runEach (n : Nat) (body : Nat → State → Run) (s : State) :
    forRange n body s = runEach body (List.range n) s := by
  rw [forRange, loopFrom_eq_runEach, List.range_eq_range']

/-- Two nested loops are a walk in row-major order. -/
theorem forRange_forRange_eq_runEach (n m : Nat) (f : Nat → Nat → α) (s : State) :
    forRange n (fun j => forRange m fun i => body (f j i)) s =
      runEach body ((List.range n).flatMap fun j => (List.range m).map (f j)) s := by
  rw [forRange_eq_runEach, runEach_flatMap]
  congr 1
  funext j t
  rw [forRange_eq_runEach, runEach_map]

end

/-! ## XFORM's copies in order (R175, R226, R263) -/

/-- One copy of XFORM: the source is read before the destination is written (R175). -/
def copyByte (bg : Byte) (q : Option Int × Int) (s : State) : Run :=
  match q.1 with
  | some a => readByte a s fun v => writeByte q.2 v s
  | none => writeByte q.2 bg s

theorem copyByte_none (bg : Byte) (d : Int) (s : State) : copyByte bg (none, d) s = writeByte d bg s := rfl

theorem copyByte_some (bg : Byte) (a d : Int) (s : State) :
    copyByte bg (some a, d) s = readByte a s fun v => writeByte d v s := rfl

theorem xformPixel_eq_copyByte (src : Nat) (sw sh : Int) (ss : Nat) (q : Int × Int) (a : Int) (bg : Byte) :
    xformPixel src sw sh ss q a bg =
      copyByte bg (if InSource sw sh q then some (xformSrcAddr src ss q.1 q.2) else none, a) := by
  funext s
  unfold xformPixel copyByte
  split <;> rfl

/-- XFORM's loops make its copies in order (R175). -/
theorem xformLoop_eq_runEach (src : Nat) (sw sh : Int) (ss sx sy : Nat) (ang : Int) (dst : Nat) (bg : Byte)
    (dw dh : Int) (s : State) :
    xformLoop src sw sh ss sx sy ang dst bg dw dh s =
      runEach (copyByte bg) (xformCopies src sw sh ss sx sy ang dst dw dh) s := by
  unfold xformLoop xformCopies
  simp only [xformPixel_eq_copyByte]
  exact forRange_forRange_eq_runEach _ _ _ s

theorem copyByte_ok (bg : Byte) {q : Option Int × Int} {s : State} (h : CopyAccessible s.cfg q) :
    copyByte bg q s = .ok (storeByte q.2.toNat (q.1.elim bg fun a => Memory.read s.hmem a.toNat) s) := by
  obtain ⟨src, d⟩ := q
  obtain ⟨hread, hwrite⟩ := h
  cases src with
  | none => rw [copyByte_none, writeByte_ok bg hwrite, Option.elim_none]
  | some a => rw [copyByte_some, readByte_ok _ (hread a rfl), writeByte_ok _ hwrite, Option.elim_some]

theorem copyByte_raise (bg : Byte) {q : Option Int × Int} {s : State} {a : Int} (h : CopyStopsAt s.cfg q a) :
    copyByte bg q s = .raise .hostMemFault a s := by
  obtain ⟨src, d⟩ := q
  obtain ⟨hna, rfl | ⟨rfl, hread⟩⟩ := h
  · rw [copyByte_some, readByte_raise _ hna]
  · cases src with
    | none => rw [copyByte_none, writeByte_raise bg hna]
    | some b => rw [copyByte_some, readByte_ok _ (hread b rfl), writeByte_raise _ hna]

/-- Copies whose bytes may be accessed leave host memory as `copyBytes` says, and change nothing else but the journal. -/
theorem runEach_copyByte (bg : Byte) (l : List (Option Int × Int)) (s : State)
    (h : ∀ q ∈ l, CopyAccessible s.cfg q) :
    ∃ b, runEach (copyByte bg) l s = .ok { s with hmem := copyBytes bg l s.hmem, bus := b } := by
  induction l generalizing s with
  | nil => exact ⟨s.bus, rfl⟩
  | cons q l ih =>
    rw [runEach_cons, copyByte_ok bg (h q List.mem_cons_self), Run.bind_ok]
    exact ih (storeByte q.2.toNat _ s) fun q' hq' => h q' (List.mem_cons_of_mem q hq')

/-- XFORM with a source, a scale and sides that fit makes its copies, then writes its results (R175). -/
theorem exec_xform_eq (src : Nat) {sw sh : Int} (ss : Nat) {sx sy : Nat} {ang dw dh : Int} (dst : Nat) (bg : Byte)
    (s : State) (hne : ¬ XformEmpty sw sh sx sy) (hdw : dw = xformWidth sw sh sx sy ang)
    (hdh : dh = xformHeight sw sh sx sy ang) (hw : dw ≤ 32767) (hh : dh ≤ 32767) :
    exec (.xform src sw sh ss sx sy ang dst bg) s =
      ((runEach (copyByte bg) (xformCopies src sw sh ss sx sy ang dst dw dh) s).bind fun t =>
        .ok { t with res0 := BitVec.ofInt 16 dw, res1 := BitVec.ofInt 16 dh }).outcome := by
  subst hdw hdh
  have hexec : exec (.xform src sw sh ss sx sy ang dst bg) s = execXform src sw sh ss sx sy ang dst bg s := rfl
  rw [hexec, execXform, if_neg hne, if_neg (by omega), xformLoop_eq_runEach]

/-- Settles O43: the copies are made one after another, to the end or to the first that stops. -/
theorem xformRunsInOrder : Obligations.XformRunsInOrder := by
  intro s src sw sh ss sx sy ang dst bg dw dh copies hne hdw hdh hw hh hcopies
  have hexec := exec_xform_eq src ss dst bg s hne hdw hdh hw hh
  rw [← hcopies] at hexec
  refine ⟨fun hall => ?_, fun before q after a hsplit hbefore hstop => ?_⟩
  · obtain ⟨b, hrun⟩ := runEach_copyByte bg copies s hall
    rw [hexec, hrun]
    exact ⟨_, rfl, rfl, rfl⟩
  · obtain ⟨b, hrun⟩ := runEach_copyByte bg before s hbefore
    rw [hexec, hsplit, runEach_raise hrun (copyByte_raise bg hstop)]
    exact ⟨_, rfl, rfl, rfl⟩

end Sys2Proof.Machine

namespace Sys2Proof.Machine

/-! ## The visible pixels of a blit, in order (R161, R164) -/

/-- The visible pixels are those of the box of `BlitClip` (R164). -/
theorem visible_iff_of_blitClip {p : Config} {x y w h : Int} {k : BlitBox} (hk : blitClip p x y w h = some k)
    (px py : Int) :
    Visible p x y w h px py ↔ ∃ r c : Nat, r < k.hn ∧ c < k.wn ∧ px = k.xs + c ∧ py = k.ys + r := by
  constructor
  · rintro ⟨⟨hx, hxw, hy, hyh⟩, hl, hr, ht, hb⟩
    refine ⟨(py - k.ys).toNat, (px - k.xs).toNat, ?_⟩
    unfold blitClip at hk
    rw [if_neg (by omega), if_neg (by omega)] at hk
    cases hk
    simp only [crop]
    rw [if_neg (by omega), if_neg (by omega)]
    dsimp only
    omega
  · rintro ⟨r, c, hr, hc, rfl, rfl⟩
    exact blitClip_visible hk r c hr hc

/-- Where `BlitClip` answers NOTHING no pixel is visible (R164). -/
theorem not_visible_of_blitClip_none {p : Config} {x y w h : Int} (hk : blitClip p x y w h = none) (px py : Int) :
    ¬ Visible p x y w h px py := by
  rintro ⟨⟨hx, hxw, hy, hyh⟩, hl, hr, ht, hb⟩
  unfold blitClip at hk
  rw [if_neg (by omega), if_neg (by omega)] at hk
  cases hk

theorem blitClip_of_visible {p : Config} {x y w h px py : Int} (hv : Visible p x y w h px py) :
    ∃ k, blitClip p x y w h = some k := by
  cases hk : blitClip p x y w h with
  | none => exact absurd hv (not_visible_of_blitClip_none hk px py)
  | some k => exact ⟨k, rfl⟩

/-- The pixels of a visible rectangle, row by row. -/
def boxPixels (k : BlitBox) : List (Int × Int) :=
  (List.range k.hn).flatMap fun (r : Nat) => (List.range k.wn).map fun (c : Nat) => (k.xs + (c : Int), k.ys + (r : Int))

theorem mem_boxPixels {p : Config} {x y w h : Int} {k : BlitBox} (hk : blitClip p x y w h = some k) (px py : Int) :
    (px, py) ∈ boxPixels k ↔ Visible p x y w h px py := by
  rw [visible_iff_of_blitClip hk]
  simp only [boxPixels, List.mem_flatMap, List.mem_map, List.mem_range, Prod.mk.injEq]
  constructor
  · rintro ⟨r, hr, c, hc, rfl, rfl⟩
    exact ⟨r, c, hr, hc, rfl, rfl⟩
  · rintro ⟨r, c, hr, hc, rfl, rfl⟩
    exact ⟨r, hr, c, hc, rfl, rfl⟩

/-- One pixel before another, as pairs. -/
abbrev PairBefore (q q' : Int × Int) : Prop :=
  PixelBefore q.1 q.2 q'.1 q'.2

theorem boxPixels_pairwise (k : BlitBox) : (boxPixels k).Pairwise PairBefore := by
  refine List.pairwise_flatMap.2 ⟨fun r _ => ?_, ?_⟩
  · refine List.pairwise_map.2 (List.pairwise_lt_range.imp fun hlt => ?_)
    exact .inr ⟨rfl, by simpa using hlt⟩
  · refine List.pairwise_lt_range.imp fun hlt q hq q' hq' => ?_
    obtain ⟨c, -, rfl⟩ := List.mem_map.1 hq
    obtain ⟨c', -, rfl⟩ := List.mem_map.1 hq'
    exact .inl (by simpa using hlt)

/-- In a list in row-major order, what stands before an element are the elements before it in that order. -/
theorem mem_before_iff {l before after : List (Int × Int)} {f : Int × Int} (hl : l.Pairwise PairBefore)
    (hsplit : l = before ++ f :: after) (q : Int × Int) : q ∈ before ↔ q ∈ l ∧ PairBefore q f := by
  subst hsplit
  obtain ⟨-, hafter, hbefore⟩ := List.pairwise_append.1 hl
  have hafter := (List.pairwise_cons.1 hafter).1
  constructor
  · exact fun hq => ⟨List.mem_append_left _ hq, hbefore q hq f List.mem_cons_self⟩
  · rintro ⟨hq, hlt⟩
    rcases List.mem_append.1 hq with hq | hq
    · exact hq
    · rcases List.mem_cons.1 hq with rfl | hq
      · exact absurd hlt (by omega)
      · have := hafter q hq
        exact absurd hlt (by omega)

/-- The blit's loops walk over the visible pixels, each with its host address (R160, R161). -/
theorem blitLoop_eq_runEach {x y w h : Int} {k : BlitBox} {s : State} (hk : blitClip s.cfg x y w h = some k)
    (addr stride : Nat) (body : Int → Int → Int → State → Run) :
    blitLoop k addr stride body s =
      runEach (fun q => body q.1 q.2 (blitAddr x y stride addr q.1 q.2)) (boxPixels k) s := by
  unfold blitLoop boxPixels
  simp only [bitmapAddr_eq_blitAddr hk]
  exact forRange_forRange_eq_runEach (body := fun (q : Int × Int) => body q.1 q.2 (blitAddr x y stride addr q.1 q.2)) _ _
    (fun r c => (k.xs + (c : Int), k.ys + (r : Int))) s

/-! ## Blits that fault (R161 to R163, R226) -/

/-- A walk whose body draws at most its own pixel draws those pixels. -/
theorem runEach_draws {l : List (Int × Int)} {body : Int × Int → State → Run} {P : Int → Int → Byte → Prop}
    {s : State} (hs : Drawable s)
    (hb : ∀ q ∈ l, ∀ t, Drawable t → SameBut s t →
      ∃ u, body q t = .ok u ∧ Drawable u ∧ Draws (fun x y v => (x, y) = q ∧ P x y v) t u) :
    ∃ u, runEach body l s = .ok u ∧ Drawable u ∧ Draws (fun x y v => (x, y) ∈ l ∧ P x y v) s u := by
  induction l generalizing s with
  | nil => exact ⟨s, rfl, hs, (Draws.refl s).congr fun x y v _ => by simp⟩
  | cons q l ih =>
    obtain ⟨t, hq, htd, hqd⟩ := hb q List.mem_cons_self s hs (.refl s)
    obtain ⟨u, hl, hud, hld⟩ := ih htd fun q' hq' t' ht' hsame =>
      hb q' (List.mem_cons_of_mem q hq') t' ht' (hqd.sameBut.trans hsame)
    refine ⟨u, by rw [runEach_cons, hq, Run.bind_ok, hl], hud, (hqd.trans hld).congr fun x y v _ => ?_⟩
    rw [List.mem_cons]
    constructor
    · rintro (⟨hmem, hv⟩ | ⟨⟨heq, hv⟩, -⟩)
      · exact ⟨.inr hmem, hv⟩
      · exact ⟨.inl heq, hv⟩
    · rintro ⟨heq | hmem, hv⟩
      · by_cases hmem : (x, y) ∈ l
        · exact .inl ⟨hmem, hv⟩
        · exact .inr ⟨⟨heq, hv⟩, fun _ h => hmem h.1⟩
      · exact .inl ⟨hmem, hv⟩

/-- BLIT's pass draws the byte on the pixel (R161). -/
theorem blitPixel_spec {s : State} {x y a : Int} (hs : Drawable s) (hc : InCanvas s.cfg x y)
    (ha : Accessible s.cfg a) :
    ∃ t, blitPixel x y a s = .ok t ∧ Drawable t ∧
      Draws (fun px py v => (px, py) = (x, y) ∧ v = memByte s a) s t := by
  obtain ⟨t, ht, htd, hd⟩ := setPixel_spec (memByte s a) hs hc
  refine ⟨t, (readByte_ok _ ha).trans ht, htd, hd.congr fun px py v _ => ?_⟩
  rw [Prod.mk.injEq, and_assoc]

/-- BLITK's pass draws the byte on the pixel where it is not the key (R162). -/
theorem blitkPixel_spec {s : State} (key : Byte) {x y a : Int} (hs : Drawable s) (hc : InCanvas s.cfg x y)
    (ha : Accessible s.cfg a) :
    ∃ t, blitkPixel key x y a s = .ok t ∧ Drawable t ∧
      Draws (fun px py v => (px, py) = (x, y) ∧ v = memByte s a ∧ v ≠ key) s t := by
  rw [blitkPixel, readByte_ok _ ha]
  by_cases hkey : memByte s a ≠ key
  · obtain ⟨t, ht, htd, hd⟩ := setPixel_spec (memByte s a) hs hc
    refine ⟨t, (if_pos hkey).trans ht, htd, hd.congr fun px py v _ => ?_⟩
    rw [Prod.mk.injEq, and_assoc]
    exact and_congr_right fun _ => and_congr_right fun _ => ⟨fun hv => ⟨hv, hv ▸ hkey⟩, fun hv => hv.1⟩
  · refine ⟨s, if_neg hkey, hs, (Draws.refl s).congr fun px py v _ => ⟨False.elim, ?_⟩⟩
    rintro ⟨-, hv, hne⟩
    exact hkey (hv ▸ hne)

/-- The pixel where a blit stops splits its walk: before it stand the visible pixels before it, all accessible. -/
theorem BlitStopsAt.split {s : State} {x y w h : Int} {stride addr : Nat} {fx fy : Int}
    (hstop : BlitStopsAt s x y w h stride addr fx fy) :
    ∃ k before after, blitClip s.cfg x y w h = some k ∧ boxPixels k = before ++ (fx, fy) :: after ∧
      before.Pairwise PairBefore ∧
      (∀ px py, (px, py) ∈ before ↔ Visible s.cfg x y w h px py ∧ PixelBefore px py fx fy) ∧
      ∀ px py, (px, py) ∈ before → Accessible s.cfg (blitAddr x y stride addr px py) := by
  obtain ⟨hvis, -, hfirst⟩ := hstop
  obtain ⟨k, hk⟩ := blitClip_of_visible hvis
  obtain ⟨before, after, hsplit⟩ := List.append_of_mem ((mem_boxPixels hk fx fy).2 hvis)
  have hmem : ∀ px py, (px, py) ∈ before ↔ Visible s.cfg x y w h px py ∧ PixelBefore px py fx fy := fun px py => by
    rw [mem_before_iff (boxPixels_pairwise k) hsplit, mem_boxPixels hk]
  refine ⟨k, before, after, hk, hsplit, ?_, hmem, fun px py hq => ?_⟩
  · exact (List.pairwise_append.1 (hsplit ▸ boxPixels_pairwise k)).1
  · obtain ⟨hv, hlt⟩ := (hmem px py).1 hq
    exact hfirst px py hv hlt

/-- A blit whose passes draw, stopped at a pixel by the address it may not access, has drawn the pixels before it. -/
theorem blitLoop_stops {s : State} {x y w h : Int} {stride addr : Nat} {fx fy : Int}
    {body : Int → Int → Int → State → Run} {V : Int → Byte → Prop} (hs : Drawable s)
    (hstop : BlitStopsAt s x y w h stride addr fx fy)
    (hdraw : ∀ px py a t, Drawable t → SameBut s t → InCanvas t.cfg px py → Accessible t.cfg a →
      ∃ u, body px py a t = .ok u ∧ Drawable u ∧ Draws (fun qx qy v => (qx, qy) = (px, py) ∧ V a v) t u)
    (hraise : ∀ px py a t, ¬ Accessible t.cfg a → body px py a t = .raise .hostMemFault a t) :
    ∃ k u, blitClip s.cfg x y w h = some k ∧
      Draws (fun px py v => InRect x y w h px py ∧ PixelBefore px py fx fy ∧ V (blitAddr x y stride addr px py) v)
        s u ∧
      blitLoop k addr stride body s = .raise .hostMemFault (blitAddr x y stride addr fx fy) u := by
  obtain ⟨k, before, after, hk, hsplit, -, hmem, hacc⟩ := hstop.split
  obtain ⟨-, hna, -⟩ := hstop
  obtain ⟨u, hrun, -, hd⟩ := runEach_draws (l := before)
    (body := fun (q : Int × Int) => body q.1 q.2 (blitAddr x y stride addr q.1 q.2))
    (P := fun px py v => V (blitAddr x y stride addr px py) v) hs (by
      rintro ⟨px, py⟩ hq t ht hsame
      obtain ⟨⟨hc, -⟩, -⟩ := (hmem px py).1 hq
      have ha := hacc px py hq
      rw [← hsame.cfg] at hc ha
      obtain ⟨u, hu, hud, hd⟩ := hdraw px py _ t ht hsame hc ha
      refine ⟨u, hu, hud, hd.congr fun qx qy v _ => and_congr_right fun he => ?_⟩
      cases he
      rfl)
  refine ⟨k, u, hk, hd.congr fun px py v hc => ?_, ?_⟩
  · rw [hmem, and_assoc, and_assoc]
    exact and_iff_right hc
  · rw [blitLoop_eq_runEach hk, hsplit]
    rw [← hd.cfg_eq] at hna
    exact runEach_raise hrun (hraise fx fy _ u hna)

/-- BLIT of a visible rectangle is its loop (R161). -/
theorem exec_blit_of_clip {s : State} {x y w h : Int} {k : BlitBox} (hk : blitClip s.cfg x y w h = some k)
    (stride addr : Nat) : exec (.blit x y w h stride addr) s = (blitLoop k addr stride blitPixel s).outcome := by
  have hexec : exec (.blit x y w h stride addr) s = execBlit x y w h stride addr s := rfl
  rw [hexec, execBlit, hk]

/-- BLITK of a visible rectangle is its loop (R162). -/
theorem exec_blitk_of_clip {s : State} {x y w h : Int} {k : BlitBox} (hk : blitClip s.cfg x y w h = some k)
    (stride addr : Nat) (key : Byte) :
    exec (.blitk x y w h stride addr key) s = (blitLoop k addr stride (blitkPixel key) s).outcome := by
  have hexec : exec (.blitk x y w h stride addr key) s = execBlitk x y w h stride addr key s := rfl
  rw [hexec, execBlitk, hk]

/-- GRAB of a visible rectangle is its loop (R163). -/
theorem exec_grab_of_clip {s : State} {x y w h : Int} {k : BlitBox} (hk : blitClip s.cfg x y w h = some k)
    (stride addr : Nat) : exec (.grab x y w h stride addr) s = (blitLoop k addr stride grabPixel s).outcome := by
  have hexec : exec (.grab x y w h stride addr) s = execGrab x y w h stride addr s := rfl
  rw [hexec, execGrab, hk]

theorem memByte_sameBut {s t : State} (h : SameBut s t) (a : Int) : memByte t a = memByte s a := by
  rw [memByte, memByte, h.hmem]

/-- BLIT, stopped at a pixel, has drawn the pixels before it (R161, R226). -/
theorem exec_blit_stops {s : State} {x y w h : Int} {stride addr : Nat} {fx fy : Int} (hs : Drawable s)
    (hstop : BlitStopsAt s x y w h stride addr fx fy) :
    ∃ u, Draws (fun px py v => InRect x y w h px py ∧ PixelBefore px py fx fy ∧
        v = memByte s (blitAddr x y stride addr px py)) s u ∧
      exec (.blit x y w h stride addr) s = .next (faulted .hostMemFault (blitAddr x y stride addr fx fy) u) := by
  obtain ⟨k, u, hk, hd, hloop⟩ := blitLoop_stops (body := blitPixel) (V := fun a v => v = memByte s a) hs hstop
    (fun px py a t ht hsame hc ha => by
      rw [← memByte_sameBut hsame]
      exact blitPixel_spec ht hc ha)
    (fun _ _ _ _ ha => readByte_raise _ ha)
  refine ⟨u, hd, ?_⟩
  rw [exec_blit_of_clip hk, hloop]
  rfl

/-- BLITK, stopped at a pixel, has drawn those pixels before it that are not the key (R162, R226). -/
theorem exec_blitk_stops {s : State} {x y w h : Int} {stride addr : Nat} (key : Byte) {fx fy : Int} (hs : Drawable s)
    (hstop : BlitStopsAt s x y w h stride addr fx fy) :
    ∃ u, Draws (fun px py v => InRect x y w h px py ∧ PixelBefore px py fx fy ∧
        v = memByte s (blitAddr x y stride addr px py) ∧ v ≠ key) s u ∧
      exec (.blitk x y w h stride addr key) s
        = .next (faulted .hostMemFault (blitAddr x y stride addr fx fy) u) := by
  obtain ⟨k, u, hk, hd, hloop⟩ := blitLoop_stops (body := blitkPixel key)
    (V := fun a v => v = memByte s a ∧ v ≠ key) hs hstop
    (fun px py a t ht hsame hc ha => by
      rw [← memByte_sameBut hsame]
      exact blitkPixel_spec key ht hc ha)
    (fun _ _ _ _ ha => readByte_raise _ ha)
  refine ⟨u, hd, ?_⟩
  rw [exec_blitk_of_clip hk, hloop]
  rfl

/-- What GRAB stores for a pixel: its byte, at its host address (R160, R163). -/
def grabCell (s : State) (x y : Int) (stride addr : Nat) (q : Int × Int) : Host.Cell :=
  ((blitAddr x y stride addr q.1 q.2).toNat, (canvasRead q.1 q.2 s).getD 0)

/-- Stores change no pixel (R112). -/
theorem canvasRead_storeAll (l : List Host.Cell) (x y : Int) (s : State) :
    canvasRead x y (storeAll l s) = canvasRead x y s := by
  rw [storeAll_eq]
  rfl

/-- GRAB's pass stores its pixel's cell where it may be accessed (R163). -/
theorem grabPixel_ok {s : State} {x y : Int} {stride addr : Nat} {q : Int × Int} (m : List Host.Cell)
    (hc : InCanvas s.cfg q.1 q.2) (ha : Accessible s.cfg (blitAddr x y stride addr q.1 q.2)) :
    grabPixel q.1 q.2 (blitAddr x y stride addr q.1 q.2) (storeAll m s) =
      .ok (storeAll (m ++ [grabCell s x y stride addr q]) s) := by
  obtain ⟨v, hv⟩ := canvasRead_isSome hc
  rw [← storeAll_cfg m s] at ha
  simp only [grabPixel, canvasRead_storeAll, hv]
  rw [writeByte_ok v ha, storeAll_append, grabCell, hv]
  rfl

/-- GRAB's pass raises where its pixel's byte may not be accessed (R163). -/
theorem grabPixel_raise {s : State} {x y a : Int} (hc : InCanvas s.cfg x y) (ha : ¬ Accessible s.cfg a) :
    grabPixel x y a s = .raise .hostMemFault a s := by
  obtain ⟨v, hv⟩ := canvasRead_isSome hc
  simp only [grabPixel, hv]
  exact writeByte_raise v ha

/-- GRAB's passes over pixels of the canvas whose bytes may be accessed store their cells in order (R163). -/
theorem runEach_grabPixel {s : State} {x y : Int} {stride addr : Nat} {l : List (Int × Int)}
    (hc : ∀ q ∈ l, InCanvas s.cfg q.1 q.2)
    (ha : ∀ q ∈ l, Accessible s.cfg (blitAddr x y stride addr q.1 q.2)) (m : List Host.Cell) :
    runEach (fun q => grabPixel q.1 q.2 (blitAddr x y stride addr q.1 q.2)) l (storeAll m s) =
      .ok (storeAll (m ++ l.map (grabCell s x y stride addr)) s) := by
  induction l generalizing m with
  | nil => rw [List.map_nil, List.append_nil, runEach_nil]
  | cons q l ih =>
    rw [runEach_cons, grabPixel_ok m (hc q List.mem_cons_self) (ha q List.mem_cons_self), Run.bind_ok,
      ih (fun q' hq' => hc q' (List.mem_cons_of_mem q hq')) (fun q' hq' => ha q' (List.mem_cons_of_mem q hq')),
      List.append_assoc]
    rfl

section
variable {s : State} {x y : Int} {stride addr : Nat} {l : List (Int × Int)}

/-- Accessible addresses are the same where they are the same as offsets into host memory. -/
theorem toNat_eq_iff_of_accessible {p : Config} {a b : Int} (ha : Accessible p a) (hb : Accessible p b) :
    a.toNat = b.toNat ↔ a = b := by
  obtain ⟨ha, -⟩ := (accessible_iff p a).1 ha
  obtain ⟨hb, -⟩ := (accessible_iff p b).1 hb
  omega

/-- After GRAB's stores the byte of a pixel is the pixel's, unless a later pixel went to the same address (R163). -/
theorem memByte_storeAll_grabCell (hmem : Memory.wf s.hmem = true) (hl : l.Pairwise PairBefore)
    (hc : ∀ q ∈ l, InCanvas s.cfg q.1 q.2)
    (ha : ∀ q ∈ l, Accessible s.cfg (blitAddr x y stride addr q.1 q.2)) {q : Int × Int} (hq : q ∈ l)
    (hlast : ∀ q' ∈ l, PairBefore q q' →
      blitAddr x y stride addr q'.1 q'.2 ≠ blitAddr x y stride addr q.1 q.2) :
    canvasRead q.1 q.2 s =
      some (memByte (storeAll (l.map (grabCell s x y stride addr)) s) (blitAddr x y stride addr q.1 q.2)) := by
  obtain ⟨v, hv⟩ := canvasRead_isSome (hc q hq)
  obtain ⟨before, after, rfl⟩ := List.append_of_mem hq
  have hcell : grabCell s x y stride addr q = ((blitAddr x y stride addr q.1 q.2).toNat, v) := by
    rw [grabCell, hv, Option.getD_some]
  have hafter : ∀ q' ∈ after, PairBefore q q' :=
    (List.pairwise_cons.1 (List.pairwise_append.1 hl).2.1).1
  have hread := read_foldl_write_last (before.map (grabCell s x y stride addr))
    (after.map (grabCell s x y stride addr)) (grabCell s x y stride addr q) s.hmem hmem (by
      intro d hd
      obtain ⟨q', hq', rfl⟩ := List.mem_map.1 hd
      have := (accessible_iff _ _).1 (ha q' (List.mem_append_left _ hq'))
      simp only [grabCell]
      omega) (by
      intro d hd
      obtain ⟨q', hq', rfl⟩ := List.mem_map.1 hd
      have hmem' : q' ∈ before ++ q :: after := List.mem_append_right _ (List.mem_cons_of_mem q hq')
      exact fun heq => hlast q' hmem' (hafter q' hq')
        ((toNat_eq_iff_of_accessible (ha q' hmem') (ha q hq)).1 heq))
  rw [hcell] at hread
  rw [hv, storeAll_eq, List.map_append, List.map_cons, hcell]
  exact congrArg some hread.symm

/-- GRAB's stores leave every byte alone that is no pixel's (R163). -/
theorem read_storeAll_grabCell_other (ha : ∀ q ∈ l, Accessible s.cfg (blitAddr x y stride addr q.1 q.2)) (a : Nat)
    (hne : ∀ q ∈ l, blitAddr x y stride addr q.1 q.2 ≠ a) :
    Memory.read (storeAll (l.map (grabCell s x y stride addr)) s).hmem a = Memory.read s.hmem a := by
  rw [storeAll_eq]
  refine read_foldl_write_other _ _ _ fun d hd heq => ?_
  obtain ⟨q, hq, rfl⟩ := List.mem_map.1 hd
  have := (accessible_iff _ _).1 (ha q hq)
  refine hne q hq ?_
  simp only [grabCell] at heq
  omega

end

/-- GRAB, stopped at a pixel, has stored the pixels before it, in order (R163, R226). -/
theorem exec_grab_stops {s : State} {x y w h : Int} {stride addr : Nat} {fx fy : Int} {k : BlitBox}
    {before after : List (Int × Int)} (hk : blitClip s.cfg x y w h = some k)
    (hsplit : boxPixels k = before ++ (fx, fy) :: after) (hf : InCanvas s.cfg fx fy)
    (hna : ¬ Accessible s.cfg (blitAddr x y stride addr fx fy)) (hc : ∀ q ∈ before, InCanvas s.cfg q.1 q.2)
    (ha : ∀ q ∈ before, Accessible s.cfg (blitAddr x y stride addr q.1 q.2)) :
    exec (.grab x y w h stride addr) s = .next (faulted .hostMemFault (blitAddr x y stride addr fx fy)
      (storeAll (before.map (grabCell s x y stride addr)) s)) := by
  have hrun := runEach_grabPixel hc ha []
  rw [List.nil_append, storeAll_nil] at hrun
  rw [← storeAll_cfg (before.map (grabCell s x y stride addr)) s] at hf hna
  rw [exec_grab_of_clip hk, blitLoop_eq_runEach hk, hsplit,
    runEach_raise (q := (fx, fy)) hrun (grabPixel_raise hf hna), Run.outcome_raise, raiseFault_eq_faulted]

/-- Settles O39: each blit walks over the visible pixels in order, and stops at the first it may not access. -/
theorem blitsFaultKeepsPixelsBefore : Obligations.BlitsFaultKeepsPixelsBefore := by
  intro s x y w h stride addr key fx fy hs hstop
  refine ⟨exec_blit_stops hs.drawable hstop, exec_blitk_stops key hs.drawable hstop, ?_⟩
  obtain ⟨k, before, after, hk, hsplit, hpair, hmem, hacc⟩ := hstop.split
  obtain ⟨⟨hf, -⟩, hna, -⟩ := hstop
  obtain ⟨-, -, -, -, -, hwf, -⟩ := hs
  have hc : ∀ q ∈ before, InCanvas s.cfg q.1 q.2 := fun q hq => ((hmem q.1 q.2).1 hq).1.1
  have ha : ∀ q ∈ before, Accessible s.cfg (blitAddr x y stride addr q.1 q.2) := fun q hq => hacc q.1 q.2 hq
  refine ⟨storeAll (before.map (grabCell s x y stride addr)) s, by rw [storeAll_eq],
    exec_grab_stops hk hsplit hf hna hc ha, fun px py hv hlt hlast => ?_, fun a hne => ?_⟩
  · refine memByte_storeAll_grabCell hwf hpair hc ha ((hmem px py).2 ⟨hv, hlt⟩) fun q' hq' => ?_
    obtain ⟨hv', hlt'⟩ := (hmem q'.1 q'.2).1 hq'
    exact hlast q'.1 q'.2 hv' hlt'
  · refine read_storeAll_grabCell_other ha a fun q hq => ?_
    obtain ⟨hv, hlt⟩ := (hmem q.1 q.2).1 hq
    exact hne q.1 q.2 hv hlt

end Sys2Proof.Machine

namespace Sys2Proof.Machine

/-! ## Regions of host memory (R261) -/

theorem inRegion_iff (a : Nat) (g : Region) :
    inRegion a g = true ↔ ∃ r < g.rows, g.base + r * g.stride ≤ a ∧ a < g.base + r * g.stride + g.len := by
  simp only [inRegion, List.any_eq_true, List.mem_range, Bool.and_eq_true, decide_eq_true_eq]

/-- A region of one row is a range of addresses. -/
theorem inRegion_row (a base len : Nat) : inRegion a ⟨base, 1, len, 0⟩ = true ↔ base ≤ a ∧ a < base + len := by
  rw [inRegion_iff]
  constructor
  · rintro ⟨r, -, hlo, hhi⟩
    exact ⟨hlo, hhi⟩
  · exact fun h => ⟨0, Nat.one_pos, h⟩

/-- The address lies in one of the regions. -/
abbrev InRegions (a : Nat) (l : List Region) : Prop :=
  l.any (inRegion a) = true

theorem not_inRegions_nil (a : Nat) : ¬ InRegions a [] :=
  Bool.false_ne_true

theorem inRegions_cons (a : Nat) (g : Region) (l : List Region) :
    InRegions a (g :: l) ↔ inRegion a g = true ∨ InRegions a l := by
  rw [InRegions, List.any_cons, Bool.or_eq_true]

theorem inRegions_append (a : Nat) (l m : List Region) : InRegions a (l ++ m) ↔ InRegions a l ∨ InRegions a m := by
  rw [InRegions, List.any_append, Bool.or_eq_true]

theorem inRegions_singleton (a : Nat) (g : Region) : InRegions a [g] ↔ inRegion a g = true := by
  rw [inRegions_cons, or_iff_left (not_inRegions_nil a)]

/-- The address of a visible pixel, from that of the first one (R164). -/
theorem blitAddr_box {p : Config} {x y w h : Int} {k : BlitBox} (hk : blitClip p x y w h = some k)
    (stride addr : Nat) {r c : Nat} (hr : r < k.hn) (hc : c < k.wn) :
    blitAddr x y stride addr (k.xs + c) (k.ys + r) =
      ((bitmapAddr addr stride k.ox k.oy 0 0).toNat + r * stride + c : Nat) := by
  have hfirst := bitmapAddr_eq_blitAddr hk stride addr 0 0
  obtain ⟨-, hx, -, hy, -⟩ := blitClip_visible hk 0 0 (by omega) (by omega)
  have hrow : 0 ≤ (k.ys + ((0 : Nat) : Int) - y) * stride := mul_nonneg (by omega) (Int.natCast_nonneg stride)
  have hnonneg : 0 ≤ bitmapAddr addr stride k.ox k.oy 0 0 := by
    rw [hfirst, blitAddr]
    omega
  push_cast
  rw [Int.toNat_of_nonneg hnonneg, hfirst, blitAddr, blitAddr]
  push_cast
  ring

/-- The regions of a blit are the addresses of its visible pixels (R164, R261). -/
theorem inRegions_blit (x y w h : Int) (stride addr : Nat) (s : State) (a : Nat) :
    InRegions a (blitRegions x y w h stride addr s) ↔
      ∃ px py, Visible s.cfg x y w h px py ∧ (a : Int) = blitAddr x y stride addr px py := by
  unfold blitRegions
  cases hk : blitClip s.cfg x y w h with
  | none =>
    exact iff_of_false (not_inRegions_nil a) fun ⟨px, py, hv, _⟩ => not_visible_of_blitClip_none hk px py hv
  | some k =>
    rw [inRegions_singleton, inRegion_iff]
    constructor
    · rintro ⟨r, hr, hlo, hhi⟩
      dsimp only at hr hlo hhi
      obtain ⟨c, rfl⟩ := Nat.exists_eq_add_of_le hlo
      have hc : c < k.wn := by omega
      exact ⟨_, _, blitClip_visible hk r c hr hc, (blitAddr_box hk stride addr hr hc).symm⟩
    · rintro ⟨px, py, hv, ha⟩
      obtain ⟨r, c, hr, hc, rfl, rfl⟩ := (visible_iff_of_blitClip hk px py).1 hv
      rw [blitAddr_box hk stride addr hr hc] at ha
      refine ⟨r, hr, ?_⟩
      dsimp only
      omega

/-- The region of a monochrome bitmap (R185). -/
theorem inRegions_mono (w h : Int) (addr a : Nat) :
    InRegions a (monoRegions w h addr) ↔ 1 ≤ w ∧ 1 ≤ h ∧ addr ≤ a ∧ (a : Int) < addr + rowBytes w * h := by
  unfold monoRegions
  split
  · exact iff_of_false (not_inRegions_nil a) (by omega)
  · rw [inRegions_singleton, inRegion_row]
    omega

/-- The region of the font table (R196, R261). -/
theorem inRegions_font (s : State) (a : Nat) : InRegions a (fontRegions s) ↔ fontByte s a := by
  unfold fontRegions fontByte
  split
  · next hv =>
    rw [inRegions_singleton, inRegion_row, and_iff_right hv]
    omega
  · next hv => exact iff_of_false (not_inRegions_nil a) fun h => hv h.1

/-- The region of XFORM's source bitmap is the addresses of its pixels (R175). -/
theorem inRegion_bitmap (src : Nat) (sw sh : Int) (ss a : Nat) :
    inRegion a ⟨src, sh.toNat, sw.toNat, ss⟩ = true ↔
      ∃ u v : Int, InSource sw sh (u, v) ∧ (a : Int) = xformSrcAddr src ss u v := by
  rw [inRegion_iff]
  constructor
  · rintro ⟨r, hr, hlo, hhi⟩
    dsimp only at hr hlo hhi
    obtain ⟨c, rfl⟩ := Nat.exists_eq_add_of_le hlo
    refine ⟨c, r, ⟨by omega, by omega, by omega, by omega⟩, ?_⟩
    rw [xformSrcAddr]
    push_cast
    ring
  · rintro ⟨u, v, ⟨hu, huw, hv, hvh⟩, ha⟩
    lift u to Nat using hu
    lift v to Nat using hv
    rw [xformSrcAddr] at ha
    have ha : a = src + v * ss + u := by exact_mod_cast ha
    dsimp only at huw hvh ⊢
    exact ⟨v, by omega, by omega⟩

/-- The regions of a transform: its source bitmap and its destination (R175, R261). -/
theorem inRegions_xform (src : Nat) (sw sh : Int) (ss sx sy : Nat) (ang : Int) (dst a : Nat) :
    InRegions a (xformRegions src sw sh ss sx sy ang dst) ↔
      ¬ XformEmpty sw sh sx sy ∧ xformWidth sw sh sx sy ang ≤ 32767 ∧ xformHeight sw sh sx sy ang ≤ 32767 ∧
        ((∃ u v : Int, InSource sw sh (u, v) ∧ (a : Int) = xformSrcAddr src ss u v) ∨
          dst ≤ a ∧ (a : Int) < dst + xformWidth sw sh sx sy ang * xformHeight sw sh sx sy ang) := by
  unfold xformRegions
  split
  · next hempty => exact iff_of_false (not_inRegions_nil a) fun h => h.1 hempty
  · next hempty =>
    dsimp only
    split
    · next hbig =>
      refine iff_of_false (not_inRegions_nil a) ?_
      rintro ⟨-, hw, hh, -⟩
      omega
    · next hbig =>
      obtain ⟨hw, hh⟩ := not_or.1 hbig
      rw [inRegions_cons, inRegions_singleton, inRegion_row, and_iff_right hempty, and_iff_right (not_lt.1 hw),
        and_iff_right (not_lt.1 hh)]
      exact or_congr (inRegion_bitmap src sw sh ss a) (by omega)

/-- The regions of a command are the bytes it uses (R261). -/
theorem inRegions_command (i : Instr) (s : State) (a : Nat) : InRegions a (commandRegions i s) ↔ usesByte i s a := by
  cases i with
  | palLoad addr count =>
    unfold commandRegions usesByte
    dsimp only
    split
    · exact iff_of_false (not_inRegions_nil a) (by omega)
    · rw [inRegions_singleton, inRegion_row]
      omega
  | blit x y w h stride addr => exact inRegions_blit x y w h stride addr s a
  | blitk x y w h stride addr key => exact inRegions_blit x y w h stride addr s a
  | grab x y w h stride addr => exact inRegions_blit x y w h stride addr s a
  | xform src sw sh ss sx sy ang dst bg => exact inRegions_xform src sw sh ss sx sy ang dst a
  | mono x y w h addr c => exact inRegions_mono w h addr a
  | mono2x x y w h addr c => exact inRegions_mono w h addr a
  | char x y code c => exact inRegions_font s a
  | char2x x y code c => exact inRegions_font s a
  | str x y addr len c =>
    exact (inRegions_cons ..).trans (or_congr (inRegion_row ..) (inRegions_font s a))
  | str2x x y addr len c =>
    exact (inRegions_cons ..).trans (or_congr (inRegion_row ..) (inRegions_font s a))
  | _ => exact iff_of_false (not_inRegions_nil a) id

/-! ## Queued commands (R65, R86) -/

theorem decode_rest_length_lt {ws rest : List Word} {i : Instr} (h : decode ws = .command i rest) :
    rest.length < ws.length := by
  obtain ⟨hd, tl, o, rfl, -, rfl⟩ := decode_command h
  rw [List.length_drop, List.length_cons]
  omega

theorem withFontOf_cons (i : Instr) (l : List Instr) (s : State) :
    withFontOf (i :: l) s = withFontOf l (fontAfter i s) := by
  cases i with
  | font addr width height =>
    rw [withFontOf, List.foldl_cons, withFontOf, fontAfter]
    dsimp only
    by_cases hlegal : width < 1 ∨ height < 1
    · rw [if_pos hlegal, if_neg (by omega)]
    · rw [if_neg hlegal, if_pos (by omega)]
  | _ => rfl

/-- Where a list stands split at an element: at its head, or in its tail. -/
theorem exists_split_cons {α : Type} (b : α) (l : List α) (P : List α → α → Prop) :
    (∃ before i after, b :: l = before ++ i :: after ∧ P before i) ↔
      P [] b ∨ ∃ before i after, l = before ++ i :: after ∧ P (b :: before) i := by
  constructor
  · rintro ⟨before, i, after, hsplit, hp⟩
    cases before with
    | nil =>
      cases hsplit
      exact .inl hp
    | cons c before =>
      cases hsplit
      exact .inr ⟨before, i, after, rfl, hp⟩
  · rintro (hp | ⟨before, i, after, rfl, hp⟩)
    · exact ⟨[], b, l, rfl, hp⟩
    · exact ⟨b :: before, i, after, rfl, hp⟩

/-- Commands that run one after another use a byte where one of them does, with the font the ones before it leave
(R261). -/
theorem inRegions_regionsOf (l : List Instr) (s : State) (a : Nat) :
    InRegions a (regionsOf l s) ↔
      ∃ before i after, l = before ++ i :: after ∧ usesByte i (withFontOf before s) a := by
  induction l generalizing s with
  | nil =>
    refine iff_of_false (not_inRegions_nil a) ?_
    rintro ⟨before, i, after, hnil, -⟩
    cases before <;> cases hnil
  | cons j l ih =>
    rw [exists_split_cons j l fun before i => usesByte i (withFontOf before s) a, regionsOf, inRegions_append,
      inRegions_command, ih]
    simp only [withFontOf_cons]
    rfl

/-- The commands queued in a FIFO of words are read off its front. -/
theorem decodesTo_queuedCommands (n : Nat) (ws : List Word) : ∃ rest, decodesTo (queuedCommands n ws) ws rest := by
  induction n generalizing ws with
  | zero => exact ⟨ws, rfl⟩
  | succ n ih =>
    rw [queuedCommands]
    cases hd : decode ws with
    | command i ws' =>
      obtain ⟨rest, hrest⟩ := ih ws'
      exact ⟨rest, ws', hd, hrest⟩
    | illegal h => exact ⟨ws, rfl⟩
    | incomplete m => exact ⟨ws, rfl⟩

/-- With fuel for every word, commands read off the front of a FIFO are the first of those queued in it. -/
theorem queuedCommands_of_decodesTo {n : Nat} {l : List Instr} {ws rest : List Word} (hn : ws.length ≤ n)
    (h : decodesTo l ws rest) : ∃ m, queuedCommands n ws = l ++ m := by
  induction l generalizing n ws with
  | nil => exact ⟨_, rfl⟩
  | cons i l ih =>
    obtain ⟨ws', hd, hl⟩ := h
    have hlt := decode_rest_length_lt hd
    obtain ⟨n, rfl⟩ : ∃ k, n = k + 1 := ⟨n - 1, by omega⟩
    obtain ⟨m, hm⟩ := ih (n := n) (by omega) hl
    refine ⟨m, ?_⟩
    rw [queuedCommands, hd]
    exact congrArg (i :: ·) hm

/-- The machine's check is the statement's: some queued or executing command uses the byte (R65, R261). -/
theorem bufferInUse_iff (a : Nat) (s : State) : bufferInUse a s = true ↔ ByteInUse s a := by
  refine (inRegions_regionsOf (s.cur.toList ++ queuedCommands s.fifo.length s.fifo) s a).trans ⟨?_, ?_⟩
  · rintro ⟨before, i, after, hsplit, huse⟩
    obtain ⟨rest, hrest⟩ := decodesTo_queuedCommands s.fifo.length s.fifo
    exact ⟨_, before, after, i, rest, hrest, hsplit, huse⟩
  · rintro ⟨l, before, after, i, rest, hl, hsplit, huse⟩
    obtain ⟨m, hm⟩ := queuedCommands_of_decodesTo le_rfl hl
    refine ⟨before, i, after ++ m, ?_, huse⟩
    rw [hm, ← List.append_assoc, hsplit, List.append_assoc, List.cons_append]

/-! ## Host writes of memory (R52, R65) -/

theorem hostStep_memWrite_refused {a : BitVec 32} (v : Byte) {s : State} (h : bufferInUse a.toNat s = true) :
    hostStep (.memWrite a v) s = .refused .bufferRace :=
  if_pos h

theorem hostStep_memWrite_next {a : BitVec 32} (v : Byte) {s : State} (h : ¬ bufferInUse a.toNat s = true) :
    hostStep (.memWrite a v) s = .next { s with hmem := Memory.write s.hmem a.toNat v } :=
  if_neg h

theorem Memory.read_write (m : Memory) (a b : Nat) (v : Byte) (h : Memory.wf m = true) :
    Memory.read (Memory.write m a v) b = if b = a then v else Memory.read m b := by
  split
  · next heq => rw [heq, Memory.read_write_same m a v h]
  · next hne => exact Memory.read_write_other m a b v hne

/-- Which bytes a command uses does not depend on what the outside world does next. -/
theorem usesByte_withInputs (i : Instr) (s : State) (l : List HostEvent) (a : Nat) :
    usesByte i { s with inputs := l } a ↔ usesByte i s a := by
  cases i <;> exact Iff.rfl

theorem fontAfter_withInputs (i : Instr) (s : State) (l : List HostEvent) :
    fontAfter i { s with inputs := l } = { fontAfter i s with inputs := l } := by
  cases i with
  | font addr width height =>
    unfold fontAfter
    dsimp only
    split <;> rfl
  | _ => rfl

theorem withFontOf_withInputs (is : List Instr) (s : State) (l : List HostEvent) :
    withFontOf is { s with inputs := l } = { withFontOf is s with inputs := l } := by
  induction is generalizing s with
  | nil => rfl
  | cons i is ih => rw [withFontOf_cons, withFontOf_cons, fontAfter_withInputs, ih]

theorem byteInUse_withInputs (s : State) (l : List HostEvent) (a : Nat) :
    ByteInUse { s with inputs := l } a ↔ ByteInUse s a := by
  simp only [ByteInUse, withFontOf_withInputs, usesByte_withInputs]

/-- An idle engine uses no buffer. -/
theorem not_byteInUse_of_idle {s : State} (hcur : s.cur = none) (hfifo : s.fifo = []) (a : Nat) :
    ¬ ByteInUse s a := by
  rw [← bufferInUse_iff, bufferInUse, hcur, hfifo]
  exact not_inRegions_nil a

/-- Settles O18: the machine refuses exactly the bytes in use, and stores any other. -/
theorem hostMemoryWrite : Obligations.HostMemoryWrite := by
  intro s rest a v hs hin
  have hstep := step_of_input hin
  have huse : bufferInUse a.toNat { s with inputs := rest } = true ↔ ByteInUse s a.toNat :=
    (bufferInUse_iff ..).trans (byteInUse_withInputs s rest a.toNat)
  obtain ⟨-, -, -, -, -, hmem, -⟩ := hs
  refine ⟨fun hb => ?_, fun hb => ?_, fun hcur hfifo => not_byteInUse_of_idle hcur hfifo a.toNat⟩
  · rw [hstep, hostStep_memWrite_refused v (huse.2 hb)]
  · rw [hstep, hostStep_memWrite_next v (mt huse.1 hb)]
    exact ⟨_, rfl, rfl, fun b => Memory.read_write s.hmem a.toNat b v hmem⟩

end Sys2Proof.Machine

namespace Sys2Proof

/-! ## Fields of words (R81, R83, R84, R90) -/

theorem sext16_s16Word {v : Int} (h : isS16 v = true) : sext16 (s16Word v) = v := by
  obtain ⟨hlo, hhi⟩ := (isS16_iff v).1 h
  have hmod : ((s16Word v).toNat : Int) = v % 65536 := Machine.toNat_ofInt_word v
  unfold sext16
  split <;> omega

theorem s16Word_sext16 (w : Word) : s16Word (sext16 w) = w := by
  refine BitVec.eq_of_toNat_eq ?_
  have hmod : ((s16Word (sext16 w)).toNat : Int) = sext16 w % 65536 := Machine.toNat_ofInt_word _
  have hlt := w.isLt
  unfold sext16 at *
  split at hmod <;> split <;> omega

theorem zext16_u16Word {n : Nat} (h : isU16 n = true) : zext16 (u16Word n) = n :=
  Nat.mod_eq_of_lt (of_decide_eq_true h)

theorem u16Word_zext16 (w : Word) : u16Word (zext16 w) = w :=
  (BitVec.ofNat_toNat 16 w).trans (BitVec.setWidth_eq w)

theorem addr32_halves {a : Nat} (h : isAddr32 a = true) :
    addr32 (BitVec.ofNat 16 a) (BitVec.ofNat 16 (a / 65536)) = a := by
  have hlt : a < 4294967296 := of_decide_eq_true h
  simp only [addr32, zext16, BitVec.toNat_ofNat]
  omega

theorem addrWords_addr32 (lo hi : Word) : addrWords (addr32 lo hi) = [lo, hi] := by
  have hlo := lo.isLt
  have hhi := hi.isLt
  have hl : BitVec.ofNat 16 (addr32 lo hi) = lo := BitVec.eq_of_toNat_eq (by
    simp only [addr32, zext16, BitVec.toNat_ofNat]
    omega)
  have hh : BitVec.ofNat 16 (addr32 lo hi / 65536) = hi := BitVec.eq_of_toNat_eq (by
    simp only [addr32, zext16, BitVec.toNat_ofNat]
    omega)
  rw [addrWords, hl, hh]

/-! ## Header words (R81, R88) -/

@[simp] theorem opcodeOf_header (o : Op) (imm8 : Byte) : opcodeOf (header o imm8) = o.code :=
  BitVec.extractLsb'_append_eq_left

@[simp] theorem lowByte_header (o : Op) (imm8 : Byte) : lowByte (header o imm8) = imm8 :=
  BitVec.extractLsb'_append_eq_right

@[simp] theorem lowByte_u8Word (b : Byte) : lowByte (u8Word b) = b :=
  (BitVec.extractLsb'_setWidth_of_le (by decide)).trans BitVec.extractLsb'_eq_self

/-- A word is its two bytes (R81). -/
theorem opcodeOf_append_lowByte (w : Word) : opcodeOf w ++ lowByte w = w :=
  (BitVec.extractLsb'_append_extractLsb'_eq_extractLsb' rfl).trans BitVec.extractLsb'_eq_self

theorem opcodeOf_and (v w : Word) : opcodeOf (v &&& w) = opcodeOf v &&& opcodeOf w :=
  BitVec.extractLsb'_and

/-- A word cut down to some of its bits, byte by byte. -/
theorem word_and_append (w : Word) (hi lo : Byte) :
    w &&& (hi ++ lo : BitVec (8 + 8)) = (opcodeOf w &&& hi) ++ (lowByte w &&& lo) :=
  calc w &&& (hi ++ lo : BitVec (8 + 8))
    _ = (opcodeOf w ++ lowByte w) &&& (hi ++ lo) := by rw [opcodeOf_append_lowByte]
    _ = _ := BitVec.and_append

theorem header_lowByte {o : Op} {w : Word} (h : opcodeOf w = o.code) : header o (lowByte w) = w := by
  rw [header, ← h, opcodeOf_append_lowByte]

theorem and_allOnes_word (w : Word) : w &&& 0xFFFF#16 = w :=
  BitVec.and_allOnes

theorem and_allOnes_byte (b : Byte) : b &&& 0xFF#8 = b :=
  BitVec.and_allOnes

/-- Where `imm8` is ignored, the header written has it 0 (R88, R90). -/
theorem header_zero {o : Op} {w : Word} (h : opcodeOf w = o.code) : header o 0#8 = w &&& 0xFF00#16 :=
  calc header o 0#8
    _ = opcodeOf w ++ 0#8 := by rw [header, h]
    _ = (opcodeOf w &&& 0xFF#8) ++ (lowByte w &&& 0#8) := by rw [and_allOnes_byte, BitVec.and_zero]
    _ = w &&& 0xFF00#16 := (word_and_append w 0xFF#8 0#8).symm

/-- Of a `u8` operand's word only the low byte counts (R83, R88). -/
theorem u8Word_lowByte (w : Word) : u8Word (lowByte w) = w &&& 0x00FF#16 :=
  calc u8Word (lowByte w)
    _ = 0#8 ++ lowByte w := BitVec.setWidth_eq_append (by decide)
    _ = (opcodeOf w &&& 0#8) ++ (lowByte w &&& 0xFF#8) := by rw [and_allOnes_byte, BitVec.and_zero]
    _ = w &&& 0x00FF#16 := (word_and_append w 0#8 0xFF#8).symm

/-! ## Operations and opcodes (R85) -/

theorem opOf_code (o : Op) : opOf o.code = some o := by
  cases o <;> rfl

theorem opOf_eq_some_iff (b : Byte) (o : Op) : opOf b = some o ↔ b = o.code := by
  constructor
  · intro h
    have hbeq : (o.code == b) = true := List.find?_some (p := fun o => Op.code o == b) h
    exact (eq_of_beq hbeq).symm
  · rintro rfl
    exact opOf_code o

/-- The operation of a command. -/
def Instr.op : Instr → Op
  | .nop => .nop
  | .palDefault => .palDefault
  | .palLoad .. => .palLoad
  | .palRead .. => .palRead
  | .getPixel .. => .getPixel
  | .point .. => .point
  | .fillScreen .. => .fillScreen
  | .crop .. => .crop
  | .hline .. => .hline
  | .vline .. => .vline
  | .line .. => .line
  | .rect .. => .rect
  | .frect .. => .frect
  | .tri .. => .tri
  | .ftri .. => .ftri
  | .circ .. => .circ
  | .fcirc .. => .fcirc
  | .blit .. => .blit
  | .blitk .. => .blitk
  | .grab .. => .grab
  | .xform .. => .xform
  | .mono .. => .mono
  | .mono2x .. => .mono2x
  | .font .. => .font
  | .char .. => .char
  | .char2x .. => .char2x
  | .str .. => .str
  | .str2x .. => .str2x
  | .flush => .flush

@[simp] theorem assemble_op (o : Op) (x : List Word) : (assemble o x).op = o := by
  cases o <;> rfl

/-- Which bits are ignored is a matter of the operation alone (R88). -/
theorem ignoredBits_assemble_op (i : Instr) (x : List Word) : ignoredBits (assemble i.op x) = ignoredBits i := by
  cases i <;> rfl

/-- No bit of a header's opcode is ignored (R88). -/
theorem opcodeOf_and_not_ignoredBits (i : Instr) (w : Word) : opcodeOf (w &&& ~~~ignoredBits i 0) = opcodeOf w := by
  have hmask : opcodeOf (~~~ignoredBits i 0) = 0xFF#8 := by
    cases i <;> simp only [ignoredBits] <;> rfl
  rw [opcodeOf_and, hmask, and_allOnes_byte]

/-! ## Decoding an encoding (R80, R90) -/

theorem encode_length (i : Instr) : (encode i).length = i.op.operandWords + 1 := by
  cases i <;> rfl

theorem opcodeOf_encode (i : Instr) : opcodeOf (wordAt (encode i) 0) = i.op.code := by
  cases i <;> exact opcodeOf_header _ _

@[simp] theorem wordAt_cons_zero (w : Word) (x : List Word) : wordAt (w :: x) 0 = w := rfl

@[simp] theorem wordAt_cons_succ (w : Word) (x : List Word) (k : Nat) : wordAt (w :: x) (k + 1) = wordAt x k := rfl

/-- Every operand is read back from the words it was written to (R82 to R84, R90). -/
theorem assemble_encode {i : Instr} (h : i.wellFormed = true) : assemble i.op (encode i) = i := by
  cases i <;> simp only [Instr.wellFormed, Bool.and_eq_true] at h <;>
    simp [encode, Instr.op, assemble, s16At, u16At, addrAt, addrWords, sext16_s16Word, zext16_u16Word, addr32_halves, h]

/-- Written again, a command read from words is those words without their ignored bits (R88). -/
theorem encode_assemble {o : Op} {x : List Word} (h : opcodeOf (wordAt x 0) = o.code) :
    encode (assemble o x)
      = (List.range (o.operandWords + 1)).map (fun k => wordAt x k &&& ~~~ignoredBits (assemble o x) k) := by
  have hused := header_lowByte h
  have hunused := header_zero h
  cases o <;> simp [encode, assemble, ignoredBits, Op.operandWords, List.range_succ, s16At, u16At, addrAt,
    s16Word_sext16, u16Word_zext16, addrWords_addr32, u8Word_lowByte, and_allOnes_word, hused, hunused]

/-- What the decoder finds where it answers a command: the words of an operation, and the words behind them (R86). -/
theorem decode_eq_command_iff (ws rest : List Word) (i : Instr) :
    decode ws = .command i rest ↔
      ∃ x o, ws = x ++ rest ∧ x.length = o.operandWords + 1 ∧ opcodeOf (wordAt x 0) = o.code ∧ assemble o x = i := by
  constructor
  · intro h
    cases ws with
    | nil => cases h
    | cons hd tl =>
      rw [decode] at h
      split at h
      · cases h
      · next o ho =>
        split at h
        · cases h
        · next hlen =>
          cases h
          refine ⟨hd :: tl.take o.operandWords, o, ?_, ?_, (opOf_eq_some_iff _ o).1 ho, rfl⟩
          · rw [List.cons_append, List.take_append_drop]
          · rw [List.length_cons, List.length_take, Nat.min_eq_left (Nat.le_of_not_lt hlen)]
  · rintro ⟨x, o, rfl, hlen, hop, rfl⟩
    cases x with
    | nil => cases hlen
    | cons hd tl =>
      have hlen : tl.length = o.operandWords := Nat.succ.inj hlen
      have ho : opOf (opcodeOf hd) = some o := (opOf_eq_some_iff _ o).2 hop
      rw [List.cons_append, decode, ho]
      dsimp only
      rw [if_neg (by rw [List.length_append]; omega), List.take_left' hlen, List.drop_left' hlen]

/-- Settles O1: the encoding is the words of the command's operation, and assembling them gives the command back. -/
theorem decodeOfEncode : Obligations.DecodeOfEncode := by
  intro i rest hwf
  exact (decode_eq_command_iff _ _ _).2
    ⟨encode i, i.op, rfl, encode_length i, opcodeOf_encode i, assemble_encode hwf⟩

/-! ## Words that decode alike (R88) -/

/-- Words that agree with a command's encoding in all but its ignored bits. -/
def AgreesWith (x : List Word) (i : Instr) : Prop :=
  x.length = (encode i).length ∧ ∀ k, k < x.length → wordAt x k &&& ~~~ignoredBits i k = wordAt (encode i) k

theorem wordAt_map_range (f : Nat → Word) {n k : Nat} (h : k < n) : wordAt ((List.range n).map f) k = f k := by
  rw [wordAt, List.getD_eq_getElem _ _ (by simpa using h)]
  simp

theorem eq_map_wordAt (x : List Word) : x = (List.range x.length).map (wordAt x) := by
  refine List.ext_getElem (by simp) fun k hk _ => ?_
  simp [wordAt, hk]

/-- The words a command is assembled from are its encoding up to the ignored bits. -/
theorem agreesWith_assemble {o : Op} {x : List Word} (hlen : x.length = o.operandWords + 1)
    (hop : opcodeOf (wordAt x 0) = o.code) : AgreesWith x (assemble o x) := by
  refine ⟨by rw [encode_length, assemble_op, hlen], fun k hk => ?_⟩
  rw [encode_assemble hop, wordAt_map_range _ (hlen ▸ hk)]

/-- Words that agree with the encoding have its opcode. -/
theorem AgreesWith.opcode {x : List Word} {i : Instr} (h : AgreesWith x i) : opcodeOf (wordAt x 0) = i.op.code := by
  obtain ⟨hlen, hbits⟩ := h
  have h0 := hbits 0 (by rw [hlen, encode_length]; omega)
  rw [← opcodeOf_encode, ← h0, opcodeOf_and_not_ignoredBits]

/-- The command assembled from words that agree with the encoding of `i` has that encoding too, so it is `i`. -/
theorem AgreesWith.assemble_eq {x : List Word} {i : Instr} (h : AgreesWith x i) (hwf : i.wellFormed = true) :
    assemble i.op x = i := by
  have hop := h.opcode
  obtain ⟨hlen, hbits⟩ := h
  have henc : encode (assemble i.op x) = encode i :=
    calc encode (assemble i.op x)
      _ = (List.range (i.op.operandWords + 1)).map (fun k => wordAt x k &&& ~~~ignoredBits i k) := by
        rw [encode_assemble hop, ignoredBits_assemble_op]
      _ = (List.range (i.op.operandWords + 1)).map (wordAt (encode i)) :=
        List.map_congr_left fun k hk => hbits k (by rwa [hlen, encode_length, ← List.mem_range])
      _ = encode i := by rw [← encode_length, ← eq_map_wordAt]
  calc assemble i.op x
    _ = assemble (assemble i.op x).op (encode (assemble i.op x)) := (assemble_encode (assemble_wellFormed ..)).symm
    _ = assemble i.op (encode i) := by rw [assemble_op, henc]
    _ = i := assemble_encode hwf

/-- Settles O2: the words before the rest are those of an operation, which agree with the encoding of the command they
assemble to and of no other. -/
theorem decodeIgnoresOnlyIgnoredBits : Obligations.DecodeIgnoresOnlyIgnoredBits := by
  intro ws rest i
  rw [decode_eq_command_iff]
  constructor
  · rintro ⟨x, o, hws, hlen, hop, rfl⟩
    exact ⟨assemble_wellFormed o x, x, hws, agreesWith_assemble hlen hop⟩
  · rintro ⟨hwf, x, hws, hagree⟩
    have hagree : AgreesWith x i := hagree
    exact ⟨x, i.op, hws, hagree.1.trans (encode_length i), hagree.opcode, hagree.assemble_eq hwf⟩

/-! ## Illegal headers (R87) -/

theorem toNat_opcodeOf (h : Word) : (opcodeOf h).toNat = h.toNat / 256 := by
  have := h.isLt
  rw [opcodeOf, BitVec.extractLsb'_toNat, Nat.shiftRight_eq_div_pow]
  omega

/-- The opcodes R85 leaves unassigned are those R87 lists, by looking at each of the 256. -/
theorem opOf_eq_none_iff (b : Byte) : opOf b = none ↔ ∃ r ∈ illegalOpcodes, r.1 ≤ b.toNat ∧ b.toNat ≤ r.2 := by
  revert b
  decide

theorem decode_eq_illegal_iff (h : Word) (ws : List Word) :
    decode (h :: ws) = .illegal h ↔ opOf (opcodeOf h) = none := by
  rw [decode]
  split
  · next ho => simp [ho]
  · next ho => split <;> simp [ho]

theorem decode_incomplete {h : Word} {ws : List Word} {o : Op} (ho : opOf (opcodeOf h) = some o)
    (hlen : ws.length < o.operandWords) : decode (h :: ws) = .incomplete (o.operandWords - ws.length) := by
  rw [decode, ho]
  exact if_pos hlen

/-- Settles O3: the words of V-ENC and V-DEC, evaluated. -/
theorem specWordsDecode : Obligations.SpecWordsDecode :=
  ⟨rfl, rfl, rfl, rfl, rfl, rfl⟩

end Sys2Proof

namespace Sys2Proof.Machine

/-! ## The fetch step where no command is fetched (R86, R87, R224) -/

/-- Settles O4: illegal is what no operation's opcode is, and the fetch step then enters the fault state. -/
theorem illegalHeadersFault : Obligations.IllegalHeadersFault := by
  intro h ws
  have hiff := (decode_eq_illegal_iff h ws).trans (opOf_eq_none_iff (opcodeOf h))
  rw [toNat_opcodeOf] at hiff
  refine ⟨hiff, fun s hin hf hcur hfifo hill => ?_⟩
  have hd : decode s.fifo = .illegal h := hfifo ▸ hiff.2 hill
  rw [step_of_no_input hin, engineTurn_of_no_cur hcur, fetchThen_of_illegal hf hd, raiseFault_eq_faulted, zext16]

/-- Settles O6: in the fault state nothing is fetched, and otherwise the decoder finds words missing. -/
theorem engineWaits : Obligations.EngineWaits := by
  intro s hin hcur hwait
  rw [step_of_no_input hin, engineTurn_of_no_cur hcur]
  by_cases hf : s.fault = true
  · exact fetchThen_of_fault hf
  · have hf' : s.fault = false := Bool.eq_false_of_not_eq_true hf
    obtain hfault | hempty | ⟨h, ws, o, hfifo, ho, hlen⟩ := hwait
    · exact absurd hfault hf
    · exact fetchThen_of_incomplete hf' (congrArg decode hempty)
    · exact fetchThen_of_incomplete hf' ((congrArg decode hfifo).trans (decode_incomplete ho hlen))

end Sys2Proof.Machine

namespace Sys2Proof.Machine

/-! ## What PAL_LOAD leaves in the palette (R102, R105, R226) -/

theorem exec_palLoad_of_count_gt {count : Nat} (addr : Nat) (s : State) (h : 256 < count) :
    exec (.palLoad addr count) s = .next (faulted .badOperand count s) :=
  if_pos h

theorem exec_palLoad_of_count_le {count : Nat} (addr : Nat) (s : State) (h : count ≤ 256) :
    exec (.palLoad addr count) s = (palLoadLoop addr count { s with pal := List.replicate 256 0 }).outcome :=
  if_neg (Nat.not_lt.2 h)

/-- The first inaccessible byte of a 16-bit read, the low byte's address coming first, is its fault (R55, R57). -/
theorem readWord_raise {a b : Int} {s : State} (k : Word → Run)
    (hab : a = b ∨ (a = b + 1 ∧ Accessible s.cfg b)) (ha : ¬ Accessible s.cfg a) :
    readWord b s k = .raise .hostMemFault a s := by
  obtain rfl | ⟨rfl, hb⟩ := hab
  · exact readByte_raise _ ha
  · rw [readWord, readByte_ok _ hb, readByte_raise _ ha]

/-- Colour `i` of PAL_LOAD's list as host memory holds it, low byte first (R102). -/
def storedColour (s : State) (addr i : Nat) : Word :=
  memByte s (colourAddr addr i + 1) ++ memByte s (colourAddr addr i)

/-- The palette when PAL_LOAD has copied `n` colours: those colours, and zeros behind them (R102). -/
def loadedPalette (s : State) (addr n : Nat) : List Word :=
  (List.range n).map (storedColour s addr) ++ List.replicate (256 - n) 0

theorem loadedPalette_zero (s : State) (addr : Nat) : loadedPalette s addr 0 = List.replicate 256 0 := rfl

theorem loadedPalette_length (s : State) (addr : Nat) {n : Nat} (h : n ≤ 256) :
    (loadedPalette s addr n).length = 256 := by
  simp only [loadedPalette, List.length_append, List.length_map, List.length_range, List.length_replicate]
  omega

/-- The loaded palette by entry. -/
theorem loadedPalette_getD (s : State) (addr n k : Nat) :
    (loadedPalette s addr n).getD k 0 = if k < n then storedColour s addr k else 0 := by
  simp only [loadedPalette, List.getD_eq_getElem?_getD, List.getElem?_append, List.length_map, List.length_range,
    List.getElem?_replicate]
  split
  · next hk => simp [hk]
  · split <;> rfl

/-- One more colour replaces the first of the zeros. -/
theorem loadedPalette_set (s : State) (addr : Nat) {n : Nat} (h : n < 256) :
    (loadedPalette s addr n).set n (storedColour s addr n) = loadedPalette s addr (n + 1) := by
  obtain ⟨m, hm⟩ : ∃ m, 256 - n = m + 1 := ⟨255 - n, by omega⟩
  have hm' : 256 - (n + 1) = m := by omega
  simp [loadedPalette, hm, hm', List.replicate_succ, List.range_succ]

/-- PAL_LOAD's loop over colours whose bytes may be read copies them and changes nothing else (R102). -/
theorem palLoadLoop_ok {s : State} {addr n : Nat} (hn : n ≤ 256)
    (h : ∀ i < n, Accessible s.cfg (colourAddr addr i) ∧ Accessible s.cfg (colourAddr addr i + 1)) :
    palLoadLoop addr n { s with pal := List.replicate 256 0 } = .ok { s with pal := loadedPalette s addr n } := by
  unfold palLoadLoop forRange
  induction n with
  | zero => rfl
  | succ n ih =>
    obtain ⟨hlo, hhi⟩ := h n n.lt_succ_self
    rw [loopFrom_snoc, ih (Nat.le_of_succ_le hn) fun i hi => h i (Nat.lt_succ_of_lt hi), Run.bind_ok, Nat.zero_add,
      ← loadedPalette_set s addr hn]
    exact readWord_ok _ hlo hhi

/-- PAL_LOAD's loop stops at the first byte it may not read, the colours before it copied (R224, R226). -/
theorem palLoadLoop_stops {s : State} {addr count n : Nat} {a : Int} (hn : n < count) (hcount : count ≤ 256)
    (h : ∀ i < n, Accessible s.cfg (colourAddr addr i) ∧ Accessible s.cfg (colourAddr addr i + 1))
    (hstop : a = colourAddr addr n ∨ (a = colourAddr addr n + 1 ∧ Accessible s.cfg (colourAddr addr n)))
    (ha : ¬ Accessible s.cfg a) :
    palLoadLoop addr count { s with pal := List.replicate 256 0 } =
      .raise .hostMemFault a { s with pal := loadedPalette s addr n } :=
  forRange_raise hn (palLoadLoop_ok (by omega) h) (readWord_raise _ hstop ha)

/-- A colour stored little-endian is the colour PAL_LOAD reads (R55). -/
theorem storedColour_eq {s : State} {addr i : Nat} {v : Word}
    (hlo : memByte s (colourAddr addr i) = v.extractLsb' 0 8)
    (hhi : memByte s (colourAddr addr i + 1) = v.extractLsb' 8 8) : storedColour s addr i = v := by
  rw [storedColour, hlo, hhi]
  exact opcodeOf_append_lowByte v

/-- Settles O20: the loop copies every colour, and each is the stored one. -/
theorem palLoadRoundTrip : Obligations.PalLoadRoundTrip := by
  intro s addr p hp hstored
  have hread : ∀ i < p.length, Accessible s.cfg (colourAddr addr i) ∧ Accessible s.cfg (colourAddr addr i + 1) := by
    intro i hi
    obtain ⟨hlo, -, hhi, -⟩ := hstored i hi
    exact ⟨hlo, hhi⟩
  refine ⟨{ s with pal := loadedPalette s addr p.length }, ?_, rfl, loadedPalette_length s addr hp, fun k => ?_⟩
  · rw [exec_palLoad_of_count_le addr s hp, palLoadLoop_ok hp hread, Run.outcome_ok]
  · refine (loadedPalette_getD s addr p.length k.toNat).trans ?_
    split
    · next hk =>
      obtain ⟨-, hlo, -, hhi⟩ := hstored k.toNat hk
      exact storedColour_eq hlo hhi
    · next hk => exact (List.getD_eq_default p 0 (Nat.not_lt.1 hk)).symm

/-- Settles O21: the count is checked before anything changes; the loop stops at the first byte it may not read. -/
theorem palLoadStops : Obligations.PalLoadStops := by
  refine ⟨fun s addr count => exec_palLoad_of_count_gt addr s, fun s addr count n a hn hcount hread hstop ha => ?_⟩
  refine ⟨faulted .hostMemFault a { s with pal := loadedPalette s addr n }, ?_, rfl,
    loadedPalette_length s addr (by omega), fun k => loadedPalette_getD s addr n k.toNat⟩
  rw [exec_palLoad_of_count_le addr s hcount, palLoadLoop_stops hn hcount hread hstop ha, Run.outcome_raise,
    raiseFault_eq_faulted]

/-! ## PAL_DEFAULT and PAL_READ (R101, R103) -/

/-- Settles O19: PAL_DEFAULT's table is the default palette, which `defaultPalette_getD` gives by entry. -/
theorem palDefaultAndPalRead : Obligations.PalDefaultAndPalRead := by
  refine ⟨fun s hs => ?_, fun s idx => rfl⟩
  have hdefpal : s.cfg.defpal.length = 16 := defpal_length hs.1
  exact ⟨{ s with pal := defaultPalette s.cfg }, rfl, rfl, defaultPalette_length hdefpal,
    fun k => defaultPalette_getD hdefpal k.toNat⟩

end Sys2Proof.Machine

namespace Sys2Proof.Machine

/-! ## The translation, onto both sectors (R111) -/

/-- The formula above row K. -/
theorem translate_of_lt {p : Config} {x y : Int} (hc : InCanvas p x y) (hk : y < p.k) :
    translate p x y = some (.top, (y * p.w + x).toNat) := by
  rw [translate_of_inCanvas hc, if_pos hk]

/-- The formula from row K on. -/
theorem translate_of_le {p : Config} {x y : Int} (hc : InCanvas p x y) (hk : p.k ≤ y) :
    translate p x y = some (.bot, ((y - p.k) * p.w + x).toNat) := by
  rw [translate_of_inCanvas hc, if_neg (Int.not_lt.2 hk)]

/-- Every offset below `n` rows of `w` bytes is that of a row and a column. -/
theorem exists_rowMajor_eq {w n off : Nat} (hw : 1 ≤ w) (h : off < n * w) :
    ∃ x y : Nat, x < w ∧ y < n ∧ ((y : Int) * w + x).toNat = off := by
  refine ⟨off % w, off / w, Nat.mod_lt off hw, Nat.div_lt_of_lt_mul (Nat.mul_comm n w ▸ h), ?_⟩
  exact_mod_cast Nat.div_add_mod' off w

/-- Every offset of a sector is the translation of a pixel: TOP's rows start at row 0, BOT's at row K. -/
theorem exists_translate_eq {p : Config} (hw : 1 ≤ p.w) (hk : p.k < p.h) {d : Sector} {off : Nat}
    (h : off < sectorSize p d) : ∃ x y, translate p x y = some (d, off) := by
  cases d with
  | top =>
    obtain ⟨x, y, hx, hy, rfl⟩ := exists_rowMajor_eq hw h
    exact ⟨x, y, translate_of_lt (by omega) (by omega)⟩
  | bot =>
    obtain ⟨x, y, hx, hy, rfl⟩ := exists_rowMajor_eq hw h
    refine ⟨x, p.k + y, ?_⟩
    rw [translate_of_le (by omega) (by omega), add_sub_cancel_left]

/-- Settles O22: the formulas by case of the row, and the image of a sector by division with remainder. -/
theorem translateBijective : Obligations.TranslateBijective := by
  intro p ⟨hw, _, _, _, _, hk, _⟩
  have himage : ∀ d off, (∃ x y, translate p x y = some (d, off)) ↔ off < sectorSize p d := fun d off =>
    ⟨fun ⟨_, _, h⟩ => translate_lt hk h, exists_translate_eq hw hk⟩
  exact ⟨fun _ _ => translate_of_lt, fun _ _ => translate_of_le, fun _ _ => translate_of_not_inCanvas,
    fun _ _ _ _ _ => translate_inj, himage .top, himage .bot⟩

/-! ## GETPIXEL (R117) -/

theorem exec_getPixel_of_read {s : State} {x y : Int} {v : Byte} (h : canvasRead x y s = some v) :
    exec (.getPixel x y) s = .next { s with res0 := v.setWidth 16 } := by
  show execGetPixel x y s = _
  rw [execGetPixel, h]

theorem exec_getPixel_of_no_read {s : State} {x y : Int} (h : canvasRead x y s = none) :
    exec (.getPixel x y) s = .next { s with res0 := 0 } := by
  show execGetPixel x y s = _
  rw [execGetPixel, h]

/-- Settles O25: the canvas read is the byte at the translated offset, and there is none off the canvas. -/
theorem getPixelReads : Obligations.GetPixelReads := fun _ _ _ =>
  ⟨fun _ _ h => exec_getPixel_of_read (canvasRead_of_translate h),
    fun h => exec_getPixel_of_no_read (canvasRead_of_not_inCanvas h)⟩

/-! ## POINT, HLINE and VLINE (R118, R132, R133) -/

/-- The pixel `Point` writes: its own, where it is on the canvas (R124). -/
theorem mem_pointPixels {p : Config} {x y px py : Int} :
    (px, py) ∈ pointPixels p x y ↔ InCanvas p px py ∧ px = x ∧ py = y := by
  unfold pointPixels
  split
  · next hc =>
    rw [List.mem_singleton, Prod.mk.injEq]
    exact ⟨fun ⟨hx, hy⟩ => ⟨hx ▸ hy ▸ hc, hx, hy⟩, And.right⟩
  · next hc =>
    refine iff_of_false (List.not_mem_nil) ?_
    rintro ⟨hp, rfl, rfl⟩
    exact hc hp

theorem exec_point_draws {s : State} (x y : Int) (c : Byte) (hs : s.Sound) :
    ∃ t, exec (.point x y c) s = .next t ∧ Draws (solid c (fun px py => px = x ∧ py = y)) s t :=
  drawPixels_shape hs.drawable fun _ _ => mem_pointPixels

/-- Settles O29: the three pixel lists hold exactly the pixels of the shape that are on the canvas. -/
theorem pointHlineVlineDraw : Obligations.PointHlineVlineDraw := fun _ x y _ c hs =>
  ⟨exec_point_draws x y c hs, drawPixels_shape hs.drawable fun _ _ => mem_hlinePixels,
    drawPixels_shape hs.drawable fun _ _ => mem_vlinePixels⟩

/-- Settles O24: POINT draws its pixel only, so GETPIXEL reads the colour there and elsewhere what it read before. -/
theorem pointThenGetPixel : Obligations.PointThenGetPixel := by
  intro s x y c hs hc
  obtain ⟨t, ht, -, hwritten, hkept, -⟩ := exec_point_draws x y c hs
  refine ⟨t, ht, exec_getPixel_of_read (hwritten x y c hc ⟨⟨rfl, rfl⟩, rfl⟩), fun x' y' hc' hne => ?_⟩
  obtain ⟨v, hv⟩ := canvasRead_isSome hc'
  have hv' : canvasRead x' y' t = some v := (hkept x' y' fun _ h => hne h.1).trans hv
  exact ⟨v.setWidth 16, exec_getPixel_of_read hv, exec_getPixel_of_read hv'⟩

/-! ## FILLSCREEN (R119) -/

/-- The state after FILLSCREEN: both sectors filled, every flag set. -/
def filledScreen (c : Byte) (s : State) : State :=
  { s with
    top := SectorMem.fill (topSize s.cfg) c
    bot := SectorMem.fill (botSize s.cfg) c
    dirty := allDirty s.cfg }

theorem exec_fillScreen (c : Byte) (s : State) : exec (.fillScreen c) s = .next (filledScreen c s) := rfl

theorem sectorOf_filledScreen (d : Sector) (c : Byte) (s : State) :
    sectorOf d (filledScreen c s) = SectorMem.fill (sectorSize s.cfg d) c := by
  cases d <;> rfl

theorem canvasRead_filledScreen {s : State} {x y : Int} (c : Byte) (hk : s.cfg.k < s.cfg.h)
    (hc : InCanvas s.cfg x y) : canvasRead x y (filledScreen c s) = some c := by
  obtain ⟨⟨d, off⟩, htr⟩ := Option.isSome_iff_exists.1 ((translate_isSome_iff s.cfg x y).2 hc)
  rw [canvasRead_of_translate (s := filledScreen c s) htr, sectorByte, sectorOf_filledScreen,
    SectorMem.get_fill _ _ _ (translate_lt hk htr), Option.getD_some]

/-- Settles O26: both sectors are filled, and the dirty map is the one with every flag set. -/
theorem fillScreen : Obligations.FillScreen := by
  intro s c ⟨⟨_, _, _, _, _, hk, _⟩, _⟩
  exact ⟨filledScreen c s, exec_fillScreen c s, rfl, fun _ _ => canvasRead_filledScreen c hk, List.length_replicate,
    fun _ _ => dirtyFlag_of_allDirty (s := filledScreen c s) rfl⟩

/-! ## Crop (R116, R120, R122) -/

/-- `v` lies in the span of `len` from `start` on and in the viewport `0 .. view - 1`. -/
abbrev InView (start len view v : Int) : Prop :=
  start ≤ v ∧ v < start + len ∧ 0 ≤ v ∧ v < view

/-- Where the viewport shows nothing of the span, `Crop` returns NONE: did all its tests let the span through, the
viewport would show `max start 0`. -/
theorem crop_of_empty {start len view : Int} (h : ∀ v, ¬ InView start len view v) :
    crop start len view = (0, 0, none) := by
  have hfirst : ¬ InView start len view (max start 0) := h (max start 0)
  exact if_pos (by omega)

/-- Where the viewport shows some of the span, `Crop` returns the ends of what it shows. -/
theorem exists_crop_of_inView {start len view v : Int} (h : InView start len view v) :
    ∃ first last, crop start len view = (first, last - first + 1, some last) ∧ first ≤ last ∧
      InView start len view first ∧ InView start len view last ∧
      ∀ u, InView start len view u ↔ first ≤ u ∧ u ≤ last :=
  ⟨max start 0, min (start + len - 1) (view - 1), if_neg (by omega), by omega, by omega, by omega,
    fun u => by omega⟩

/-- Settles O27: `Crop` returns the ends of the intersection where there is one, and NONE elsewhere. -/
theorem cropLaws : Obligations.CropLaws := by
  intro start len view
  by_cases hmeet : ∃ v, InView start len view v
  · obtain ⟨v, hv⟩ := hmeet
    obtain ⟨first, last, hcrop, hle, hfirst, hlast, hiff⟩ := exists_crop_of_inView hv
    rw [hcrop]
    refine ⟨fun _ _ _ h => ?_, fun _ _ h => by cases h⟩
    cases h
    exact ⟨by omega, hle, by omega, rfl, by omega, by omega, by omega, fun u => (hiff u).symm.trans (by omega)⟩
  · have hempty : ∀ v, ¬ InView start len view v := not_exists.1 hmeet
    rw [crop_of_empty hempty]
    refine ⟨fun _ _ _ h => (by cases h), fun _ _ h => ?_⟩
    cases h
    exact ⟨rfl, rfl, fun v hv => hempty v (by omega)⟩

theorem exec_crop_of_none {start len view first n : Int} (s : State) (h : crop start len view = (first, n, none)) :
    exec (.crop start len view) s =
      .next { s with res0 := BitVec.ofInt 16 first, res1 := BitVec.ofInt 16 n, res2 := 0xFFFF } := by
  show execCrop start len view s = _
  rw [execCrop, h]

theorem exec_crop_of_some {start len view first n last : Int} (s : State)
    (h : crop start len view = (first, n, some last)) :
    exec (.crop start len view) s =
      .next { s with
        res0 := BitVec.ofInt 16 first, res1 := BitVec.ofInt 16 n, res2 := BitVec.ofInt 16 last } := by
  show execCrop start len view s = _
  rw [execCrop, h]

/-- A number a word can hold is its own word (R14). -/
theorem toNat_ofInt_of_range {v : Int} (h0 : 0 ≤ v) (h : v < 65536) : ((BitVec.ofInt 16 v).toNat : Int) = v := by
  rw [toNat_ofInt_word]
  omega

/-- Settles O28: the registers hold what `Crop` returns, all of it within `0 .. view`, so that no word wraps. -/
theorem cropCommand : Obligations.CropCommand := by
  intro s start len view _ _ hview
  rw [isS16_iff] at hview
  by_cases hmeet : ∃ v, InView start len view v
  · obtain ⟨v, hv⟩ := hmeet
    obtain ⟨first, last, hcrop, hle, hfirst, hlast, hiff⟩ := exists_crop_of_inView hv
    have hwFirst : ((BitVec.ofInt 16 first).toNat : Int) = first := toNat_ofInt_of_range (by omega) (by omega)
    have hwLen : ((BitVec.ofInt 16 (last - first + 1)).toNat : Int) = last - first + 1 :=
      toNat_ofInt_of_range (by omega) (by omega)
    have hwLast : ((BitVec.ofInt 16 last).toNat : Int) = last := toNat_ofInt_of_range (by omega) (by omega)
    refine ⟨_, exec_crop_of_some s hcrop, rfl, fun hempty => absurd hv (hempty v), fun _ _ => ?_⟩
    dsimp only
    rw [hwFirst, hwLen, hwLast]
    exact ⟨by omega, rfl, hiff⟩
  · have hempty : ∀ v, ¬ InView start len view v := not_exists.1 hmeet
    exact ⟨_, exec_crop_of_none s (crop_of_empty hempty), rfl, fun _ => ⟨rfl, rfl, rfl⟩,
      fun v hv => absurd hv (hempty v)⟩

end Sys2Proof.Machine

namespace Sys2Proof.Machine

/-! ## LINE from either end (R134, R136 (a)) -/

/-- Both orders of the end points reduce to the one from left to right. -/
theorem lineLeftToRight_comm {x0 x1 : Int} (y0 y1 : Int) (hx : x0 ≠ x1) :
    lineLeftToRight x1 y1 x0 y0 = lineLeftToRight x0 y0 x1 y1 := by
  unfold lineLeftToRight
  rcases lt_or_gt_of_ne hx with h | h
  · rw [if_pos h, if_neg h.not_gt]
  · rw [if_neg h.not_gt, if_pos h]

/-- The steepness does not depend on the order of the end points, and each major axis is walked in its own order. -/
theorem lineCandidates_comm {x0 y0 x1 y1 : Int} (hx : x0 ≠ x1) (hy : y0 ≠ y1) :
    lineCandidates x1 y1 x0 y0 = lineCandidates x0 y0 x1 y1 := by
  unfold lineCandidates
  rw [← Int.natAbs_neg (x0 - x1), ← Int.natAbs_neg (y0 - y1), neg_sub, neg_sub, lineLeftToRight_comm y0 y1 hx,
    lineLeftToRight_comm x0 x1 hy]

theorem linePixels_comm (p : Config) (x0 y0 x1 y1 : Int) :
    linePixels p x1 y1 x0 y0 = linePixels p x0 y0 x1 y1 := by
  unfold linePixels
  by_cases hy : y0 = y1
  · rw [if_pos hy, if_pos hy.symm, hy, min_comm, max_comm]
  · rw [if_neg hy, if_neg (Ne.symm hy)]
    by_cases hx : x0 = x1
    · rw [if_pos hx, if_pos hx.symm, hx, min_comm, max_comm]
    · rw [if_neg hx, if_neg (Ne.symm hx), lineCandidates_comm hx hy]

/-- LINE draws the pixels of `linePixels` (R134). -/
theorem exec_line (x0 y0 x1 y1 : Int) (c : Byte) (s : State) :
    exec (.line x0 y0 x1 y1 c) s = drawPixels c (linePixels s.cfg x0 y0 x1 y1) s := rfl

/-- Settles O30: the pixel list holds exactly the line's pixels on the canvas, and is the same from either end. -/
theorem lineDraws : Obligations.LineDraws := by
  intro s x0 y0 x1 y1 c hs
  refine ⟨drawPixels_shape hs.drawable fun _ _ => mem_linePixels, ?_⟩
  rw [exec_line, exec_line, linePixels_comm]

/-! ## R135's loop in closed form -/

theorem ceilDiv_neg_of_lt {a b : Int} (h0 : 0 ≤ a) (h : a < b) : ceilDiv (-a) b = 0 := by
  rw [ceilDiv, neg_neg, Int.ediv_eq_zero_of_lt h0 h, neg_zero]

/-- One more divisor is one more quotient. -/
theorem ceilDiv_add_self (a : Int) {b : Int} (hb : b ≠ 0) : ceilDiv (a + b) b = 1 + ceilDiv a b := by
  rw [ceilDiv, ceilDiv, neg_add, Int.add_ediv_of_dvd_right (Int.dvd_neg.2 (Int.dvd_refl b)), Int.neg_ediv_self _ hb]
  ring

/-- Pass `i` of the loop: the error term stays within `0 .. dx - 1`, and each time it would leave that range the minor
coordinate advances by one step. -/
theorem lineSteps_eq_map {dx dy : Int} (ystep : Int) (hdy : 0 ≤ dy) (hle : dy ≤ dx) (n : Nat) (x y err : Int)
    (herr : 0 ≤ err) (hlt : err < dx) :
    lineSteps dx dy ystep n x y err =
      (List.range n).map fun (i : Nat) => (x + (i : Int), y + ystep * ceilDiv ((i : Int) * dy - err) dx) := by
  induction n generalizing x y err with
  | zero => rfl
  | succ n ih =>
    have hfirst : ceilDiv (((0 : Nat) : Int) * dy - err) dx = 0 := by
      rw [Nat.cast_zero, zero_mul, zero_sub, ceilDiv_neg_of_lt herr hlt]
    rw [lineSteps, List.range_succ_eq_map, List.map_cons, List.map_map, hfirst, Nat.cast_zero, add_zero, mul_zero,
      add_zero]
    congr 1
    split
    · rw [ih (x + 1) (y + ystep) (err - dy + dx) (by omega) (by omega)]
      refine List.map_congr_left fun i _ => ?_
      have hnext : ((i.succ : Nat) : Int) * dy - err = (i * dy - (err - dy + dx)) + dx := by
        push_cast
        ring
      rw [Function.comp_apply, hnext, ceilDiv_add_self _ (by omega), Nat.cast_succ]
      exact Prod.ext (by ring) (by ring)
    · rw [ih (x + 1) y (err - dy) (by omega) (by omega)]
      refine List.map_congr_left fun i _ => ?_
      have hnext : ((i.succ : Nat) : Int) * dy - err = i * dy - (err - dy) := by
        push_cast
        ring
      rw [Function.comp_apply, hnext, Nat.cast_succ]
      exact Prod.ext (by ring) rfl

/-- The walk of a line left to right, its error term starting at `dx div 2`. -/
theorem lineLeftToRight_eq_map {x0 y0 x1 y1 : Int} (hx : x0 < x1) (hdy : |y1 - y0| ≤ x1 - x0) :
    lineLeftToRight x0 y0 x1 y1 = (List.range (x1 - x0 + 1).toNat).map fun (i : Nat) =>
      (x0 + (i : Int),
        y0 + (if y0 < y1 then 1 else -1) * ceilDiv ((i : Int) * |y1 - y0| - (x1 - x0) / 2) (x1 - x0)) := by
  rw [lineLeftToRight, if_neg hx.not_gt, lineWalk, Int.natCast_natAbs]
  exact lineSteps_eq_map _ (abs_nonneg _) hdy _ _ _ _ (by omega) (by omega)

/-- Settles O31: the walk along the x axis, and the same walk with the axes transposed. -/
theorem lineClosedForm : Obligations.LineClosedForm := by
  constructor
  · intro x0 y0 x1 y1 hx hflat _
    have hnot : ¬ (x1 - x0).natAbs < (y1 - y0).natAbs := by
      zify
      exact (hflat.trans (le_abs_self _)).not_gt
    rw [lineCandidates, if_neg hnot, lineLeftToRight_eq_map hx hflat]
  · intro x0 y0 x1 y1 hy hlt _
    have hsteep : (x1 - x0).natAbs < (y1 - y0).natAbs := by
      zify
      exact hlt.trans_le (le_abs_self _)
    rw [lineCandidates, if_pos hsteep, lineLeftToRight_eq_map hy hlt.le, List.map_map]
    rfl

end Sys2Proof.Machine

namespace Sys2Proof.Machine

/-! ## RECT, FRECT and TRI (R140 to R142) -/

theorem onLine_horizontal {x0 x1 y px py : Int} :
    OnLine x0 y x1 y px py ↔ py = y ∧ min x0 x1 ≤ px ∧ px ≤ max x0 x1 := by
  rw [OnLine, if_pos rfl]

/-- A vertical line of one pixel is drawn as a horizontal one (R135), which is the same pixel. -/
theorem onLine_vertical {x y0 y1 px py : Int} :
    OnLine x y0 x y1 px py ↔ px = x ∧ min y0 y1 ≤ py ∧ py ≤ max y0 y1 := by
  by_cases hy : y0 = y1
  · rw [hy, onLine_horizontal]
    omega
  · rw [OnLine, if_neg hy, if_pos rfl]

/-- A pixel RECT writes: on the canvas and on the border of the rectangle (R140). -/
theorem mem_rectPixels {p : Config} {x y w h px py : Int} :
    (px, py) ∈ rectPixels p x y w h ↔ InCanvas p px py ∧
      (InRect x y w h px py ∧ (px = x ∨ px = x + w - 1 ∨ py = y ∨ py = y + h - 1)) := by
  unfold rectPixels
  split
  · next hempty =>
    refine iff_of_false List.not_mem_nil fun ⟨_, hrect, _⟩ => ?_
    omega
  · simp only [List.mem_append, mem_linePixels, onLine_horizontal, onLine_vertical, ← and_or_left]
    refine and_congr_right fun _ => ?_
    omega

/-- The span `Crop` returns, empty for NONE, is the part of the span that is in the viewport (R116, R122). -/
theorem mem_cropSpan_iff_inView {start len view u : Int} :
    ((crop start len view).1 ≤ u ∧ u < (crop start len view).1 + (crop start len view).2.1) ↔
      InView start len view u := by
  by_cases hmeet : ∃ v, InView start len view v
  · obtain ⟨v, hv⟩ := hmeet
    obtain ⟨first, last, hcrop, -, -, -, hiff⟩ := exists_crop_of_inView hv
    rw [hcrop, hiff]
    refine and_congr_right fun _ => ?_
    dsimp only
    omega
  · have hempty : ∀ v, ¬ InView start len view v := not_exists.1 hmeet
    rw [crop_of_empty hempty]
    refine iff_of_false (fun ⟨hfirst, hlast⟩ => ?_) (hempty u)
    dsimp only at hfirst hlast
    omega

/-- Runs of one length from one column on, one below the other, are a rectangle. -/
theorem mem_rows_hlinePixels {p : Config} {x y w h px py : Int} :
    (px, py) ∈ (List.range h.toNat).flatMap (fun (r : Nat) => hlinePixels p x (y + (r : Int)) w) ↔
      InCanvas p px py ∧ InRect x y w h px py := by
  simp only [List.mem_flatMap, List.mem_range, mem_hlinePixels]
  constructor
  · rintro ⟨r, hr, hcanvas, rfl, hleft, hright⟩
    exact ⟨hcanvas, hleft, hright, by omega, by omega⟩
  · rintro ⟨hcanvas, hleft, hright, htop, hbottom⟩
    exact ⟨(py - y).toNat, by omega, hcanvas, by omega, hleft, hright⟩

/-- A pixel FRECT writes: on the canvas and in the rectangle (R141). A rectangle rejected early has no pixel on the
canvas. -/
theorem mem_frectPixels {p : Config} {x y w h px py : Int} :
    (px, py) ∈ frectPixels p x y w h ↔ InCanvas p px py ∧ InRect x y w h px py := by
  unfold frectPixels
  split
  · next hempty =>
    refine iff_of_false List.not_mem_nil fun ⟨_, hrect⟩ => ?_
    omega
  · split
    · next hoff =>
      refine iff_of_false List.not_mem_nil fun ⟨hcanvas, hrect⟩ => ?_
      omega
    · rw [mem_rows_hlinePixels]
      refine and_congr_right fun hcanvas => ?_
      have hcols := mem_cropSpan_iff_inView (start := x) (len := w) (view := p.w) (u := px)
      have hrows := mem_cropSpan_iff_inView (start := y) (len := h) (view := p.h) (u := py)
      omega

/-- A pixel TRI writes: on the canvas and on one of the three lines (R142). -/
theorem mem_triPixels {p : Config} {x0 y0 x1 y1 x2 y2 px py : Int} :
    (px, py) ∈ triPixels p x0 y0 x1 y1 x2 y2 ↔ InCanvas p px py ∧
      (OnLine x0 y0 x1 y1 px py ∨ OnLine x1 y1 x2 y2 px py ∨ OnLine x2 y2 x0 y0 px py) := by
  simp only [triPixels, List.mem_append, mem_linePixels, ← and_or_left, or_assoc]

/-- Settles O32: the three pixel lists hold exactly the pixels of the shape that are on the canvas. -/
theorem rectFrectTriDraw : Obligations.RectFrectTriDraw :=
  ⟨fun _ _ _ _ _ _ hs =>
    ⟨drawPixels_shape hs.drawable fun _ _ => mem_rectPixels, drawPixels_shape hs.drawable fun _ _ => mem_frectPixels⟩,
    fun _ _ _ _ _ _ _ _ hs => drawPixels_shape hs.drawable fun _ _ => mem_triPixels⟩

/-! ## R143's sort -/

theorem orderByY_perm (v w : Int × Int) : [(orderByY v w).1, (orderByY v w).2].Perm [v, w] := by
  unfold orderByY
  split
  · exact .swap v w []
  · exact .refl _

theorem orderByY_rows (v w : Int × Int) :
    (orderByY v w).1.2 = min v.2 w.2 ∧ (orderByY v w).2.2 = max v.2 w.2 := by
  unfold orderByY
  split
  · next hgt => exact ⟨(min_eq_right hgt.le).symm, (max_eq_left hgt.le).symm⟩
  · next hle => exact ⟨(min_eq_left (not_lt.1 hle)).symm, (max_eq_right (not_lt.1 hle)).symm⟩

/-- Each of the three compare-exchanges permutes two of the vertices. -/
theorem sortByY_perm {v0 v1 v2 a b d : Int × Int} (h : sortByY v0 v1 v2 = (a, b, d)) :
    [a, b, d].Perm [v0, v1, v2] := by
  cases h
  exact ((orderByY_perm _ _).append_right [_]).trans <|
    ((orderByY_perm _ _).cons _).trans ((orderByY_perm v0 v1).append_right [v2])

/-- Each compare-exchange leaves the smaller of two rows first: the second one brings the largest row to the end, the
third orders the other two. -/
theorem sortByY_sorted {v0 v1 v2 a b d : Int × Int} (h : sortByY v0 v1 v2 = (a, b, d)) : a.2 ≤ b.2 ∧ b.2 ≤ d.2 := by
  cases h
  obtain ⟨hmin1, hmax1⟩ := orderByY_rows v0 v1
  obtain ⟨hmin2, hmax2⟩ := orderByY_rows (orderByY v0 v1).2 v2
  obtain ⟨hmin3, hmax3⟩ := orderByY_rows (orderByY v0 v1).1 (orderByY (orderByY v0 v1).2 v2).1
  omega

/-! ## The rows of FTRI (R143) -/

theorem not_inSpans_nil {px py : Int} : ¬ InSpans [] px py :=
  fun ⟨_, hq, _⟩ => nomatch hq

theorem inSpans_append {l m : List Span} {px py : Int} :
    InSpans (l ++ m) px py ↔ InSpans l px py ∨ InSpans m px py := by
  simp only [InSpans, List.mem_append, or_and_right, exists_or]

theorem inSpans_spanBetween_cons {a b y px py : Int} {l : List Span} :
    InSpans (spanBetween a b y :: l) px py ↔ (py = y ∧ min a b ≤ px ∧ px ≤ max a b) ∨ InSpans l px py := by
  simp only [InSpans, spanBetween, List.exists_mem_cons_iff]
  refine or_congr_left ?_
  omega

/-- The column where the edge from `(xa, ya)`, of extent `dx` by `dy`, meets a row, the division truncated (R143). -/
def intercept (xa ya dx dy row : Int) : Int :=
  xa + (dx * (row - ya)).tdiv dy

/-- The loop's accumulators hold `dx` times the rows passed since the edge began, so row by row it fills between the
intercepts of its two edges. -/
theorem inSpans_edgeRows {xa ya dxa dya xb yb dxb dyb px py : Int} (n : Nat) (y : Int) :
    InSpans (edgeRows xa dxa dya xb dxb dyb n y (dxa * (y - ya)) (dxb * (y - yb))) px py ↔
      (y ≤ py ∧ py < y + n) ∧ min (intercept xa ya dxa dya py) (intercept xb yb dxb dyb py) ≤ px ∧
        px ≤ max (intercept xa ya dxa dya py) (intercept xb yb dxb dyb py) := by
  induction n generalizing y with
  | zero =>
    refine iff_of_false not_inSpans_nil fun ⟨hrow, _⟩ => ?_
    omega
  | succ n ih =>
    have hadv : ∀ d o : Int, d * (y - o) + d = d * (y + 1 - o) := fun d o => by ring
    have hrows : (y ≤ py ∧ py < y + (n + 1 : Nat)) ↔ py = y ∨ (y + 1 ≤ py ∧ py < y + 1 + n) := by omega
    rw [edgeRows, inSpans_spanBetween_cons, hadv, hadv, ih, hrows, or_and_right]
    refine or_congr_left (and_congr_right ?_)
    rintro rfl
    rfl

/-- The runs of sorted vertices cover the filled triangle. The upper part takes row `y1` only where the bottom is flat;
with a flat top it has no rows. -/
theorem inSpans_sortedTriSpans {x0 y0 x1 y1 x2 y2 px py : Int} (h01 : y0 ≤ y1) (h12 : y1 ≤ y2) :
    InSpans (sortedTriSpans x0 y0 x1 y1 x2 y2) px py ↔ InFilledTri x0 y0 x1 y1 x2 y2 px py := by
  unfold sortedTriSpans InFilledTri
  by_cases hrow : y0 = y2
  · rw [if_pos hrow, if_pos hrow, inSpans_spanBetween_cons, or_iff_left not_inSpans_nil]
    omega
  · rw [if_neg hrow, if_neg hrow]
    have hupper := inSpans_edgeRows (xa := x0) (ya := y0) (dxa := x1 - x0) (dya := y1 - y0) (xb := x0) (yb := y0)
      (dxb := x2 - x0) (dyb := y2 - y0) (px := px) (py := py) (lastUpperRow y1 y2 + 1 - y0).toNat y0
    rw [sub_self, mul_zero, mul_zero] at hupper
    simp only [inSpans_append, hupper, inSpans_edgeRows, intercept]
    have hlast : lastUpperRow y1 y2 = if y1 = y2 then y1 else y1 - 1 := rfl
    by_cases hpart : py < y1 ∨ y1 = y2
    · rw [if_pos hpart]
      omega
    · rw [if_neg hpart]
      omega

/-- A pixel FTRI writes: on the canvas and in the filled triangle of the sorted vertices (R143). -/
theorem mem_ftriPixels {p : Config} {x0 y0 x1 y1 x2 y2 px py : Int} {v0 v1 v2 : Int × Int}
    (h : sortByY (x0, y0) (x1, y1) (x2, y2) = (v0, v1, v2)) :
    (px, py) ∈ ftriPixels p x0 y0 x1 y1 x2 y2 ↔
      InCanvas p px py ∧ InFilledTri v0.1 v0.2 v1.1 v1.2 v2.1 v2.2 px py := by
  obtain ⟨h01, h12⟩ := sortByY_sorted h
  rw [← inSpans_sortedTriSpans h01 h12, ftriPixels, ftriSpans, h]
  simp only [List.mem_flatMap, mem_hlinePixels, InSpans]
  tauto

/-- Settles O33: the sort orders the vertices by row, and the pixel list holds exactly the pixels of the filled triangle
that are on the canvas. -/
theorem ftriDraws : Obligations.FtriDraws := fun _ _ _ _ _ _ _ _ hs _ _ _ hsort =>
  have ⟨h01, h12⟩ := sortByY_sorted hsort
  ⟨sortByY_perm hsort, h01, h12, drawPixels_shape hs.drawable fun _ _ => mem_ftriPixels hsort⟩

/-! ## The order of FTRI's vertices (R143) -/

/-- The sorted vertices as a list: a permutation, in the order of their rows. -/
theorem exists_sortByY (v0 v1 v2 : Int × Int) : ∃ a b d, sortByY v0 v1 v2 = (a, b, d) ∧
    [a, b, d].Perm [v0, v1, v2] ∧ [a, b, d].Pairwise (fun v w => v.2 ≤ w.2) := by
  refine ⟨_, _, _, rfl, sortByY_perm rfl, ?_⟩
  obtain ⟨h01, h12⟩ := sortByY_sorted (v0 := v0) (v1 := v1) (v2 := v2) rfl
  simp only [List.pairwise_cons, List.forall_mem_cons]
  exact ⟨⟨h01, h01.trans h12, nofun⟩, ⟨h12, nofun⟩, nofun, .nil⟩

/-- A list has one order by row, if no two of its vertices are on the same row. -/
theorem sortByY_eq_of_perm {v0 v1 v2 w0 w1 w2 : Int × Int} (hperm : [w0, w1, w2].Perm [v0, v1, v2])
    (hrows : ([v0, v1, v2].map Prod.snd).Nodup) :
    sortByY w0 w1 w2 = sortByY v0 v1 v2 := by
  obtain ⟨a, b, d, hw, hwperm, hwsorted⟩ := exists_sortByY w0 w1 w2
  obtain ⟨a', b', d', hv, hvperm, hvsorted⟩ := exists_sortByY v0 v1 v2
  have hsame : [a, b, d] = [a', b', d'] :=
    List.Perm.eq_of_pairwise (fun v w hmv hmw hle hge =>
        List.inj_on_of_nodup_map hrows ((hwperm.trans hperm).subset hmv) (hvperm.subset hmw) (le_antisymm hle hge))
      hwsorted hvsorted ((hwperm.trans hperm).trans hvperm.symm)
  cases hsame
  rw [hw, hv]

/-- FTRI draws the runs of the sorted vertices, so it depends on its vertices through their sort alone. -/
theorem exec_ftri_congr {v0 v1 v2 w0 w1 w2 : Int × Int} (c : Byte) (s : State)
    (h : sortByY w0 w1 w2 = sortByY v0 v1 v2) :
    exec (.ftri w0.1 w0.2 w1.1 w1.2 w2.1 w2.2 c) s = exec (.ftri v0.1 v0.2 v1.1 v1.2 v2.1 v2.2 c) s := by
  have hspans : ftriSpans w0.1 w0.2 w1.1 w1.2 w2.1 w2.2 = ftriSpans v0.1 v0.2 v1.1 v1.2 v2.1 v2.2 := by
    rw [ftriSpans, ftriSpans, h]
  show execFtri .. = execFtri ..
  rw [execFtri, execFtri, ftriPixels, ftriPixels, hspans]

/-- Settles O34: with distinct rows, every order of the vertices is sorted to the same three. -/
theorem ftriVertexOrder : Obligations.FtriVertexOrder := by
  intro s v0 v1 v2 w0 w1 w2 c h01 h12 h02 hperm
  have hrows : ([v0, v1, v2].map Prod.snd).Nodup := by simp [h01, h12, h02]
  exact exec_ftri_congr c s (sortByY_eq_of_perm hperm hrows)

end Sys2Proof.Machine

namespace Sys2Proof.Machine

/-! ## R150's loop, its accumulators put in closed form -/

/-- The point of row `py` midway between the columns `px - 1` and `px` is outside the circle of radius `r`, doubled to be
a statement about integers: R150's test, with `py` the row it steps to (`circleFrom_succ`). -/
abbrev MidpointOutside (r px py : Int) : Prop :=
  2 * (r * r) < px * px + (px - 1) * (px - 1) + 2 * (py * py)

/-- The column the loop steps to with the next row. -/
def nextColumn (r px py : Int) : Int :=
  if MidpointOutside r px (py + 1) then px - 1 else px

/-- R150's loop at `(px, py)`, where `dx = 1 - 2*px`, `dy = 2*py + 1` and `err = px^2 + py^2 - r^2`. -/
def circleFrom (r : Int) (n : Nat) (px py : Int) : List (Int × Int) :=
  circleSteps n px py (1 - 2 * px) (2 * py + 1) (px * px + py * py - r * r)

@[simp] theorem circleFrom_zero (r px py : Int) : circleFrom r 0 px py = [] := rfl

/-- One pass: the three accumulators keep their closed forms, and the decision is the midpoint test of the next row. -/
theorem circleFrom_succ (r : Int) (n : Nat) (px py : Int) :
    circleFrom r (n + 1) px py =
      if px < py then [] else (px, py) :: circleFrom r n (nextColumn r px py) (py + 1) := by
  have htest : 2 * (px * px + py * py - r * r + (2 * py + 1)) + (1 - 2 * px) > 0 ↔ MidpointOutside r px (py + 1) := by
    constructor <;> intro h <;> linarith only [h]
  rw [circleFrom, circleSteps]
  congr 2
  simp only [htest, nextColumn, circleFrom]
  split <;> congr 1 <;> ring

theorem circlePairs_eq_circleFrom (r : Int) : circlePairs r = circleFrom r (r + 1).toNat r 0 := by
  rw [circlePairs, circleFrom]
  congr 1
  ring

theorem circleFrom_length_le (r : Int) (n : Nat) (px py : Int) : (circleFrom r n px py).length ≤ n := by
  induction n generalizing px py with
  | zero => rw [circleFrom_zero, List.length_nil]
  | succ n ih =>
    rw [circleFrom_succ]
    split
    · exact Nat.zero_le _
    · exact Nat.succ_le_succ (ih _ _)

/-- The passes are on consecutive rows. -/
theorem map_snd_circleFrom (r : Int) (n : Nat) (px py : Int) :
    (circleFrom r n px py).map Prod.snd =
      (List.range (circleFrom r n px py).length).map (fun i => py + Int.ofNat i) := by
  induction n generalizing px py with
  | zero => rfl
  | succ n ih =>
    rw [circleFrom_succ]
    split
    · rfl
    · rw [List.map_cons, ih, List.length_cons, List.range_succ_eq_map, List.map_cons, List.map_map]
      simp [Function.comp_def, add_assoc, add_comm (1 : Int)]

/-! ## The columns of the passes (R150) -/

/-- A midpoint further out, to the right or up, is outside too. -/
theorem MidpointOutside.mono {r px py qx qy : Int} (h : MidpointOutside r px py) (hpx : 0 ≤ px) (hx : px ≤ qx)
    (hpy : 0 ≤ py) (hy : py ≤ qy) : MidpointOutside r qx qy := by
  have hrow : py * py ≤ qy * qy := mul_self_le_mul_self hpy hy
  have hcol : px * (px - 1) ≤ qx * (qx - 1) := by
    obtain rfl | hlt := hx.eq_or_lt
    · rfl
    · nlinarith only [hpx, hlt]
  linarith only [h, hrow, hcol]

/-- `px` is the largest column of row `py` whose midpoint to the left is not outside. -/
abbrev IsMidpointColumn (r px py : Int) : Prop :=
  ¬ MidpointOutside r px py ∧ MidpointOutside r (px + 1) py

/-- The columns only fall from row to row: where the midpoint right of `px` is outside, the rows from there on have no
column beyond `px`. -/
theorem IsMidpointColumn.le_of_row_le {r a b px py : Int} (ha : IsMidpointColumn r a b)
    (hout : MidpointOutside r (px + 1) py) (hpx : 0 ≤ px + 1) (hpy : 0 ≤ py) (hrow : py ≤ b) : a ≤ px :=
  not_lt.1 fun hlt => ha.1 (hout.mono hpx hlt hpy hrow)

/-- A row has one such column. -/
theorem IsMidpointColumn.eq {r a px py : Int} (ha : IsMidpointColumn r a py) (hp : IsMidpointColumn r px py)
    (ha0 : 0 ≤ a + 1) (hp0 : 0 ≤ px + 1) (hpy : 0 ≤ py) : a = px :=
  le_antisymm (ha.le_of_row_le hp.2 hp0 hpy le_rfl) (hp.le_of_row_le ha.2 ha0 hpy le_rfl)

theorem nextColumn_bounds (r px py : Int) : px - 1 ≤ nextColumn r px py ∧ nextColumn r px py ≤ px := by
  unfold nextColumn
  split <;> omega

theorem nextColumn_outside {r px py : Int} (hout : MidpointOutside r (px + 1) py) (hpx : 0 ≤ px) (hpy : 0 ≤ py) :
    MidpointOutside r (nextColumn r px py + 1) (py + 1) := by
  unfold nextColumn
  split
  · next h => rwa [sub_add_cancel]
  · exact hout.mono (by omega) le_rfl hpy (by omega)

/-- One column to the left is enough for the next row, as long as the loop goes on there: above the diagonal the circle
falls by less than a column a row. -/
theorem nextColumn_not_outside {r px py : Int} (hin : ¬ MidpointOutside r px py)
    (hnext : py + 1 ≤ nextColumn r px py) : ¬ MidpointOutside r (nextColumn r px py) (py + 1) := by
  unfold nextColumn at hnext ⊢
  split at hnext
  · next h =>
    rw [if_pos h]
    intro hout
    linarith only [hin, hout, hnext]
  · next h => rwa [if_neg h]

/-- Past the diagonal there is no pass left. -/
theorem not_isMidpointColumn_of_lt {r px py a b : Int} (hlt : px < py) (hpx : 0 ≤ px + 1) (hpy : 0 ≤ py)
    (hout : MidpointOutside r (px + 1) py) : ¬ (py ≤ b ∧ b ≤ a ∧ IsMidpointColumn r a b) := by
  rintro ⟨hrow, hba, hcol⟩
  have hle : a ≤ px := hcol.le_of_row_le hout hpx hpy hrow
  omega

/-- The loop from a right column on emits the right column of each row from there on, down to the diagonal. -/
theorem mem_circleFrom {r : Int} {n : Nat} {px py a b : Int} (hfuel : px - py < n) (hpx : 0 ≤ px + 1) (hpy : 0 ≤ py)
    (hin : py ≤ px → ¬ MidpointOutside r px py) (hout : MidpointOutside r (px + 1) py) :
    (a, b) ∈ circleFrom r n px py ↔ py ≤ b ∧ b ≤ a ∧ IsMidpointColumn r a b := by
  induction n generalizing px py with
  | zero => exact iff_of_false List.not_mem_nil (not_isMidpointColumn_of_lt (by omega) hpx hpy hout)
  | succ n ih =>
    rw [circleFrom_succ]
    split
    · next hlt => exact iff_of_false List.not_mem_nil (not_isMidpointColumn_of_lt hlt hpx hpy hout)
    · next hge =>
      have hcol : IsMidpointColumn r px py := ⟨hin (not_lt.1 hge), hout⟩
      have hnext := nextColumn_bounds r px py
      have hrest := ih (px := nextColumn r px py) (py := py + 1) (by omega) (by omega) (by omega)
        (nextColumn_not_outside hcol.1) (nextColumn_outside hout (by omega) hpy)
      rw [List.mem_cons, hrest, Prod.mk.injEq]
      constructor
      · rintro (⟨rfl, rfl⟩ | ⟨hrow, hba, hab⟩)
        · exact ⟨le_rfl, not_lt.1 hge, hcol⟩
        · exact ⟨by omega, hba, hab⟩
      · rintro ⟨hrow, hba, hab⟩
        obtain rfl | hlt := hrow.eq_or_lt
        · exact .inl ⟨hab.eq hcol (by omega) hpx hpy, rfl⟩
        · exact .inr ⟨hlt, hba, hab⟩

/-- The pairs of a positive radius: from the column `r` of row 0 on. -/
theorem mem_circlePairs {r px py : Int} (hr : 1 ≤ r) :
    (px, py) ∈ circlePairs r ↔ 0 ≤ py ∧ py ≤ px ∧ IsMidpointColumn r px py := by
  rw [circlePairs_eq_circleFrom]
  refine mem_circleFrom (by omega) (by omega) le_rfl (fun _ hout => ?_) ?_
  · linarith only [hr, hout]
  · show 2 * (r * r) < _
    linarith only [hr]

theorem circlePairs_zero : circlePairs 0 = [(0, 0)] := by decide

theorem circlePairs_neg {r : Int} (hr : r < 0) : circlePairs r = [] := by
  rw [circlePairs_eq_circleFrom, Int.toNat_of_nonpos (by omega), circleFrom_zero]

/-- The pairs of any radius. The radius 0 is apart: its one midpoint is outside, yet the loop emits before it tests. -/
theorem mem_circlePairs_iff {r px py : Int} :
    (px, py) ∈ circlePairs r ↔
      (r = 0 ∧ px = 0 ∧ py = 0) ∨ (1 ≤ r ∧ 0 ≤ py ∧ py ≤ px ∧ IsMidpointColumn r px py) := by
  obtain hneg | rfl | hpos := lt_trichotomy r 0
  · rw [circlePairs_neg hneg]
    refine iff_of_false List.not_mem_nil ?_
    omega
  · simp [circlePairs_zero]
  · rw [mem_circlePairs hpos]
    refine ⟨fun h => .inr ⟨hpos, h⟩, ?_⟩
    rintro (⟨rfl, _⟩ | ⟨_, h⟩)
    · exact absurd hpos (lt_irrefl 0)
    · exact h

/-- Settles O35: the loop with its accumulators in closed form, from the column `r` of row 0 on. -/
theorem circlePairsMidpoint : Obligations.CirclePairsMidpoint := by
  intro r
  refine ⟨fun px py => ?_, ?_, ?_⟩
  · simp only [mem_circlePairs_iff, IsMidpointColumn, MidpointOutside, not_lt, add_sub_cancel_right]
  · rw [circlePairs_eq_circleFrom, map_snd_circleFrom]
    simp only [zero_add]
  · have hlen := circleFrom_length_le r (r + 1).toNat r 0
    rw [circlePairs_eq_circleFrom]
    omega

/-! ## The pixels of CIRC and FCIRC (R151 to R153) -/

theorem circlePairs_ordered {r : Int} {q : Int × Int} (hq : q ∈ circlePairs r) : 0 ≤ q.2 ∧ q.2 ≤ q.1 := by
  obtain ⟨_, hx, hy⟩ | ⟨_, hy, hyx, _⟩ := mem_circlePairs_iff.1 hq
  · omega
  · exact ⟨hy, hyx⟩

/-- The eight points are those at the distances `a` and `b`, in either order, from the centre's column and row
(R151). -/
theorem mem_circlePoints {xc yc a b px py : Int} (ha : 0 ≤ a) (hb : 0 ≤ b) :
    (px, py) ∈ circlePoints xc yc a b ↔
      (|px - xc| = a ∧ |py - yc| = b) ∨ (|px - xc| = b ∧ |py - yc| = a) := by
  simp only [circlePoints, List.mem_cons, List.not_mem_nil, Prod.mk.injEq, abs_eq ha, abs_eq hb, sub_eq_iff_eq_add',
    ← sub_eq_add_neg, or_false, and_or_left, or_and_right, or_assoc]

/-- A pixel CIRC writes: on the canvas and one of the eight points of a pass (R151). -/
theorem mem_circPixels {p : Config} {x y r px py : Int} :
    (px, py) ∈ circPixels p x y r ↔ InCanvas p px py ∧ OnCircle r (px - x) (py - y) := by
  have hpass : ∀ q ∈ circlePairs r, (px, py) ∈ circlePoints x y q.1 q.2 ↔
      (|px - x| = q.1 ∧ |py - y| = q.2) ∨ (|px - x| = q.2 ∧ |py - y| = q.1) := fun q hq =>
    have ⟨h2, h21⟩ := circlePairs_ordered hq
    mem_circlePoints (h2.trans h21) h2
  simp only [circPixels, OnCircle, List.mem_flatMap, List.mem_filter, decide_eq_true_eq]
  constructor
  · rintro ⟨q, hq, hmem, hc⟩
    exact ⟨hc, q, hq, (hpass q hq).1 hmem⟩
  · rintro ⟨hc, q, hq, h⟩
    exact ⟨q, hq, (hpass q hq).2 h, hc⟩

/-- Two runs of `2*a + 1` pixels centred on `xc`, one on either side of row `yc` (R152). -/
theorem mem_centred_hlinePixels {p : Config} {xc yc a b px py : Int} (hb : 0 ≤ b) :
    ((px, py) ∈ hlinePixels p (xc - a) (yc + b) (2 * a + 1) ∨
        (px, py) ∈ hlinePixels p (xc - a) (yc - b) (2 * a + 1)) ↔
      InCanvas p px py ∧ |py - yc| = b ∧ |px - xc| ≤ a := by
  rw [mem_hlinePixels, mem_hlinePixels, ← and_or_left, abs_eq hb, abs_le]
  refine and_congr_right fun _ => ?_
  omega

/-- A pixel FCIRC writes: on the canvas and in R153's set. -/
theorem mem_fcircPixels {p : Config} {x y r px py : Int} :
    (px, py) ∈ fcircPixels p x y r ↔ InCanvas p px py ∧ InFilledCircle r (px - x) (py - y) := by
  simp only [fcircPixels, InFilledCircle, List.mem_flatMap, List.mem_append, ← exists_and_left, or_assoc]
  refine exists_congr fun q => ?_
  rw [and_left_comm]
  refine and_congr_right fun hq => ?_
  obtain ⟨h2, h21⟩ := circlePairs_ordered hq
  rw [← or_assoc, mem_centred_hlinePixels h2, mem_centred_hlinePixels (h2.trans h21), and_or_left]

/-- Settles O36: the two pixel lists hold exactly the pixels of the shape that are on the canvas. -/
theorem circFcircDraw : Obligations.CircFcircDraw := fun _ _ _ _ _ hs =>
  ⟨drawPixels_shape hs.drawable fun _ _ => mem_circPixels, drawPixels_shape hs.drawable fun _ _ => mem_fcircPixels⟩

/-! ## R153's bound -/

/-- The midpoint left of `px` is not outside, so `px^2 + py^2` is at most `r^2 + px`, and `px` at most `r`. -/
theorem circlePairs_norm_le {r : Int} {q : Int × Int} (hq : q ∈ circlePairs r) :
    q.1 * q.1 + q.2 * q.2 ≤ r * r + r := by
  obtain ⟨rfl, hx, hy⟩ | ⟨hr, -, -, hcol⟩ := mem_circlePairs_iff.1 hq
  · simp [hx, hy]
  · have hin := not_lt.1 hcol.1
    have hle : q.1 ≤ r := by
      by_contra! hlt
      nlinarith only [hin, hlt, hr]
    linarith only [hin, hle]

theorem mul_self_add_le_of_abs_le {u v a b : Int} (hu : |u| ≤ a) (hv : |v| ≤ b) : u * u + v * v ≤ a * a + b * b :=
  add_le_add (abs_le_iff_mul_self_le.1 (hu.trans (le_abs_self a))) (abs_le_iff_mul_self_le.1 (hv.trans (le_abs_self b)))

/-- Every pixel of R153's set is no further out than the corner of its run. -/
theorem inFilledCircle_norm_le {r u v : Int} (h : InFilledCircle r u v) : u * u + v * v ≤ r * r + r := by
  obtain ⟨q, hq, ⟨hv, hu⟩ | ⟨hv, hu⟩⟩ := h
  · exact (mul_self_add_le_of_abs_le hu hv.le).trans (circlePairs_norm_le hq)
  · exact (add_comm _ _).trans_le ((mul_self_add_le_of_abs_le hv.le hu).trans (circlePairs_norm_le hq))

theorem circlePairs_four : circlePairs 4 = [(4, 0), (4, 1), (3, 2), (3, 3)] := by decide

/-- Settles O37: the bound is that of the pairs; at radius 4 no run of rows 2 and 4 reaches the eight offsets. -/
theorem fcircInsideDisc : Obligations.FcircInsideDisc := by
  refine ⟨fun r u v => inFilledCircle_norm_le, fun u v huv => ⟨?_, ?_⟩⟩
  · obtain ⟨hu, hv⟩ | ⟨hu, hv⟩ := huv <;> exact mul_self_add_le_of_abs_le hu.le hv.le
  · rw [InFilledCircle, circlePairs_four]
    simp only [List.exists_mem_cons_iff]
    obtain ⟨hu, hv⟩ | ⟨hu, hv⟩ := huv <;> simp [hu, hv]

end Sys2Proof.Machine

namespace Sys2Proof.Machine

/-! ## Blits that end (R161 to R163) -/

/-- The visible pixels of a blit in the order of its loops, none where `BlitClip` answers NOTHING (R161, R164). -/
def visiblePixels (p : Config) (x y w h : Int) : List (Int × Int) :=
  (blitClip p x y w h).elim [] boxPixels

theorem mem_visiblePixels {p : Config} {x y w h px py : Int} :
    (px, py) ∈ visiblePixels p x y w h ↔ Visible p x y w h px py := by
  cases hk : blitClip p x y w h with
  | none =>
    rw [visiblePixels, hk, Option.elim_none]
    exact iff_of_false List.not_mem_nil (not_visible_of_blitClip_none hk px py)
  | some k =>
    rw [visiblePixels, hk, Option.elim_some]
    exact mem_boxPixels hk px py

theorem visiblePixels_pairwise (p : Config) (x y w h : Int) : (visiblePixels p x y w h).Pairwise PairBefore := by
  unfold visiblePixels
  cases blitClip p x y w h with
  | none => exact List.Pairwise.nil
  | some k => exact boxPixels_pairwise k

/-- The common form of the three copies, a loop over the box of `BlitClip` if any, is a walk over the visible pixels. -/
theorem eq_runEach_visiblePixels {s : State} {x y w h : Int} {stride addr : Nat}
    {body : Int → Int → Int → State → Run} {o : Out} (hnone : blitClip s.cfg x y w h = none → o = .next s)
    (hsome : ∀ k, blitClip s.cfg x y w h = some k → o = (blitLoop k addr stride body s).outcome) :
    o = (runEach (fun q => body q.1 q.2 (blitAddr x y stride addr q.1 q.2)) (visiblePixels s.cfg x y w h)
      s).outcome := by
  cases hk : blitClip s.cfg x y w h with
  | none => rw [hnone hk, visiblePixels, hk, Option.elim_none, runEach_nil, Run.outcome_ok]
  | some k => rw [hsome k hk, visiblePixels, hk, Option.elim_some, blitLoop_eq_runEach hk]

section
variable (s : State) (x y w h : Int) (stride addr : Nat)

theorem exec_blit_eq_runEach :
    exec (.blit x y w h stride addr) s =
      (runEach (fun q => blitPixel q.1 q.2 (blitAddr x y stride addr q.1 q.2)) (visiblePixels s.cfg x y w h)
        s).outcome :=
  eq_runEach_visiblePixels
    (fun hk => show execBlit x y w h stride addr s = .next s by rw [execBlit, hk])
    fun _ hk => exec_blit_of_clip hk stride addr

theorem exec_blitk_eq_runEach (key : Byte) :
    exec (.blitk x y w h stride addr key) s =
      (runEach (fun q => blitkPixel key q.1 q.2 (blitAddr x y stride addr q.1 q.2)) (visiblePixels s.cfg x y w h)
        s).outcome :=
  eq_runEach_visiblePixels
    (fun hk => show execBlitk x y w h stride addr key s = .next s by rw [execBlitk, hk])
    fun _ hk => exec_blitk_of_clip hk stride addr key

theorem exec_grab_eq_runEach :
    exec (.grab x y w h stride addr) s =
      (runEach (fun q => grabPixel q.1 q.2 (blitAddr x y stride addr q.1 q.2)) (visiblePixels s.cfg x y w h)
        s).outcome :=
  eq_runEach_visiblePixels
    (fun hk => show execGrab x y w h stride addr s = .next s by rw [execGrab, hk])
    fun _ hk => exec_grab_of_clip hk stride addr

end

section
variable {s : State} {x y w h : Int} {stride addr : Nat}

/-- Where every visible byte may be accessed, passes that each draw at most their own pixel draw over the rectangle. -/
theorem runEach_visiblePixels_draws {body : Int → Int → Int → State → Run} {V : Int → Byte → Prop} (hs : Drawable s)
    (hacc : BlitAccessible s x y w h stride addr)
    (hdraw : ∀ px py a t, Drawable t → SameBut s t → InCanvas t.cfg px py → Accessible t.cfg a →
      ∃ u, body px py a t = .ok u ∧ Drawable u ∧ Draws (fun qx qy v => (qx, qy) = (px, py) ∧ V a v) t u) :
    ∃ u, (runEach (fun q => body q.1 q.2 (blitAddr x y stride addr q.1 q.2)) (visiblePixels s.cfg x y w h)
        s).outcome = .next u ∧
      Draws (fun px py v => InRect x y w h px py ∧ V (blitAddr x y stride addr px py) v) s u := by
  obtain ⟨u, hrun, -, hd⟩ := runEach_draws (l := visiblePixels s.cfg x y w h)
    (body := fun (q : Int × Int) => body q.1 q.2 (blitAddr x y stride addr q.1 q.2))
    (P := fun px py v => V (blitAddr x y stride addr px py) v) hs (by
      rintro ⟨px, py⟩ hq t ht hsame
      have hv := mem_visiblePixels.1 hq
      obtain ⟨u, hu, hud, hd⟩ := hdraw px py (blitAddr x y stride addr px py) t ht hsame
        (by rw [hsame.cfg]; exact hv.1) (by rw [hsame.cfg]; exact hacc px py hv)
      refine ⟨u, hu, hud, hd.congr fun qx qy v _ => and_congr_right fun he => ?_⟩
      cases he
      rfl)
  refine ⟨u, by rw [hrun, Run.outcome_ok], hd.congr fun px py v hc => and_congr_left fun _ => ?_⟩
  rw [mem_visiblePixels]
  exact and_iff_right hc

/-- BLIT with readable bytes draws them on the visible pixels (R161). -/
theorem exec_blit_draws (hs : Drawable s) (hacc : BlitAccessible s x y w h stride addr) :
    ∃ t, exec (.blit x y w h stride addr) s = .next t ∧
      Draws (fun px py v => InRect x y w h px py ∧ v = memByte s (blitAddr x y stride addr px py)) s t := by
  rw [exec_blit_eq_runEach]
  refine runEach_visiblePixels_draws (V := fun a v => v = memByte s a) hs hacc fun px py a t ht hsame hc ha => ?_
  rw [← memByte_sameBut hsame]
  exact blitPixel_spec ht hc ha

/-- BLITK with readable bytes draws those that are not the key (R162). -/
theorem exec_blitk_draws (key : Byte) (hs : Drawable s) (hacc : BlitAccessible s x y w h stride addr) :
    ∃ t, exec (.blitk x y w h stride addr key) s = .next t ∧
      Draws (fun px py v => InRect x y w h px py ∧ v = memByte s (blitAddr x y stride addr px py) ∧ v ≠ key) s t := by
  rw [exec_blitk_eq_runEach]
  refine runEach_visiblePixels_draws (V := fun a v => v = memByte s a ∧ v ≠ key) hs hacc
    fun px py a t ht hsame hc ha => ?_
  rw [← memByte_sameBut hsame]
  exact blitkPixel_spec key ht hc ha

/-- GRAB with writable bytes stores the cells of the visible pixels in order (R163). -/
theorem exec_grab_stores (hacc : BlitAccessible s x y w h stride addr) :
    exec (.grab x y w h stride addr) s =
      .next (storeAll ((visiblePixels s.cfg x y w h).map (grabCell s x y stride addr)) s) := by
  have hrun := runEach_grabPixel (s := s) (x := x) (y := y) (stride := stride) (addr := addr)
    (l := visiblePixels s.cfg x y w h) (fun q hq => (mem_visiblePixels.1 hq).1)
    (fun q hq => hacc q.1 q.2 (mem_visiblePixels.1 hq)) []
  rw [List.nil_append, storeAll_nil] at hrun
  rw [exec_grab_eq_runEach, hrun, Run.outcome_ok]

end

/-- Settles O38: the walk over the visible pixels draws, pass by pass, what each reads. -/
theorem blitsDraw : Obligations.BlitsDraw := fun _ _ _ _ _ _ _ key hs hacc =>
  ⟨exec_blit_draws hs.drawable hacc, exec_blitk_draws key hs.drawable hacc⟩

/-- Settles O40: GRAB stores the visible pixels in row-major order, so the last store to an address stays. -/
theorem grabCopies : Obligations.GrabCopies := by
  intro s x y w h stride addr hs hacc
  obtain ⟨-, -, -, -, -, hwf, -⟩ := hs
  have ha : ∀ q ∈ visiblePixels s.cfg x y w h, Accessible s.cfg (blitAddr x y stride addr q.1 q.2) :=
    fun q hq => hacc q.1 q.2 (mem_visiblePixels.1 hq)
  refine ⟨_, exec_grab_stores hacc, by rw [storeAll_eq], fun px py hv hlast => ?_, fun a hne => ?_⟩
  · exact memByte_storeAll_grabCell hwf (visiblePixels_pairwise _ x y w h) (fun q hq => (mem_visiblePixels.1 hq).1) ha
      (mem_visiblePixels.2 hv) fun q' hq' => hlast q'.1 q'.2 (mem_visiblePixels.1 hq')
  · exact read_storeAll_grabCell_other ha a fun q hq => hne q.1 q.2 (mem_visiblePixels.1 hq)

/-! ## BLIT of what GRAB saved (R163) -/

/-- Rows that do not overlap give each pixel of the rectangle its own address (R160, log 23). -/
theorem blitAddr_inj {x y w h px py px' py' : Int} {stride addr : Nat} (hw : w ≤ stride)
    (hr : InRect x y w h px py) (hr' : InRect x y w h px' py')
    (he : blitAddr x y stride addr px py = blitAddr x y stride addr px' py') : px = px' ∧ py = py' := by
  obtain ⟨hl, hlt, -⟩ := hr
  obtain ⟨hl', hlt', -⟩ := hr'
  unfold blitAddr at he
  have hinj := rowMajor_inj (w := stride) (x := px - x) (y := py - y) (x' := px' - x) (y' := py' - y)
    (by omega) (by omega) (by omega) (by omega) (by omega)
  omega

/-- Drawing on every pixel the value it holds leaves every pixel as it was. -/
theorem Draws.canvasRead_eq {W : Int → Int → Byte → Prop} {s t : State} (h : Draws W s t)
    (hW : ∀ x y v, InCanvas s.cfg x y → W x y v → canvasRead x y s = some v) (x y : Int) :
    canvasRead x y t = canvasRead x y s := by
  by_cases hc : InCanvas s.cfg x y
  · obtain ⟨-, hwrites, hkeeps, -⟩ := h
    by_cases hv : ∃ v, W x y v
    · obtain ⟨v, hv⟩ := hv
      rw [hwrites x y v hc hv, hW x y v hc hv]
    · exact hkeeps x y (not_exists.1 hv)
  · rw [canvasRead_of_not_inCanvas hc, canvasRead_of_not_inCanvas (by rw [h.cfg_eq]; exact hc)]

/-- Settles O41: each pixel has its own address, so BLIT draws on each visible pixel the byte GRAB took from it. -/
theorem grabThenBlitRestores : Obligations.GrabThenBlitRestores := by
  intro s x y w h stride addr hs hacc hw
  obtain ⟨t, hgrab, ht, hbytes, -⟩ := grabCopies s x y w h stride addr hs hacc
  have hcfg : t.cfg = s.cfg := by rw [ht]
  have hread : ∀ px py, canvasRead px py t = canvasRead px py s :=
    canvasRead_congr hcfg (by rw [ht]) (by rw [ht]) (by rw [ht])
  have hdirty : ∀ y' b, dirtyFlag y' b t = dirtyFlag y' b s := dirtyFlag_congr hcfg (by rw [ht])
  have hdrawable : Drawable t := by rw [ht]; exact hs.drawable
  have hacct : BlitAccessible t x y w h stride addr := by unfold BlitAccessible; rw [hcfg]; exact hacc
  obtain ⟨u, hblit, hd⟩ := exec_blit_draws hdrawable hacct
  refine ⟨t, u, hgrab, hblit, hd.1, fun px py => ?_, fun y' b hy' hb => ?_⟩
  · rw [← hread]
    refine hd.canvasRead_eq (fun px py v hc hv => ?_) px py
    obtain ⟨hr, rfl⟩ := hv
    rw [hcfg] at hc
    rw [hread]
    refine hbytes px py ⟨hc, hr⟩ fun px' py' hv' hbefore he => ?_
    have := blitAddr_inj hw hv'.2 hr he
    omega
  · obtain ⟨-, -, -, hflags⟩ := hd
    rw [hcfg] at hflags
    rw [hflags y' b hy' hb, hdirty]
    refine or_congr_right ⟨?_, ?_⟩
    · rintro ⟨px, -, hc, hband, hr, -⟩
      exact ⟨px, ⟨hc, hr⟩, hband⟩
    · rintro ⟨px, ⟨hc, hr⟩, hband⟩
      exact ⟨px, _, hc, hband, hr, rfl⟩

end Sys2Proof.Machine

namespace Sys2Proof.Machine

/-! ## The angle of XFORM (R172, R173) -/

theorem sinQ_congr {a b : Int} (h : a % 360 = b % 360) : sinQ a = sinQ b := by
  rw [sinQ, sinQ, h]

theorem cosQ_congr {a b : Int} (h : a % 360 = b % 360) : cosQ a = cosQ b :=
  sinQ_congr (by omega)

/-- R173's folding: the angle is, up to whole turns, `d` or `180 - d` with `d` in the table's range. The angles of the
lower half turn are those whose opposite folds. -/
def FoldsTo (a : Int) (d : Nat) : Prop :=
  d ≤ 90 ∧ (a % 360 = d ∨ (180 - a) % 360 = d)

theorem exists_foldsTo (a : Int) : ∃ d, FoldsTo a d ∨ FoldsTo (-a) d := by
  unfold FoldsTo
  by_cases h90 : a % 360 ≤ 90
  · exact ⟨(a % 360).toNat, by omega⟩
  by_cases h180 : a % 360 ≤ 180
  · exact ⟨((180 - a) % 360).toNat, by omega⟩
  by_cases h270 : a % 360 ≤ 270
  · exact ⟨((180 + a) % 360).toNat, by omega⟩
  · exact ⟨(-a % 360).toNat, by omega⟩

theorem FoldsTo.half_turn_sub {a : Int} {d : Nat} (h : FoldsTo a d) : FoldsTo (180 - a) d := by
  unfold FoldsTo at *
  omega

/-- The two upper quadrants of R173. -/
theorem sinQ_of_foldsTo {a : Int} {d : Nat} (h : FoldsTo a d) : sinQ a = trig d := by
  unfold FoldsTo at h
  simp only [sinQ]
  split_ifs
  · exact congrArg trig (by omega)
  · exact congrArg trig (by omega)
  · omega
  · omega

/-- The two lower quadrants of R173. -/
theorem sinQ_of_foldsTo_neg {a : Int} {d : Nat} (h : FoldsTo (-a) d) : sinQ a = -trig d := by
  by_cases hd : d = 0
  · subst hd
    exact sinQ_of_foldsTo (d := 0) (by unfold FoldsTo at *; omega)
  unfold FoldsTo at h
  simp only [sinQ]
  split_ifs
  · omega
  · omega
  · exact congrArg (fun k => -trig k) (by omega)
  · exact congrArg (fun k => -trig k) (by omega)

theorem sinQ_neg (a : Int) : sinQ (-a) = -sinQ a := by
  obtain ⟨d, h | h⟩ := exists_foldsTo a
  · rw [sinQ_of_foldsTo h, sinQ_of_foldsTo_neg (by rwa [neg_neg])]
  · rw [sinQ_of_foldsTo h, sinQ_of_foldsTo_neg h, neg_neg]

theorem sinQ_half_turn_sub (a : Int) : sinQ (180 - a) = sinQ a := by
  obtain ⟨d, h | h⟩ := exists_foldsTo a
  · rw [sinQ_of_foldsTo h, sinQ_of_foldsTo h.half_turn_sub]
  · rw [sinQ_of_foldsTo_neg h, sinQ_of_foldsTo_neg (d := d) (by unfold FoldsTo at *; omega)]

theorem trig_eq_zero_iff {d : Nat} (h : d ≤ 90) : trig d = 0 ↔ d = 0 := by
  revert d
  decide

theorem sinQ_eq_zero_iff (a : Int) : sinQ a = 0 ↔ a % 180 = 0 := by
  obtain ⟨d, h | h⟩ := exists_foldsTo a
  · rw [sinQ_of_foldsTo h, trig_eq_zero_iff h.1]
    unfold FoldsTo at h
    omega
  · rw [sinQ_of_foldsTo_neg h, neg_eq_zero, trig_eq_zero_iff h.1]
    unfold FoldsTo at h
    omega

/-- Sine and cosine are not both 0: their zeros are a quarter turn apart. -/
theorem cosQ_ne_zero_or_sinQ_ne_zero (a : Int) : cosQ a ≠ 0 ∨ sinQ a ≠ 0 := by
  rw [cosQ, Ne, Ne, sinQ_eq_zero_iff, sinQ_eq_zero_iff]
  omega

/-! ## XFORM's sides and source coordinates (R174, R175) -/

theorem ceilDiv_bounds (a : Int) {b : Int} (hb : 0 < b) : a ≤ b * ceilDiv a b ∧ b * (ceilDiv a b - 1) < a := by
  have hle := Int.mul_ediv_self_le (x := -a) hb.ne'
  have hlt := Int.lt_mul_ediv_self_add (x := -a) hb
  unfold ceilDiv
  constructor <;> linarith

/-- A side is determined by R174's bounds. -/
theorem xformSide_bounds (a b f g : Int) :
    a * |f| + b * |g| ≤ 2 ^ 23 * xformSide a b f g ∧ 2 ^ 23 * (xformSide a b f g - 1) < a * |f| + b * |g| := by
  rw [← Int.natCast_natAbs, ← Int.natCast_natAbs]
  exact ceilDiv_bounds _ (by decide)

/-- Where the rotated extent is a whole number of pixels it is the side. -/
theorem xformSide_of_eq {a b f g n : Int} (h : a * |f| + b * |g| = 2 ^ 23 * n) : xformSide a b f g = n := by
  have hbounds := xformSide_bounds a b f g
  rw [h] at hbounds
  omega

theorem one_le_xformSide {a b f g : Int} (ha : 1 ≤ a) (hb : 1 ≤ b) (h : f ≠ 0 ∨ g ≠ 0) : 1 ≤ xformSide a b f g := by
  have hpos : 0 < a * |f| + b * |g| := by
    obtain h | h := h
    · have := abs_pos.2 h
      positivity
    · have := abs_pos.2 h
      positivity
  have := (xformSide_bounds a b f g).1
  omega

/-- A source coordinate is determined by the bounds of R175's division. -/
theorem xformCoord_eq_iff {u side c : Int} {scale : Nat} (h : 1 ≤ scale) :
    xformCoord u scale side = c ↔ 512 * scale * c ≤ 2 * u + 256 * scale * side ∧
      2 * u + 256 * scale * side < 512 * scale * (c + 1) := by
  have hpos : (0 : Int) < 512 * scale := by omega
  rw [xformCoord, le_antisymm_iff, ← Int.lt_add_one_iff, Int.ediv_lt_iff_lt_mul hpos, Int.le_ediv_iff_mul_le hpos,
    and_comm, mul_comm c, mul_comm (c + 1)]

/-- Settles O42: the angle by its folding, the sides and the coordinates by the bounds that determine them. -/
theorem xformInverseMap : Obligations.XformInverseMap := by
  refine ⟨by decide, fun a => ⟨sinQ_half_turn_sub a, sinQ_neg a, sinQ_congr (by omega), rfl⟩, ?_⟩
  rintro sw sh ang sx sy - - hsx hsy cos sin rfl rfl
  refine ⟨?_, ?_, ?_⟩
  · rintro dw rfl
    exact xformSide_bounds _ _ _ _
  · rintro dh rfl
    exact xformSide_bounds _ _ _ _
  · rintro dw dh i j su sv un vn hq rfl rfl
    obtain ⟨hu, hv⟩ := Prod.mk.inj hq
    rw [xformCoord_eq_iff hsx] at hu
    rw [xformCoord_eq_iff hsy] at hv
    exact ⟨hu.1, hu.2, hv⟩

end Sys2Proof.Machine

namespace Sys2Proof.Machine

/-! ## Quarter turns (R176, R177) -/

theorem trig_whole_turn {a : Int} (h : a % 360 = 0) : cosQ a = 32768 ∧ sinQ a = 0 :=
  ⟨(cosQ_congr (b := 0) h).trans (by decide), (sinQ_congr (b := 0) h).trans (by decide)⟩

theorem trig_quarter_turn {a : Int} (h : a % 360 = 90) : cosQ a = 0 ∧ sinQ a = 32768 :=
  ⟨(cosQ_congr (b := 90) h).trans (by decide), (sinQ_congr (b := 90) h).trans (by decide)⟩

theorem trig_half_turn {a : Int} (h : a % 360 = 180) : cosQ a = -32768 ∧ sinQ a = 0 :=
  ⟨(cosQ_congr (b := 180) h).trans (by decide), (sinQ_congr (b := 180) h).trans (by decide)⟩

theorem trig_three_quarter_turn {a : Int} (h : a % 360 = 270) : cosQ a = 0 ∧ sinQ a = -32768 :=
  ⟨(cosQ_congr (b := 270) h).trans (by decide), (sinQ_congr (b := 270) h).trans (by decide)⟩

section
variable {sw sh ang cos sin : Int} {sx sy : Nat}

/-- On a multiple of a half turn the sides are the source sides scaled. -/
theorem xformSides_upright {dw dh : Int} (htrig : cosQ ang = cos ∧ sinQ ang = 0) (hcos : |cos| = 32768)
    (hdw : sw * sx = 256 * dw) (hdh : sh * sy = 256 * dh) :
    xformWidth sw sh sx sy ang = dw ∧ xformHeight sw sh sx sy ang = dh := by
  obtain ⟨rfl, hsin⟩ := htrig
  constructor <;> refine xformSide_of_eq ?_ <;> rw [hsin, hcos, hdw, hdh, abs_zero] <;> ring

/-- On an odd multiple of a quarter turn the scaled sides change places. -/
theorem xformSides_sideways {dw dh : Int} (htrig : cosQ ang = 0 ∧ sinQ ang = sin) (hsin : |sin| = 32768)
    (hdw : sh * sy = 256 * dw) (hdh : sw * sx = 256 * dh) :
    xformWidth sw sh sx sy ang = dw ∧ xformHeight sw sh sx sy ang = dh := by
  obtain ⟨hcos, rfl⟩ := htrig
  constructor <;> refine xformSide_of_eq ?_ <;> rw [hsin, hcos, hdw, hdh, abs_zero] <;> ring

/-- The source pixel of R175 from the bounds of its two coordinates, at an angle of known sine and cosine. -/
theorem xformSource_eq_of_bounds {dw dh su sv un vn : Int} {i j : Nat} (htrig : cosQ ang = cos ∧ sinQ ang = sin)
    (hsx : 1 ≤ sx) (hsy : 1 ≤ sy)
    (hun : un = (2 * i + 1 - dw) * cos + (2 * j + 1 - dh) * sin)
    (hvn : vn = -(2 * i + 1 - dw) * sin + (2 * j + 1 - dh) * cos)
    (hu : 512 * sx * su ≤ 2 * un + 256 * sx * sw ∧ 2 * un + 256 * sx * sw < 512 * sx * (su + 1))
    (hv : 512 * sy * sv ≤ 2 * vn + 256 * sy * sh ∧ 2 * vn + 256 * sy * sh < 512 * sy * (sv + 1)) :
    xformSource sw sh sx sy ang dw dh i j = (su, sv) := by
  obtain ⟨rfl, rfl⟩ := htrig
  subst hun hvn
  exact Prod.ext ((xformCoord_eq_iff hsx).2 hu) ((xformCoord_eq_iff hsy).2 hv)

end

/-- R176: at scale 1.0 and a whole turn the sides are the source's and each pixel is its own source. -/
theorem xform_whole_turn {ang : Int} (sw sh : Int) (h : ang % 360 = 0) :
    (xformWidth sw sh 256 256 ang = sw ∧ xformHeight sw sh 256 256 ang = sh) ∧
      ∀ i j : Nat, xformSource sw sh 256 256 ang sw sh i j = ((i : Int), (j : Int)) :=
  have htrig := trig_whole_turn h
  ⟨xformSides_upright htrig rfl (by omega) (by omega),
    fun i j => xformSource_eq_of_bounds htrig (by decide) (by decide) rfl rfl (by omega) (by omega)⟩

/-- Settles O46: at these angles one of sine and cosine is 0, the other 32768 or its opposite, so that the sides and the
source coordinates are exact. -/
theorem xformExactCases : Obligations.XformExactCases := by
  intro sw sh ang hsw hsh
  refine ⟨fun h => ?_, fun h => ?_, fun h => ?_, fun h => ?_⟩
  · have htrig := trig_half_turn h
    exact and_assoc.1 ⟨xformSides_upright htrig rfl (by omega) (by omega), fun i j =>
      xformSource_eq_of_bounds htrig (by decide) (by decide) rfl rfl (by omega) (by omega)⟩
  · have htrig := trig_quarter_turn h
    exact and_assoc.1 ⟨xformSides_sideways htrig rfl (by omega) (by omega), fun i j =>
      xformSource_eq_of_bounds htrig (by decide) (by decide) rfl rfl (by omega) (by omega)⟩
  · have htrig := trig_three_quarter_turn h
    exact and_assoc.1 ⟨xformSides_sideways htrig rfl (by omega) (by omega), fun i j =>
      xformSource_eq_of_bounds htrig (by decide) (by decide) rfl rfl (by omega) (by omega)⟩
  · have htrig := trig_whole_turn h
    exact and_assoc.1 ⟨xformSides_upright htrig rfl (by omega) (by omega), fun i j =>
      xformSource_eq_of_bounds htrig (by decide) (by decide) rfl rfl (by omega) (by omega)⟩

/-! ## XFORM's early ends (R175) -/

section
variable {ang ang' : Int} (h : ang % 360 = ang' % 360)
include h

theorem xformWidth_congr (sw sh : Int) (sx sy : Nat) : xformWidth sw sh sx sy ang = xformWidth sw sh sx sy ang' := by
  rw [xformWidth, xformWidth, sinQ_congr h, cosQ_congr h]

theorem xformHeight_congr (sw sh : Int) (sx sy : Nat) :
    xformHeight sw sh sx sy ang = xformHeight sw sh sx sy ang' := by
  rw [xformHeight, xformHeight, sinQ_congr h, cosQ_congr h]

theorem xformSource_congr (sw sh : Int) (sx sy : Nat) :
    xformSource sw sh sx sy ang = xformSource sw sh sx sy ang' := by
  funext dw dh i j
  rw [xformSource, xformSource, xformU, xformU, xformV, xformV, sinQ_congr h, cosQ_congr h]

/-- XFORM sees of its angle only the sine and the cosine, so only the angle modulo 360 (R173). -/
theorem execXform_congr (src : Nat) (sw sh : Int) (ss sx sy dst : Nat) (bg : Byte) (s : State) :
    execXform src sw sh ss sx sy ang dst bg s = execXform src sw sh ss sx sy ang' dst bg s := by
  unfold execXform xformLoop
  rw [xformWidth_congr h, xformHeight_congr h, xformSource_congr h]

end

theorem exec_xform (src : Nat) (sw sh : Int) (ss sx sy : Nat) (ang : Int) (dst : Nat) (bg : Byte) (s : State) :
    exec (.xform src sw sh ss sx sy ang dst bg) s = execXform src sw sh ss sx sy ang dst bg s := rfl

/-- Settles O47: the two tests before the loops; a side is at least 1 since sine and cosine are not both 0. -/
theorem xformEarlyEnds : Obligations.XformEarlyEnds := by
  intro s src sw sh ss sx sy ang dst bg
  refine ⟨fun hempty => ?_, fun hsw hsh hsx hsy => ?_, fun n => ?_⟩
  · rw [exec_xform, execXform, if_pos hempty]
  · have hx : 1 ≤ sw * sx := Int.mul_pos hsw (by omega)
    have hy : 1 ≤ sh * sy := Int.mul_pos hsh (by omega)
    have htrig := cosQ_ne_zero_or_sinQ_ne_zero ang
    refine ⟨one_le_xformSide hx hy htrig, one_le_xformSide hx hy htrig.symm, fun hbig => ?_⟩
    rw [exec_xform, execXform, if_neg (by omega), if_pos hbig, Run.outcome_raise, raiseFault_eq_faulted]
  · exact execXform_congr (by omega) src sw sh ss sx sy dst bg s

end Sys2Proof.Machine

namespace Sys2Proof.Machine

/-! ## Copies that do not overlap (R175, R263) -/

/-- The cell a copy writes when its source byte is still as in `m`. -/
def copyCell (bg : Byte) (m : Memory) (q : Option Int × Int) : Host.Cell :=
  (q.2.toNat, q.1.elim bg fun a => Memory.read m a.toNat)

/-- No copy's source is a copy's destination. -/
def SourcesApart (l : List (Option Int × Int)) : Prop :=
  ∀ q ∈ l, ∀ a, q.1 = some a → ∀ q' ∈ l, q'.2.toNat ≠ a.toNat

/-- A walk over copies whose sources no copy writes stores what the sources held at its start. -/
theorem copyBytes_eq_foldl_write (bg : Byte) {l : List (Option Int × Int)} (m : Memory) (h : SourcesApart l) :
    copyBytes bg l m = (l.map (copyCell bg m)).foldl (fun m c => Memory.write m c.1 c.2) m := by
  induction l using List.reverseRecOn with
  | nil => rfl
  | append_singleton l q ih =>
    have hl : SourcesApart l := fun q hq a ha q' hq' =>
      h q (List.mem_append_left _ hq) a ha q' (List.mem_append_left _ hq')
    have hcell : copyCell bg (copyBytes bg l m) q = copyCell bg m q := by
      rw [ih hl, copyCell, copyCell]
      cases hq : q.1 with
      | none => rfl
      | some a =>
        refine congrArg (Prod.mk _) (read_foldl_write_other _ _ _ fun c hc => ?_)
        obtain ⟨q', hq', rfl⟩ := List.mem_map.1 hc
        exact h q (by simp) a hq q' (List.mem_append_left _ hq')
    have hstep : copyBytes bg (l ++ [q]) m =
        Memory.write (copyBytes bg l m) (copyCell bg (copyBytes bg l m) q).1 (copyCell bg (copyBytes bg l m) q).2 :=
      List.foldl_concat ..
    rw [hstep, hcell, ih hl, List.map_append, List.map_singleton, List.foldl_concat]

/-- Where all writes to an address write the same byte, that byte is read there. -/
theorem read_foldl_write_of_mem {l : List Host.Cell} {m : Memory} {c : Host.Cell} (hm : Memory.wf m = true)
    (hl : ∀ d ∈ l, d.1 < 4294967296) (hc : c ∈ l) (hsame : ∀ d ∈ l, d.1 = c.1 → d = c) :
    Memory.read (l.foldl (fun m c => Memory.write m c.1 c.2) m) c.1 = c.2 := by
  induction l using List.reverseRecOn with
  | nil => exact absurd hc List.not_mem_nil
  | append_singleton l d ih =>
    have hl' : ∀ e ∈ l, e.1 < 4294967296 := fun e he => hl e (List.mem_append_left _ he)
    by_cases hd : d = c
    · subst hd
      exact read_foldl_write_last l [] d m hm hl' fun _ he => absurd he List.not_mem_nil
    · have hne : d.1 ≠ c.1 := fun he => hd (hsame d (by simp) he)
      have hcl : c ∈ l := (List.mem_append.1 hc).resolve_right fun h => hd (List.mem_singleton.1 h).symm
      rw [List.foldl_concat, Memory.read_write_other _ _ _ _ hne.symm]
      exact ih hl' hcl fun e he => hsame e (List.mem_append_left _ he)

section
variable {p : Config} {l : List (Option Int × Int)} {m : Memory} (hacc : ∀ q ∈ l, CopyAccessible p q)
  (hapart : SourcesApart l) (bg : Byte)
include hacc hapart

/-- A copy that shares its destination with no other leaves there the byte its source held, or the background. -/
theorem read_copyBytes_of_mem (hm : Memory.wf m = true) {q : Option Int × Int} (hq : q ∈ l)
    (hinj : ∀ q' ∈ l, q'.2 = q.2 → q' = q) :
    Memory.read (copyBytes bg l m) q.2.toNat = q.1.elim bg fun a => Memory.read m a.toNat := by
  rw [copyBytes_eq_foldl_write bg m hapart]
  refine read_foldl_write_of_mem (c := copyCell bg m q) hm (fun d hd => ?_) (List.mem_map_of_mem hq)
    fun d hd heq => ?_
  · obtain ⟨q', hq', rfl⟩ := List.mem_map.1 hd
    obtain ⟨h0, hlt, -⟩ := (accessible_iff _ _).1 (hacc q' hq').2
    exact (Int.toNat_lt h0).2 hlt
  · obtain ⟨q', hq', rfl⟩ := List.mem_map.1 hd
    rw [hinj q' hq' ((toNat_eq_iff_of_accessible (hacc q' hq').2 (hacc q hq).2).1 heq)]

/-- Bytes that are no copy's destination keep their values. -/
theorem read_copyBytes_other (a : Nat) (hne : ∀ q ∈ l, q.2 ≠ a) :
    Memory.read (copyBytes bg l m) a = Memory.read m a := by
  rw [copyBytes_eq_foldl_write bg m hapart]
  refine read_foldl_write_other _ _ _ fun d hd heq => ?_
  obtain ⟨q, hq, rfl⟩ := List.mem_map.1 hd
  obtain ⟨h0, -⟩ := (accessible_iff _ _).1 (hacc q hq).2
  exact hne q hq ((Int.toNat_of_nonneg h0).symm.trans (congrArg Int.ofNat heq))

end

/-! ## What XFORM writes (R175, R176) -/

/-- XFORM's copy for destination pixel `(i, j)` (R175). -/
def xformCopy (src : Nat) (sw sh : Int) (ss sx sy : Nat) (ang : Int) (dst : Nat) (dw dh : Int) (i j : Nat) :
    Option Int × Int :=
  let q := xformSource sw sh sx sy ang dw dh i j
  (if InSource sw sh q then some (xformSrcAddr src ss q.1 q.2) else none, xformDstAddr dst dw i j)

section
variable {src : Nat} {sw sh : Int} {ss sx sy : Nat} {ang : Int} {dst : Nat} {dw dh : Int}

theorem mem_xformCopies {q : Option Int × Int} :
    q ∈ xformCopies src sw sh ss sx sy ang dst dw dh ↔
      ∃ i j : Nat, (i : Int) < dw ∧ (j : Int) < dh ∧ xformCopy src sw sh ss sx sy ang dst dw dh i j = q := by
  unfold xformCopies
  rw [List.mem_flatMap]
  constructor
  · rintro ⟨j, hj, hq⟩
    obtain ⟨i, hi, rfl⟩ := List.mem_map.1 hq
    exact ⟨i, j, Int.lt_toNat.1 (List.mem_range.1 hi), Int.lt_toNat.1 (List.mem_range.1 hj), rfl⟩
  · rintro ⟨i, j, hi, hj, rfl⟩
    exact ⟨j, List.mem_range.2 (Int.lt_toNat.2 hj), List.mem_map.2 ⟨i, List.mem_range.2 (Int.lt_toNat.2 hi), rfl⟩⟩

theorem xformCopy_fst_of_inSource {i j : Nat} (h : InSource sw sh (xformSource sw sh sx sy ang dw dh i j)) :
    (xformCopy src sw sh ss sx sy ang dst dw dh i j).1 =
      some (xformSrcAddr src ss (xformSource sw sh sx sy ang dw dh i j).1 (xformSource sw sh sx sy ang dw dh i j).2) :=
  if_pos h

theorem xformCopy_fst_of_not_inSource {i j : Nat} (h : ¬ InSource sw sh (xformSource sw sh sx sy ang dw dh i j)) :
    (xformCopy src sw sh ss sx sy ang dst dw dh i j).1 = none :=
  if_neg h

/-- A copy that reads takes its byte from inside the source (R175). -/
theorem xformCopy_fst_eq_some {i j : Nat} {a : Int}
    (h : (xformCopy src sw sh ss sx sy ang dst dw dh i j).1 = some a) :
    InSource sw sh (xformSource sw sh sx sy ang dw dh i j) ∧
      a = xformSrcAddr src ss (xformSource sw sh sx sy ang dw dh i j).1 (xformSource sw sh sx sy ang dw dh i j).2 := by
  by_cases hin : InSource sw sh (xformSource sw sh sx sy ang dw dh i j)
  · rw [xformCopy_fst_of_inSource hin, Option.some_inj] at h
    exact ⟨hin, h.symm⟩
  · rw [xformCopy_fst_of_not_inSource hin] at h
    cases h

/-- The destination's rows do not overlap, so a destination address determines the copy. -/
theorem xformCopies_eq_of_snd_eq {i j : Nat} {q : Option Int × Int} (hi : (i : Int) < dw)
    (hq : q ∈ xformCopies src sw sh ss sx sy ang dst dw dh)
    (h : q.2 = xformDstAddr dst dw i j) : q = xformCopy src sw sh ss sx sy ang dst dw dh i j := by
  obtain ⟨i', j', hi', -, rfl⟩ := mem_xformCopies.1 hq
  have h : xformDstAddr dst dw i' j' = xformDstAddr dst dw i j := h
  unfold xformDstAddr at h
  obtain ⟨hii, hjj⟩ := rowMajor_inj (w := dw) (x := i') (y := j') (x' := i) (y' := j)
    (by omega) hi' (by omega) hi (by omega)
  rw [Int.ofNat_inj.1 hii, Int.ofNat_inj.1 hjj]

end

/-- Settles O44: all copies are made, none reads what another writes, and each writes an address of its own. -/
theorem xformWrites : Obligations.XformWrites := by
  intro s src sw sh ss sx sy ang dst bg dw dh hs hne hdw hdh hw hh hdst hsrc
  obtain ⟨-, -, -, -, -, hwf, -⟩ := hs
  have hacc : ∀ q ∈ xformCopies src sw sh ss sx sy ang dst dw dh, CopyAccessible s.cfg q := by
    intro q hq
    obtain ⟨i, j, hi, hj, rfl⟩ := mem_xformCopies.1 hq
    refine ⟨fun a ha => ?_, hdst i j hi hj⟩
    obtain ⟨hin, rfl⟩ := xformCopy_fst_eq_some ha
    exact (hsrc i j hi hj _ rfl hin).1
  have hapart : SourcesApart (xformCopies src sw sh ss sx sy ang dst dw dh) := by
    intro q hq a ha q' hq' heq
    have haddr : q'.2 = a := (toNat_eq_iff_of_accessible (hacc q' hq').2 ((hacc q hq).1 a ha)).1 heq
    obtain ⟨i, j, hi, hj, rfl⟩ := mem_xformCopies.1 hq
    obtain ⟨i', j', hi', hj', rfl⟩ := mem_xformCopies.1 hq'
    obtain ⟨hin, rfl⟩ := xformCopy_fst_eq_some ha
    exact (hsrc i j hi hj _ rfl hin).2 i' j' hi' hj' haddr.symm
  obtain ⟨t, hexec, ht, hmem⟩ :=
    (xformRunsInOrder s src sw sh ss sx sy ang dst bg dw dh _ hne hdw hdh hw hh rfl).1 hacc
  have hbyte : ∀ i j : Nat, (i : Int) < dw → (j : Int) < dh → memByte t (xformDstAddr dst dw i j) =
      (xformCopy src sw sh ss sx sy ang dst dw dh i j).1.elim bg (memByte s) := by
    intro i j hi hj
    rw [memByte, hmem]
    exact read_copyBytes_of_mem hacc hapart bg hwf (mem_xformCopies.2 ⟨i, j, hi, hj, rfl⟩)
      fun q hq => xformCopies_eq_of_snd_eq hi hq
  refine ⟨t, hexec, ht, fun i j hi hj q hq => ?_, fun a ha => ?_⟩
  · subst hq
    refine ⟨fun hin => (hbyte i j hi hj).trans ?_, fun hin => (hbyte i j hi hj).trans ?_⟩
    · rw [xformCopy_fst_of_inSource hin, Option.elim_some, xformSrcAddr]
    · rw [xformCopy_fst_of_not_inSource hin, Option.elim_none]
  · rw [hmem]
    refine read_copyBytes_other hacc hapart bg a fun q hq => ?_
    obtain ⟨i, j, hi, hj, rfl⟩ := mem_xformCopies.1 hq
    exact ha i j hi hj

/-- Settles O45: O44 where every pixel is its own source; with `ss = sw` both buffers are in row-major
order. -/
theorem xformIdentity : Obligations.XformIdentity := by
  intro s src sw sh ss ang dst bg hs hsw hsw' hsh hsh' hang hbuf
  obtain ⟨⟨hwidth, hheight⟩, hsource⟩ := xform_whole_turn sw sh hang
  have hin : ∀ i j : Nat, (i : Int) < sw → (j : Int) < sh → InSource sw sh ((i : Int), (j : Int)) :=
    fun i j hi hj => ⟨Int.natCast_nonneg i, hi, Int.natCast_nonneg j, hj⟩
  obtain ⟨t, hexec, ht, hpixel, -⟩ := xformWrites s src sw sh ss 256 256 ang dst bg sw sh hs (by omega) hwidth.symm
    hheight.symm hsw' hsh'
    (fun i j hi hj => (hbuf i j (by omega) hi (by omega) hj).2.1)
    (by
      rintro i j hi hj q rfl -
      rw [hsource]
      obtain ⟨hread, -, hapart⟩ := hbuf i j (by omega) hi (by omega) hj
      exact ⟨hread, fun i' j' hi' hj' => hapart i' j' (by omega) hi' (by omega) hj'⟩)
  have hcopy : ∀ i j : Int, 0 ≤ i → i < sw → 0 ≤ j → j < sh →
      memByte t (dst + j * sw + i) = memByte s (src + j * ss + i) := by
    intro i j hi0 hi hj0 hj
    lift i to Nat using hi0
    lift j to Nat using hj0
    exact (hpixel i j hi hj _ (hsource i j).symm).1 (hin i j hi hj)
  refine ⟨t, hexec, by rw [ht], by rw [ht], hcopy, fun htight n hn0 hn => ?_⟩
  have hrow : n / sw < sh := Int.ediv_lt_of_lt_mul (by omega) (by rwa [mul_comm] at hn)
  have hbytes := hcopy (n % sw) (n / sw) (Int.emod_nonneg n (by omega)) (Int.emod_lt_of_pos n (by omega))
    (Int.ediv_nonneg hn0 (by omega)) hrow
  rwa [← htight, add_assoc, add_assoc, Int.ediv_mul_add_emod] at hbytes

end Sys2Proof.Machine

namespace Sys2Proof.Machine

/-! ## How a command enters the fault state (R221 to R225) -/

/-- The registers that say whether a fault was entered: the fault registers, the FIFO and EXEC. -/
structure KeepsFaultRegisters (s t : State) : Prop where
  fault : t.fault = s.fault
  fcause : t.fcause = s.fcause
  finfo : t.finfo = s.finfo
  fifo : t.fifo = s.fifo
  cur : t.cur = s.cur

/-- The result registers besides. -/
structure KeepsRegisters (s t : State) : Prop extends KeepsFaultRegisters s t where
  res0 : t.res0 = s.res0
  res1 : t.res1 = s.res1
  res2 : t.res2 = s.res2

/-- The command ends with the fault registers untouched, or raises a fault R223 lists for it, no register touched so
far. -/
def AnswersOrFaults (i : Instr) (s : State) (o : Out) : Prop :=
  (∃ t, o = .next t ∧ KeepsFaultRegisters s t) ∨
    ∃ c info t, o = .next (raiseFault true c info t) ∧ raisesWith i s c info ∧ KeepsRegisters s t

section
variable {i : Instr} {s t : State}

theorem KeepsFaultRegisters.refl (s : State) : KeepsFaultRegisters s s := ⟨rfl, rfl, rfl, rfl, rfl⟩

theorem KeepsRegisters.refl (s : State) : KeepsRegisters s s := ⟨.refl s, rfl, rfl, rfl⟩

/-- The result registers are free where no fault is raised. -/
theorem KeepsFaultRegisters.withResults (h : KeepsFaultRegisters s t) (a b c : Word) :
    KeepsFaultRegisters s { t with res0 := a, res1 := b, res2 := c } :=
  { h with }

theorem SameBut.keepsRegisters (h : SameBut s t) : KeepsRegisters s t := by
  rw [show t = { s with top := t.top, bot := t.bot, dirty := t.dirty } from h]
  exact { KeepsRegisters.refl s with }

theorem OnlyStores.keepsRegisters (h : OnlyStores s t) : KeepsRegisters s t := by
  obtain ⟨l, -, rfl⟩ := h
  rw [storeAll_eq]
  exact { KeepsRegisters.refl s with }

theorem OnlyPalette.keepsRegisters (h : OnlyPalette s t) : KeepsRegisters s t := by
  obtain ⟨p, rfl, -⟩ := h
  exact { KeepsRegisters.refl s with }

theorem KeepsFaultRegisters.answers (h : KeepsFaultRegisters s t) : AnswersOrFaults i s (.next t) :=
  .inl ⟨t, rfl, h⟩

/-- A command that refuses an operand, or finds no font, raises before any effect (R222). -/
theorem refuses_answersOrFaults {c : Cause} {info : Int} (h : refuses i s c info) :
    AnswersOrFaults i s (Run.outcome (.raise c info s)) :=
  .inr ⟨c, info, s, rfl, .inl h, .refl s⟩

/-- A run that raises at most HostMemFault, and that at an address of the command, is one of R223's faults. -/
theorem Run.Sat.answersOrFaults {R : State → State → Prop} {r : Run}
    (h : r.Sat (KeepsFaultRegisters s) (MemFault (accesses i s) s R)) (hR : ∀ t, R s t → KeepsRegisters s t) :
    AnswersOrFaults i s r.outcome := by
  rcases h.outcome with ⟨t, ho, ht⟩ | ⟨c, n, t, ho, hc, ⟨ha, hna⟩, ht⟩
  · exact .inl ⟨t, ho, ht⟩
  · exact .inr ⟨c, n, t, ho, .inr ⟨hc, ha, hna⟩, hR t ht⟩

theorem RunDraws.answersOrFaults {r : Run} (h : RunDraws (accesses i s) s r) : AnswersOrFaults i s r.outcome :=
  (Run.Sat.mono h (fun _ ht => ht.1.keepsRegisters.toKeepsFaultRegisters) fun _ _ _ hf => hf).answersOrFaults
    fun _ ht => ht.1.keepsRegisters

theorem drawPixels_answersOrFaults {c : Byte} {qs : List (Int × Int)} (h : OnCanvas s.cfg qs) :
    AnswersOrFaults i s (drawPixels c qs s) := by
  obtain ⟨t, ht, hd⟩ := drawPixels_onlyDraws (c := c) h
  rw [ht]
  exact hd.1.keepsRegisters.answers

/-- A text command without a font refuses; with one it is its drawing (R192 to R195, R222). -/
theorem needFont_answersOrFaults {body : State → Run} (hno : s.fontV = false → refuses i s .noFont 0)
    (hbody : s.fontV = true → RunDraws (accesses i s) s (body s)) :
    AnswersOrFaults i s (needFont s body).outcome := by
  unfold needFont
  split
  · next hv => exact (hbody hv).answersOrFaults
  · next hv => exact refuses_answersOrFaults (hno (Bool.eq_false_iff.2 hv))

end

/-! ### One lemma per command that can fault -/

theorem execPalLoad_answersOrFaults (addr count : Nat) (s : State) :
    AnswersOrFaults (.palLoad addr count) s (execPalLoad addr count s) := by
  unfold execPalLoad
  split
  · next hc => exact refuses_answersOrFaults ⟨rfl, hc, rfl⟩
  · next hc =>
    have hpal : ∀ t, OnlyPalette { s with pal := List.replicate 256 0 } t → KeepsRegisters s t :=
      fun t ht => { ht.keepsRegisters with }
    refine Run.Sat.answersOrFaults (R := fun _ => OnlyPalette { s with pal := List.replicate 256 0 })
      (Run.Sat.mono (palLoadLoop_sat addr count _) (fun t ht => (hpal t ht).toKeepsFaultRegisters) ?_) hpal
    rintro c n t ⟨hcause, ⟨ha, hna⟩, ht⟩
    exact ⟨hcause, ⟨⟨Nat.le_of_not_lt hc, ha⟩, hna⟩, ht⟩

theorem execBlit_answersOrFaults (x y w h : Int) (stride addr : Nat) (s : State) :
    AnswersOrFaults (.blit x y w h stride addr) s (execBlit x y w h stride addr s) := by
  unfold execBlit
  split
  · exact (KeepsFaultRegisters.refl s).answers
  · next k hk =>
    exact (blitLoop_runDraws hk (fun px py hv => ⟨px, py, hv, rfl⟩)
      fun _ _ _ _ hc ha => blitPixel_runDraws hc ha).answersOrFaults

theorem execBlitk_answersOrFaults (x y w h : Int) (stride addr : Nat) (key : Byte) (s : State) :
    AnswersOrFaults (.blitk x y w h stride addr key) s (execBlitk x y w h stride addr key s) := by
  unfold execBlitk
  split
  · exact (KeepsFaultRegisters.refl s).answers
  · next k hk =>
    exact (blitLoop_runDraws hk (fun px py hv => ⟨px, py, hv, rfl⟩)
      fun _ _ _ _ hc ha => blitkPixel_runDraws key hc ha).answersOrFaults

theorem execGrab_answersOrFaults (x y w h : Int) (stride addr : Nat) (s : State) :
    AnswersOrFaults (.grab x y w h stride addr) s (execGrab x y w h stride addr s) := by
  unfold execGrab
  split
  · exact (KeepsFaultRegisters.refl s).answers
  · next k hk =>
    have hloop := grabLoop_runStores (A := accesses (.grab x y w h stride addr) s) (stride := stride) (addr := addr) hk
      fun px py hv => ⟨px, py, hv, rfl⟩
    exact (Run.Sat.mono hloop (fun _ ht => ht.keepsRegisters.toKeepsFaultRegisters)
      fun _ _ _ hf => hf).answersOrFaults fun _ ht => ht.keepsRegisters

/-- XFORM refuses sides beyond 32767; its loops access the addresses of its copies, and its results come after them. -/
theorem execXform_answersOrFaults (src : Nat) (sw sh : Int) (ss sx sy : Nat) (ang : Int) (dst : Nat) (bg : Byte)
    (s : State) :
    AnswersOrFaults (.xform src sw sh ss sx sy ang dst bg) s (execXform src sw sh ss sx sy ang dst bg s) := by
  unfold execXform
  split
  · exact ((KeepsFaultRegisters.refl s).withResults 0 0 s.res2).answers
  · next hne =>
    extract_lets dw dh
    split
    · next hbig => exact refuses_answersOrFaults ⟨rfl, hne, hbig, rfl⟩
    · next hfit =>
      have hloop := xformLoop_runStores (A := accesses (.xform src sw sh ss sx sy ang dst bg) s) (dw := dw) (dh := dh)
        (fun q hq => ⟨⟨hne, by omega, by omega, q, hq, .inr rfl⟩,
          fun a ha => ⟨hne, by omega, by omega, q, hq, .inl ha⟩⟩) bg s
      refine Run.Sat.answersOrFaults (Run.Sat.bind hloop fun t ht => ?_) fun _ ht => ht.keepsRegisters
      exact ht.keepsRegisters.toKeepsFaultRegisters.withResults _ _ t.res2

theorem execFont_answersOrFaults (addr : Nat) (width height : Int) (s : State) :
    AnswersOrFaults (.font addr width height) s (execFont addr width height s) := by
  unfold execFont
  split
  · next hw => exact refuses_answersOrFaults ⟨rfl, .inl ⟨hw, toNat_ofInt_word width⟩⟩
  · next hw =>
    split
    · next hh => exact refuses_answersOrFaults ⟨rfl, .inr ⟨by omega, hh, toNat_ofInt_word height⟩⟩
    · exact KeepsFaultRegisters.answers ⟨rfl, rfl, rfl, rfl, rfl⟩

/-- Drawing leaves the font as it is, so a glyph has the same bytes. -/
theorem glyphAddr_sameBut {s t : State} (h : SameBut s t) (b : Byte) : glyphAddr t b = glyphAddr s b := by
  rw [glyphAddr, glyphAddr, glyphStride, glyphStride, h.fontAddr, h.fontW, h.fontH]

theorem mem_stringBytes {s : State} {addr len i : Nat} (hi : i < len) :
    memByte s (stringAddr addr i) ∈ stringBytes s addr len :=
  List.mem_map_of_mem (List.mem_range.2 hi)

/-- An address a string accesses: of one of its own bytes, or of a byte of a glyph it draws (R194 to R196). -/
def StringAccess (s : State) (addr len : Nat) (a : Int) : Prop :=
  (∃ k : Nat, k < len ∧ a = stringAddr addr k) ∨
    ∃ b ∈ stringBytes s addr len, b ≠ 0x08#8 ∧ b ≠ 0x0A#8 ∧ MonoByte (glyphAddr s b) s.fontW.toNat s.fontH.toNat a

/-- A string whose glyphs read bytes of their own bitmaps only reads its own bytes and those (R194 to R196). -/
theorem stringLoop_runDraws_accesses {i : Instr} {s : State} {addr len : Nat}
    {glyph : Int → Int → Byte → State → Run}
    (hi : ∀ a, StringAccess s addr len a → accesses i s a)
    (hg : ∀ (A : Int → Prop) (gx gy : Int) (b : Byte) (t : State),
      (∀ a, MonoByte (glyphAddr t b) t.fontW.toNat t.fontH.toNat a → A a) → RunDraws A t (glyph gx gy b t))
    (x y adv line : Int) : RunDraws (accesses i s) s (stringLoop glyph addr x y adv line len 0 0 0 s) := by
  refine stringLoop_runDraws len 0 (fun k hk => hi _ (.inl ⟨k, by omega, rfl⟩)) ?_ x y adv line 0 0 (.refl s)
  rintro k gx gy _ t hk rfl hbs hnl ht
  refine hg _ gx gy _ t fun a ha => hi a (.inr ⟨_, mem_stringBytes (by omega), hbs, hnl, ?_⟩)
  rwa [glyphAddr_sameBut ht.1, ht.1.fontW, ht.1.fontH] at ha

theorem execStr_answersOrFaults (x y : Int) (addr len : Nat) (c : Byte) (s : State) :
    AnswersOrFaults (.str x y addr len c) s (execStr x y addr len c s) :=
  needFont_answersOrFaults (fun hv => ⟨rfl, hv, rfl⟩) fun hv =>
    stringLoop_runDraws_accesses (i := .str x y addr len c) (s := s) (fun _ ha => ⟨hv, ha⟩)
      (fun _ gx gy _ t hA => monoBlit_runDraws hA gx gy c t) x y _ _

theorem execStr2x_answersOrFaults (x y : Int) (addr len : Nat) (c : Byte) (s : State) :
    AnswersOrFaults (.str2x x y addr len c) s (execStr2x x y addr len c s) :=
  needFont_answersOrFaults (fun hv => ⟨rfl, hv, rfl⟩) fun hv =>
    stringLoop_runDraws_accesses (i := .str2x x y addr len c) (s := s) (fun _ ha => ⟨hv, ha⟩)
      (fun _ gx gy _ t hA => mono2xBlit_runDraws hA gx gy c t) x y _ _

theorem execFlush_answersOrFaults (s : State) : AnswersOrFaults .flush s (execFlush s) := by
  obtain ⟨ts, d, par, il, -, hflush⟩ := execFlush_eq s
  rw [hflush]
  exact KeepsFaultRegisters.answers ⟨rfl, rfl, rfl, rfl, rfl⟩

/-- Every command ends with the fault registers untouched, or raises one of the faults R223 lists for it. -/
theorem exec_answersOrFaults (i : Instr) (s : State) : AnswersOrFaults i s (exec i s) := by
  have unchanged := KeepsFaultRegisters.refl s
  cases i with
  | nop => exact unchanged.answers
  | palDefault => exact KeepsFaultRegisters.answers ⟨rfl, rfl, rfl, rfl, rfl⟩
  | palLoad addr count => exact execPalLoad_answersOrFaults addr count s
  | palRead idx => exact (unchanged.withResults _ s.res1 s.res2).answers
  | getPixel x y =>
    show AnswersOrFaults _ s (execGetPixel x y s)
    unfold execGetPixel
    split <;> exact (unchanged.withResults _ s.res1 s.res2).answers
  | point x y c => exact drawPixels_answersOrFaults pointPixels_onCanvas
  | fillScreen c => exact KeepsFaultRegisters.answers ⟨rfl, rfl, rfl, rfl, rfl⟩
  | crop start len view => exact (unchanged.withResults ..).answers
  | hline x y len c => exact drawPixels_answersOrFaults hlinePixels_onCanvas
  | vline x y len c => exact drawPixels_answersOrFaults vlinePixels_onCanvas
  | line x0 y0 x1 y1 c => exact drawPixels_answersOrFaults linePixels_onCanvas
  | rect x y w h c => exact drawPixels_answersOrFaults rectPixels_onCanvas
  | frect x y w h c => exact drawPixels_answersOrFaults frectPixels_onCanvas
  | tri x0 y0 x1 y1 x2 y2 c => exact drawPixels_answersOrFaults triPixels_onCanvas
  | ftri x0 y0 x1 y1 x2 y2 c => exact drawPixels_answersOrFaults ftriPixels_onCanvas
  | circ x y r c => exact drawPixels_answersOrFaults circPixels_onCanvas
  | fcirc x y r c => exact drawPixels_answersOrFaults fcircPixels_onCanvas
  | blit x y w h stride addr => exact execBlit_answersOrFaults x y w h stride addr s
  | blitk x y w h stride addr key => exact execBlitk_answersOrFaults x y w h stride addr key s
  | grab x y w h stride addr => exact execGrab_answersOrFaults x y w h stride addr s
  | xform src sw sh ss sx sy ang dst bg => exact execXform_answersOrFaults src sw sh ss sx sy ang dst bg s
  | mono x y w h addr c =>
    exact (monoBlit_runDraws (A := accesses (.mono x y w h addr c) s) (fun _ ha => ha) x y c s).answersOrFaults
  | mono2x x y w h addr c =>
    exact (mono2xBlit_runDraws (A := accesses (.mono2x x y w h addr c) s) (fun _ ha => ha) x y c s).answersOrFaults
  | font addr width height => exact execFont_answersOrFaults addr width height s
  | char x y code c =>
    exact needFont_answersOrFaults (fun hv => ⟨rfl, hv, rfl⟩) fun hv =>
      monoBlit_runDraws (fun _ ha => ⟨hv, ha⟩) x y c s
  | char2x x y code c =>
    exact needFont_answersOrFaults (fun hv => ⟨rfl, hv, rfl⟩) fun hv =>
      mono2xBlit_runDraws (fun _ ha => ⟨hv, ha⟩) x y c s
  | str x y addr len c => exact execStr_answersOrFaults x y addr len c s
  | str2x x y addr len c => exact execStr2x_answersOrFaults x y addr len c s
  | flush => exact execFlush_answersOrFaults s

/-- Settles O11: each command ends with the fault registers untouched or raises one of its faults, and fault entry
records the first one. -/
theorem commandFaultEntry : Obligations.CommandFaultEntry := by
  intro i s t h
  rcases exec_answersOrFaults i s with ⟨u, hu, hk⟩ | ⟨c, info, u, hu, hr, hk⟩ <;> rw [h] at hu <;> cases hu
  · exact .inl ⟨hk.fault, hk.fcause, hk.finfo, hk.fifo, hk.cur⟩
  · refine .inr ⟨c, info, hr, rfl, rfl, rfl, rfl, hk.res0, hk.res1, hk.res2, fun hf => ?_, fun hf => ?_⟩
    · rw [← hk.fault] at hf
      rw [raiseFault_fcause, raiseFault_finfo, if_pos hf, if_pos hf]
      exact ⟨hk.fcause, hk.finfo⟩
    · rw [← hk.fault] at hf
      rw [raiseFault_fcause, raiseFault_finfo, hf]
      exact ⟨rfl, rfl⟩

end Sys2Proof.Machine

namespace Sys2Proof.Machine

/-! ## The bits of a monochrome bitmap (R185, R186) -/

/-- The bytes that one bit of a monochrome bitmap is read from: none outside the bitmap (R186). -/
def bitReads (addr w h r c : Int) : List Int :=
  if r < 0 ∨ r ≥ h ∨ c < 0 ∨ c ≥ w then [] else [monoAddr addr w r c]

theorem bitReads_of_mem {w h r c : Int} (addr : Int) (hr : 0 ≤ r) (hrh : r < h) (hc : 0 ≤ c) (hcw : c < w) :
    bitReads addr w h r c = [monoAddr addr w r c] :=
  if_neg (by omega)

/-- A byte read for a bit is one of a bitmap that may be read. -/
theorem accessible_of_mem_bitReads {s : State} {addr w h r c b : Int} (hs : MonoReadable s addr w h)
    (hb : b ∈ bitReads addr w h r c) : Accessible s.cfg b := by
  unfold bitReads at hb
  split at hb
  · exact absurd hb List.not_mem_nil
  · rw [List.mem_singleton.1 hb]
    exact hs r c (by omega) (by omega) (by omega) (by omega)

theorem map_monoAddr_filter_eq_flatMap_bitReads (addr w h : Int) (l : List (Int × Int)) :
    (l.filter fun q => decide (0 ≤ q.1 ∧ q.1 < h ∧ 0 ≤ q.2 ∧ q.2 < w)).map (fun q => monoAddr addr w q.1 q.2) =
      l.flatMap fun q => bitReads addr w h q.1 q.2 := by
  induction l with
  | nil => rfl
  | cons q l ih =>
    rw [List.flatMap_cons, ← ih, List.filter_cons]
    by_cases hq : 0 ≤ q.1 ∧ q.1 < h ∧ 0 ≤ q.2 ∧ q.2 < w
    · rw [if_pos (decide_eq_true hq), List.map_cons, bitReads, if_neg (by omega), List.singleton_append]
    · rw [if_neg (by simpa using hq), bitReads, if_pos (by omega), List.nil_append]

/-- The bytes of a pass of the 2x blit, bit by bit in the order E, U, D, L, R (R191). -/
theorem mono2xReads_eq (addr w h r c : Int) :
    mono2xReads addr w h r c = bitReads addr w h r c ++ (bitReads addr w h (r - 1) c ++ (bitReads addr w h (r + 1) c ++
      (bitReads addr w h r (c - 1) ++ (bitReads addr w h r (c + 1) ++ [])))) :=
  map_monoAddr_filter_eq_flatMap_bitReads addr w h [(r, c), (r - 1, c), (r + 1, c), (r, c - 1), (r, c + 1)]

theorem monoPixel_outside (s : State) {addr w h r c : Int} (hout : r < 0 ∨ r ≥ h ∨ c < 0 ∨ c ≥ w) :
    monoPixel s addr w h r c = false :=
  if_pos hout

theorem monoPixel_inside (s : State) {addr w h r c : Int} (hin : ¬ (r < 0 ∨ r ≥ h ∨ c < 0 ∨ c ≥ w)) :
    monoPixel s addr w h r c = (memByte s (monoAddr addr w r c)).getLsbD (7 - (c % 8).toNat) :=
  if_neg hin

section
variable {s t : State} {addr w h r c : Int}

/-- A bit whose byte may be read, if it has one, is the pixel of the bitmap, drawing so far making no difference. -/
theorem monoBit_ok (hsame : SameBut s t) (hb : ∀ b ∈ bitReads addr w h r c, Accessible s.cfg b) (k : Bool → Run) :
    monoBit addr w h r c t k = k (monoPixel s addr w h r c) := by
  unfold monoBit
  split
  · next hout => rw [monoPixel_outside s hout]
  · next hin =>
    rw [bitReads, if_neg hin] at hb
    rw [readByte_ok _ (by rw [hsame.cfg]; exact hb _ (List.mem_singleton.2 rfl)), monoPixel_inside s hin,
      ← memByte_sameBut hsame, memByte]

/-- A bit followed by other reads: the first byte that may not be read is its own, or one of theirs. -/
theorem monoBit_stops (hsame : SameBut s t) {rest : List Int} {a : Int} {k : Bool → Run}
    (hfind : (bitReads addr w h r c ++ rest).find? (fun b => !accessible s.cfg b) = some a)
    (hk : rest.find? (fun b => !accessible s.cfg b) = some a →
      k (monoPixel s addr w h r c) = .raise .hostMemFault a t) :
    monoBit addr w h r c t k = .raise .hostMemFault a t := by
  rw [List.find?_append] at hfind
  by_cases hb : ∀ b ∈ bitReads addr w h r c, Accessible s.cfg b
  · have hnone : (bitReads addr w h r c).find? (fun b => !accessible s.cfg b) = none :=
      List.find?_eq_none.2 fun b hm => by simpa using hb b hm
    rw [hnone, Option.none_or] at hfind
    rw [monoBit_ok hsame hb]
    exact hk hfind
  · unfold bitReads at hb hfind
    by_cases hin : r < 0 ∨ r ≥ h ∨ c < 0 ∨ c ≥ w
    · rw [if_pos hin] at hb
      exact absurd (fun b hm => absurd hm List.not_mem_nil) hb
    · rw [if_neg hin] at hb hfind
      have hna : ¬ Accessible s.cfg (monoAddr addr w r c) := fun ha => hb fun b hm => List.mem_singleton.1 hm ▸ ha
      rw [List.find?_cons_of_pos (by simpa using hna), Option.some_or, Option.some_inj] at hfind
      subst hfind
      rw [monoBit, if_neg hin]
      exact readByte_raise _ (by rwa [hsame.cfg])

end

/-! ## Walks that draw in one colour -/

/-- A walk each of whose passes draws a shape in one colour draws the union of the shapes. -/
theorem runEach_solid {α : Type} {l : List α} {body : α → State → Run} {c : Byte} {P : α → Int → Int → Prop}
    {s : State} (hs : Drawable s)
    (hb : ∀ q ∈ l, ∀ t, Drawable t → SameBut s t →
      ∃ u, body q t = .ok u ∧ Drawable u ∧ Draws (solid c (P q)) t u) :
    ∃ u, runEach body l s = .ok u ∧ Drawable u ∧ Draws (solid c fun x y => ∃ q ∈ l, P q x y) s u := by
  induction l generalizing s with
  | nil => exact ⟨s, rfl, hs, (Draws.refl s).congr fun x y v _ => by simp [solid]⟩
  | cons q l ih =>
    obtain ⟨t, hq, htd, hqd⟩ := hb q List.mem_cons_self s hs (.refl s)
    obtain ⟨u, hl, hud, hld⟩ := ih htd fun q' hq' t' ht' hsame =>
      hb q' (List.mem_cons_of_mem q hq') t' ht' (hqd.sameBut.trans hsame)
    refine ⟨u, by rw [runEach_cons, hq, Run.bind_ok, hl], hud, (hqd.trans_solid hld).congr fun x y v _ => ?_⟩
    simp only [solid, List.exists_mem_cons_iff]

/-- The pixels of a bitmap as (column, row), row by row: the passes of both blits (R188, R191). -/
def bitmapPixels (w h : Int) : List (Int × Int) :=
  (List.range h.toNat).flatMap fun (r : Nat) => (List.range w.toNat).map fun (c : Nat) => ((c : Int), (r : Int))

theorem mem_bitmapPixels {w h : Int} {q : Int × Int} :
    q ∈ bitmapPixels w h ↔ 0 ≤ q.1 ∧ q.1 < w ∧ 0 ≤ q.2 ∧ q.2 < h := by
  simp only [bitmapPixels, List.mem_flatMap, List.mem_map, List.mem_range]
  constructor
  · rintro ⟨r, hr, c, hc, rfl⟩
    dsimp only
    omega
  · rintro ⟨hc, hcw, hr, hrh⟩
    exact ⟨q.2.toNat, by omega, q.1.toNat, by omega, Prod.ext (Int.toNat_of_nonneg hc) (Int.toNat_of_nonneg hr)⟩

/-- The bitmap's pixels are those of a visible rectangle at the origin, so they are in the same order. -/
theorem bitmapPixels_pairwise (w h : Int) : (bitmapPixels w h).Pairwise PairBefore := by
  have hbox : bitmapPixels w h = boxPixels ⟨0, 0, w.toNat, h.toNat, 0, 0⟩ := by
    simp only [bitmapPixels, boxPixels, zero_add]
  rw [hbox]
  exact boxPixels_pairwise _

/-! ## What a blit of a bitmap does, said once for 1x and 2x -/

/-- A blit of a bitmap: its size, the bytes the pass of a row and column reads, in order, what it draws, and which pass
(column, row) draws a pixel. -/
structure BitBlit where
  w : Int
  h : Int
  reads : Int → Int → List Int
  shape : Int → Int → Prop
  cell : Int → Int → Int × Int

/-- Every byte the blit reads may be read. -/
def BitBlit.Readable (B : BitBlit) (p : Config) : Prop :=
  ∀ q ∈ bitmapPixels B.w B.h, ∀ b ∈ B.reads q.2 q.1, Accessible p b

/-- What the passes before that for column `fc` of row `fr` draw. -/
def BitBlit.part (B : BitBlit) (fr fc px py : Int) : Prop :=
  B.shape px py ∧ PixelBefore (B.cell px py).1 (B.cell px py).2 fc fr

/-- The 1x blit (R188). -/
def blit1x (s : State) (x y w h addr : Int) : BitBlit where
  w := w
  h := h
  reads := monoReads addr w
  shape := monoShape s x y w h addr
  cell px py := (px - x, py - y)

/-- The 2x blit (R191). -/
def blit2x (s : State) (x y w h addr : Int) : BitBlit where
  w := w
  h := h
  reads := mono2xReads addr w h
  shape := mono2xShape s x y w h addr
  cell px py := ((px - x) / 2, (py - y) / 2)

/-- What `body` does as the passes of the blit, in a state that drawing alone has made of `s`: a pass draws its part of
the shape, or raises at the first byte it may not read; and every pixel of the shape has its pass. -/
structure BitBlit.PassLaw (B : BitBlit) (s : State) (col : Byte) (body : Int × Int → State → Run) : Prop where
  draws : ∀ q ∈ bitmapPixels B.w B.h, ∀ t, Drawable t → SameBut s t → (∀ b ∈ B.reads q.2 q.1, Accessible s.cfg b) →
    ∃ u, body q t = .ok u ∧ Drawable u ∧ Draws (solid col fun px py => B.shape px py ∧ B.cell px py = q) t u
  stops : ∀ q ∈ bitmapPixels B.w B.h, ∀ t a, SameBut s t →
    (B.reads q.2 q.1).find? (fun b => !accessible s.cfg b) = some a → body q t = .raise .hostMemFault a t
  cell_mem : ∀ px py, B.shape px py → B.cell px py ∈ bitmapPixels B.w B.h

/-- What `run` does as the blit, in a state that drawing alone has made of `s`: it draws the shape, or raises where a
pass stops, the passes before it having drawn their part. -/
structure BitBlit.Law (B : BitBlit) (s : State) (col : Byte) (run : State → Run) : Prop where
  draws : ∀ t, Drawable t → SameBut s t → B.Readable s.cfg →
    ∃ u, run t = .ok u ∧ Drawable u ∧ Draws (solid col B.shape) t u
  stops : ∀ t fr fc a, Drawable t → SameBut s t → PassStopsAt s.cfg B.w B.h B.reads fr fc a →
    ∃ u, Draws (solid col (B.part fr fc)) t u ∧ run t = .raise .hostMemFault a u

section
variable {B : BitBlit} {s : State} {col : Byte} {body : Int × Int → State → Run}

/-- Passes that all end draw the whole shape. -/
theorem BitBlit.PassLaw.runEach_draws (law : B.PassLaw s col body) {t : State} (ht : Drawable t) (hsame : SameBut s t)
    (hread : B.Readable s.cfg) :
    ∃ u, runEach body (bitmapPixels B.w B.h) t = .ok u ∧ Drawable u ∧ Draws (solid col B.shape) t u := by
  obtain ⟨u, hrun, hud, hd⟩ := runEach_solid (l := bitmapPixels B.w B.h) (body := body) ht
    fun q hq t' ht' hsame' => law.draws q hq t' ht' (hsame.trans hsame') (hread q hq)
  refine ⟨u, hrun, hud, hd.congr fun px py v _ => and_congr_left fun _ => ?_⟩
  constructor
  · rintro ⟨q, -, hshape, -⟩
    exact hshape
  · exact fun hshape => ⟨B.cell px py, law.cell_mem px py hshape, hshape, rfl⟩

/-- The first pass that stops ends the walk, the passes before it having drawn their part (R226). -/
theorem BitBlit.PassLaw.runEach_stops (law : B.PassLaw s col body) {t : State} {fr fc a : Int} (ht : Drawable t)
    (hsame : SameBut s t) (hstop : PassStopsAt s.cfg B.w B.h B.reads fr fc a) :
    ∃ u, Draws (solid col (B.part fr fc)) t u ∧
      runEach body (bitmapPixels B.w B.h) t = .raise .hostMemFault a u := by
  obtain ⟨hr, hrh, hc, hcw, hfind, hfirst⟩ := hstop
  have hf : (fc, fr) ∈ bitmapPixels B.w B.h := mem_bitmapPixels.2 ⟨hc, hcw, hr, hrh⟩
  obtain ⟨before, after, hsplit⟩ := List.append_of_mem hf
  have hmem := mem_before_iff (bitmapPixels_pairwise B.w B.h) hsplit
  obtain ⟨u, hrun, -, hd⟩ := runEach_solid (l := before) (body := body) ht fun q hq t' ht' hsame' => by
    obtain ⟨hq, hlt⟩ := (hmem q).1 hq
    obtain ⟨hqc, hqw, hqr, hqh⟩ := mem_bitmapPixels.1 hq
    exact law.draws q hq t' ht' (hsame.trans hsame') (hfirst q.2 q.1 hqr hqh hqc hqw hlt)
  refine ⟨u, hd.congr fun px py v _ => and_congr_left fun _ => ?_, ?_⟩
  · constructor
    · rintro ⟨q, hq, hshape, rfl⟩
      exact ⟨hshape, ((hmem _).1 hq).2⟩
    · rintro ⟨hshape, hlt⟩
      exact ⟨B.cell px py, (hmem _).2 ⟨law.cell_mem px py hshape, hlt⟩, hshape, rfl⟩
  · rw [hsplit]
    exact runEach_raise hrun (law.stops (fc, fr) hf u a (hsame.trans hd.sameBut) hfind)

theorem BitBlit.PassLaw.law (law : B.PassLaw s col body) : B.Law s col (runEach body (bitmapPixels B.w B.h)) where
  draws _ ht hsame hread := law.runEach_draws ht hsame hread
  stops _ _ _ _ ht hsame hstop := law.runEach_stops ht hsame hstop

/-- The law is about what the blit does in states that drawing has made of `s` only. -/
theorem BitBlit.Law.congr {run run' : State → Run} (law : B.Law s col run) (he : ∀ t, SameBut s t → run' t = run t) :
    B.Law s col run' where
  draws t ht hsame := by
    rw [he t hsame]
    exact law.draws t ht hsame
  stops t fr fc a ht hsame := by
    rw [he t hsame]
    exact law.stops t fr fc a ht hsame

/-- A command that is a blit draws the shape where the bitmap may be read. -/
theorem BitBlit.Law.outcome_draws {run : State → Run} (law : B.Law s col run) (hs : Drawable s)
    (hread : B.Readable s.cfg) : ∃ t, (run s).outcome = .next t ∧ Draws (solid col B.shape) s t := by
  obtain ⟨t, hrun, -, hd⟩ := law.draws s hs (.refl s) hread
  exact ⟨t, by rw [hrun, Run.outcome_ok], hd⟩

/-- A command that is a blit enters the fault state where a pass stops, the passes before it having drawn their part. -/
theorem BitBlit.Law.outcome_stops {run : State → Run} (law : B.Law s col run) (hs : Drawable s) {fr fc a : Int}
    (hstop : PassStopsAt s.cfg B.w B.h B.reads fr fc a) :
    ∃ u, Draws (solid col (B.part fr fc)) s u ∧ (run s).outcome = .next (faulted .hostMemFault a u) := by
  obtain ⟨u, hd, hrun⟩ := law.stops s fr fc a hs (.refl s) hstop
  exact ⟨u, hd, by rw [hrun, Run.outcome_raise, raiseFault_eq_faulted]⟩

end

theorem blit1x_readable {s : State} (x y : Int) {w h addr : Int} (hs : MonoReadable s addr w h) :
    (blit1x s x y w h addr).Readable s.cfg := by
  intro q hq b hb
  obtain ⟨hc, hcw, hr, hrh⟩ := mem_bitmapPixels.1 hq
  rw [List.mem_singleton.1 hb]
  exact hs q.2 q.1 hr hrh hc hcw

theorem blit2x_readable {s : State} (x y : Int) {w h addr : Int} (hs : MonoReadable s addr w h) :
    (blit2x s x y w h addr).Readable s.cfg := by
  intro q _ b hb
  have hb : b ∈ mono2xReads addr w h q.2 q.1 := hb
  simp only [mono2xReads_eq, List.append_nil, List.mem_append] at hb
  rcases hb with hb | hb | hb | hb | hb <;> exact accessible_of_mem_bitReads hs hb

/-! ## The 1x blit (R188) -/

/-- The pass of the 1x blit for pixel (column, row) (R188). -/
def monoPass (x y w h addr : Int) (col : Byte) (q : Int × Int) (s : State) : Run :=
  monoBit addr w h q.2 q.1 s fun b => pointIf b (x + q.1) (y + q.2) col s

theorem monoBlit_eq_runEach (x y w h addr : Int) (col : Byte) (s : State) :
    monoBlit x y w h addr col s = runEach (monoPass x y w h addr col) (bitmapPixels w h) s :=
  forRange_forRange_eq_runEach (body := monoPass x y w h addr col) _ _ (fun r c => ((c : Int), (r : Int))) s

theorem monoPixel_eq_true {s : State} {addr w h r c : Int} (hp : monoPixel s addr w h r c = true) :
    0 ≤ c ∧ c < w ∧ 0 ≤ r ∧ r < h := by
  by_cases hout : r < 0 ∨ r ≥ h ∨ c < 0 ∨ c ≥ w
  · rw [monoPixel_outside s hout] at hp
    cases hp
  · omega

theorem monoPass_law (s : State) (x y w h addr : Int) (col : Byte) :
    (blit1x s x y w h addr).PassLaw s col (monoPass x y w h addr col) where
  draws := by
    intro q hq t ht hsame hread
    obtain ⟨hc, hcw, hr, hrh⟩ : 0 ≤ q.1 ∧ q.1 < w ∧ 0 ≤ q.2 ∧ q.2 < h := mem_bitmapPixels.1 hq
    obtain ⟨u, hu, hud, hd⟩ := pointIf_spec (monoPixel s addr w h q.2 q.1) (x + q.1) (y + q.2) col ht
    refine ⟨u, ?_, hud, hd.congr fun px py v _ => and_congr_left fun _ => ?_⟩
    · rw [monoPass, monoBit_ok hsame (by rw [bitReads_of_mem addr hr hrh hc hcw]; exact hread), hu]
    · show _ ↔ monoPixel s addr w h (py - y) (px - x) = true ∧ (px - x, py - y) = q
      constructor
      · rintro ⟨hbit, rfl, rfl⟩
        rw [add_sub_cancel_left, add_sub_cancel_left]
        exact ⟨hbit, rfl⟩
      · rintro ⟨hbit, rfl⟩
        exact ⟨hbit, by omega, by omega⟩
  stops := by
    intro q hq t a hsame hfind
    obtain ⟨hc, hcw, hr, hrh⟩ : 0 ≤ q.1 ∧ q.1 < w ∧ 0 ≤ q.2 ∧ q.2 < h := mem_bitmapPixels.1 hq
    refine monoBit_stops (rest := []) hsame ?_ nofun
    rw [List.append_nil, bitReads_of_mem addr hr hrh hc hcw]
    exact hfind
  cell_mem _ _ hshape := mem_bitmapPixels.2 (monoPixel_eq_true hshape)

theorem monoBlit_law (s : State) (x y w h addr : Int) (col : Byte) :
    (blit1x s x y w h addr).Law s col (monoBlit x y w h addr col) :=
  (monoPass_law s x y w h addr col).law.congr fun t _ => monoBlit_eq_runEach x y w h addr col t

/-! ## The 2x blit (R191) -/

/-- The sub-pixel in row `j` and column `i`, each 0 or 1, of a 2 by 2 block (R191). -/
def blockBit (q : Bool × Bool × Bool × Bool) (j i : Int) : Bool :=
  if j = 0 then (if i = 0 then q.1 else q.2.1) else (if i = 0 then q.2.2.1 else q.2.2.2)

/-- Scale2x of the pixel in column `c` of row `r` and its neighbours (R191). -/
def scaledBlock (s : State) (addr w h r c : Int) : Bool × Bool × Bool × Bool :=
  scale2x (monoPixel s addr w h r c) (monoPixel s addr w h (r - 1) c) (monoPixel s addr w h (r + 1) c)
    (monoPixel s addr w h r (c - 1)) (monoPixel s addr w h r (c + 1))

/-- A sub-pixel of the 2x output is that of its source pixel's block (R191). -/
theorem scaledPixel_eq_blockBit (s : State) (addr w h j i : Int) :
    scaledPixel s addr w h j i = blockBit (scaledBlock s addr w h (j / 2) (i / 2)) (j % 2) (i % 2) := rfl

/-- A block draws its set sub-pixels (R191). -/
theorem drawBlock_spec {s : State} (q : Bool × Bool × Bool × Bool) (x y : Int) (c : Byte) (hs : Drawable s) :
    ∃ u, drawBlock q x y c s = .ok u ∧ Drawable u ∧
      Draws (solid c fun px py => InRect x y 2 2 px py ∧ blockBit q (py - y) (px - x) = true) s u := by
  obtain ⟨t1, h1, hd1, hw1⟩ := pointIf_spec q.1 x y c hs
  obtain ⟨t2, h2, hd2, hw2⟩ := pointIf_spec q.2.1 (x + 1) y c hd1
  obtain ⟨t3, h3, hd3, hw3⟩ := pointIf_spec q.2.2.1 x (y + 1) c hd2
  obtain ⟨t4, h4, hd4, hw4⟩ := pointIf_spec q.2.2.2 (x + 1) (y + 1) c hd3
  refine ⟨t4, by rw [drawBlock, h1, Run.bind_ok, h2, Run.bind_ok, h3, Run.bind_ok, h4], hd4,
    (((hw1.trans_solid hw2).trans_solid hw3).trans_solid hw4).congr fun px py v _ => and_congr_left fun _ => ?_⟩
  unfold blockBit
  constructor
  · rintro (((⟨hq, rfl, rfl⟩ | ⟨hq, rfl, rfl⟩) | ⟨hq, rfl, rfl⟩) | ⟨hq, rfl, rfl⟩) <;>
      exact ⟨by omega, by simp [hq]⟩
  · rintro ⟨⟨hx, hx', hy, hy'⟩, hq⟩
    by_cases hj : py - y = 0 <;> by_cases hi : px - x = 0 <;> simp only [hj, hi, if_true, if_false] at hq
    · exact .inl (.inl (.inl ⟨hq, by omega, by omega⟩))
    · exact .inl (.inl (.inr ⟨hq, by omega, by omega⟩))
    · exact .inl (.inr ⟨hq, by omega, by omega⟩)
    · exact .inr ⟨hq, by omega, by omega⟩

/-- The pass of the 2x blit for source pixel (column, row) (R191). -/
def mono2xPass (x y w h addr : Int) (col : Byte) (q : Int × Int) (s : State) : Run :=
  monoBit addr w h q.2 q.1 s fun e =>
  monoBit addr w h (q.2 - 1) q.1 s fun u =>
  monoBit addr w h (q.2 + 1) q.1 s fun d =>
  monoBit addr w h q.2 (q.1 - 1) s fun l =>
  monoBit addr w h q.2 (q.1 + 1) s fun r =>
  drawBlock (scale2x e u d l r) (x + 2 * q.1) (y + 2 * q.2) col s

theorem mono2xBlit_eq_runEach (x y w h addr : Int) (col : Byte) (s : State) :
    mono2xBlit x y w h addr col s = runEach (mono2xPass x y w h addr col) (bitmapPixels w h) s :=
  forRange_forRange_eq_runEach (body := mono2xPass x y w h addr col) _ _ (fun r c => ((c : Int), (r : Int))) s

/-- A pass whose bytes may all be read draws the block of Scale2x (R191). -/
theorem mono2xPass_ok {s t : State} (x y : Int) {w h addr : Int} (col : Byte) {q : Int × Int} (hsame : SameBut s t)
    (hread : ∀ b ∈ mono2xReads addr w h q.2 q.1, Accessible s.cfg b) :
    mono2xPass x y w h addr col q t =
      drawBlock (scaledBlock s addr w h q.2 q.1) (x + 2 * q.1) (y + 2 * q.2) col t := by
  simp only [mono2xReads_eq, List.append_nil, List.forall_mem_append] at hread
  obtain ⟨he, hu, hd, hl, hr⟩ := hread
  rw [mono2xPass, monoBit_ok hsame he, monoBit_ok hsame hu, monoBit_ok hsame hd, monoBit_ok hsame hl,
    monoBit_ok hsame hr, scaledBlock]

/-- A pass stops at the first byte, in the order E, U, D, L, R, that may not be read (R191). -/
theorem mono2xPass_stops {s t : State} (x y : Int) {w h addr : Int} (col : Byte) {q : Int × Int} {a : Int}
    (hsame : SameBut s t)
    (hfind : (mono2xReads addr w h q.2 q.1).find? (fun b => !accessible s.cfg b) = some a) :
    mono2xPass x y w h addr col q t = .raise .hostMemFault a t := by
  rw [mono2xReads_eq] at hfind
  exact monoBit_stops hsame hfind fun hfind => monoBit_stops hsame hfind fun hfind => monoBit_stops hsame hfind
    fun hfind => monoBit_stops hsame hfind fun hfind => monoBit_stops hsame hfind nofun

theorem mono2xPass_law (s : State) (x y w h addr : Int) (col : Byte) :
    (blit2x s x y w h addr).PassLaw s col (mono2xPass x y w h addr col) where
  draws := by
    rintro ⟨c, r⟩ hq t ht hsame hread
    obtain ⟨hc, hcw, hr, hrh⟩ : 0 ≤ c ∧ c < w ∧ 0 ≤ r ∧ r < h := mem_bitmapPixels.1 hq
    obtain ⟨u, hu, hud, hd⟩ := drawBlock_spec (scaledBlock s addr w h r c) (x + 2 * c) (y + 2 * r) col ht
    refine ⟨u, (mono2xPass_ok x y col hsame hread).trans hu, hud,
      hd.congr fun px py v _ => and_congr_left fun _ => ?_⟩
    show _ ↔ mono2xShape s x y w h addr px py ∧ ((px - x) / 2, (py - y) / 2) = (c, r)
    rw [mono2xShape, scaledPixel_eq_blockBit, Prod.mk.injEq]
    constructor
    · rintro ⟨hrect, hbit⟩
      obtain ⟨hi, hj⟩ : (px - x) / 2 = c ∧ (py - y) / 2 = r := by omega
      rw [hi, hj, show (px - x) % 2 = px - (x + 2 * c) by omega, show (py - y) % 2 = py - (y + 2 * r) by omega]
      exact ⟨⟨by omega, by omega, by omega, by omega, hbit⟩, rfl, rfl⟩
    · rintro ⟨⟨-, -, -, -, hbit⟩, hi, hj⟩
      rw [hi, hj, show (px - x) % 2 = px - (x + 2 * c) by omega, show (py - y) % 2 = py - (y + 2 * r) by omega] at hbit
      exact ⟨by omega, hbit⟩
  stops _ _ _ _ hsame hfind := mono2xPass_stops x y col hsame hfind
  cell_mem := by
    rintro px py ⟨hx, hxw, hy, hyh, -⟩
    show ((px - x) / 2, (py - y) / 2) ∈ bitmapPixels w h
    refine mem_bitmapPixels.2 ⟨?_, ?_, ?_, ?_⟩ <;> dsimp only <;> omega

theorem mono2xBlit_law (s : State) (x y w h addr : Int) (col : Byte) :
    (blit2x s x y w h addr).Law s col (mono2xBlit x y w h addr col) :=
  (mono2xPass_law s x y w h addr col).law.congr fun t _ => mono2xBlit_eq_runEach x y w h addr col t

/-- Settles O48: both blits walk over the bitmap's pixels, each pass drawing its part. -/
theorem monoDraws : Obligations.MonoDraws := fun s x y w h addr c hs hread =>
  ⟨(monoBlit_law s x y w h addr c).outcome_draws hs.drawable (blit1x_readable x y hread),
    (mono2xBlit_law s x y w h addr c).outcome_draws hs.drawable (blit2x_readable x y hread)⟩

/-! ## Glyphs (R192, R193, R196) -/

/-- The glyph of a code at 1x, in the font of `s` (R192). -/
def glyph1x (s : State) (x y : Int) (code : Byte) : BitBlit :=
  blit1x s x y s.fontW.toNat s.fontH.toNat (glyphAddr s code)

/-- The glyph of a code at 2x, in the font of `s` (R193). -/
def glyph2x (s : State) (x y : Int) (code : Byte) : BitBlit :=
  blit2x s x y s.fontW.toNat s.fontH.toNat (glyphAddr s code)

theorem drawGlyph_law (s : State) (x y : Int) (code col : Byte) :
    (glyph1x s x y code).Law s col (drawGlyph x y code col) :=
  (monoBlit_law s x y s.fontW.toNat s.fontH.toNat (glyphAddr s code) col).congr fun t hsame => by
    rw [drawGlyph, hsame.fontW, hsame.fontH, glyphAddr_sameBut hsame]

theorem drawGlyph2x_law (s : State) (x y : Int) (code col : Byte) :
    (glyph2x s x y code).Law s col (drawGlyph2x x y code col) :=
  (mono2xBlit_law s x y s.fontW.toNat s.fontH.toNat (glyphAddr s code) col).congr fun t hsame => by
    rw [drawGlyph2x, hsame.fontW, hsame.fontH, glyphAddr_sameBut hsame]

theorem needFont_of_font {s : State} (hv : s.fontV = true) (body : State → Run) : needFont s body = body s :=
  if_pos hv

theorem needFont_of_no_font {s : State} (hv : s.fontV = false) (body : State → Run) :
    needFont s body = .raise .noFont 0 s :=
  if_neg (by rw [hv]; exact Bool.false_ne_true)

/-- With a font set, CHAR is its glyph (R192). -/
theorem exec_char_of_font {s : State} (hv : s.fontV = true) (x y : Int) (code c : Byte) :
    exec (.char x y code c) s = (drawGlyph x y code c s).outcome :=
  congrArg Run.outcome (needFont_of_font hv _)

/-- With a font set, CHAR2X is its doubled glyph (R193). -/
theorem exec_char2x_of_font {s : State} (hv : s.fontV = true) (x y : Int) (code c : Byte) :
    exec (.char2x x y code c) s = (drawGlyph2x x y code c s).outcome :=
  congrArg Run.outcome (needFont_of_font hv _)

/-- Settles O50: with a font set the command is the blit of the glyph, whose address is `glyphAddr`'s. -/
theorem charDraws : Obligations.CharDraws := by
  intro s x y code c hs hv hread
  rw [exec_char_of_font hv, exec_char2x_of_font hv]
  exact ⟨(drawGlyph_law s x y code c).outcome_draws hs.drawable (blit1x_readable x y hread),
    (drawGlyph2x_law s x y code c).outcome_draws hs.drawable (blit2x_readable x y hread)⟩

/-- Settles O52: a walk over the bitmap's pixels stops at the first pass that reads a byte it may not read. -/
theorem glyphFaultKeepsPixelsBefore : Obligations.GlyphFaultKeepsPixelsBefore := by
  refine ⟨fun s x y w h addr c fr fc a hs => ?_, ?_⟩
  · exact ⟨(monoBlit_law s x y w h addr c).outcome_stops hs.drawable,
      (mono2xBlit_law s x y w h addr c).outcome_stops hs.drawable⟩
  · rintro s x y w h code c fr fc a hs hv rfl rfl
    rw [exec_char_of_font hv, exec_char2x_of_font hv]
    exact ⟨(drawGlyph_law s x y code c).outcome_stops hs.drawable,
      (drawGlyph2x_law s x y code c).outcome_stops hs.drawable⟩

/-- Settles O54: without a font each of the four raises before any effect. -/
theorem noFontFault : Obligations.NoFontFault := fun _ _ _ _ _ _ _ hv =>
  ⟨congrArg Run.outcome (needFont_of_no_font hv _), congrArg Run.outcome (needFont_of_no_font hv _),
    congrArg Run.outcome (needFont_of_no_font hv _), congrArg Run.outcome (needFont_of_no_font hv _)⟩

end Sys2Proof.Machine

namespace Sys2Proof.Machine

/-! ## The cursor walk of a string (R194, R195) -/

/-- `n` bytes of a string from byte `k` on. -/
def bytesFrom (s : State) (addr k n : Nat) : List Byte :=
  (List.range' k n).map fun i => memByte s (stringAddr addr i)

theorem stringBytes_eq_bytesFrom (s : State) (addr n : Nat) : stringBytes s addr n = bytesFrom s addr 0 n := by
  rw [stringBytes, bytesFrom, List.range_eq_range']

/-- The first bytes of a string, and the next one. -/
theorem stringBytes_succ (s : State) (addr n : Nat) :
    stringBytes s addr (n + 1) = stringBytes s addr n ++ [memByte s (stringAddr addr n)] := by
  rw [stringBytes, List.range_succ, List.map_append]
  rfl

/-- The cursor after some bytes of a string (R194). -/
def cursorAfter (adv line : Int) : List Byte → Int → Int → Int × Int
  | [], cx, cy => (cx, cy)
  | b :: bs, cx, cy =>
    if b = 0x08#8 then cursorAfter adv line bs (cx - adv) cy
    else if b = 0x0A#8 then cursorAfter adv line bs 0 (cy + line)
    else cursorAfter adv line bs (cx + adv) cy

theorem cursorWalk_append (adv line : Int) (bs bs' : List Byte) (cx cy : Int) :
    cursorWalk adv line (bs ++ bs') cx cy = cursorWalk adv line bs cx cy ++
      cursorWalk adv line bs' (cursorAfter adv line bs cx cy).1 (cursorAfter adv line bs cx cy).2 := by
  induction bs generalizing cx cy with
  | nil => rfl
  | cons b bs ih =>
    rw [List.cons_append, cursorWalk, cursorWalk, cursorAfter]
    split
    · exact ih _ _
    · split
      · exact ih _ _
      · rw [ih, List.cons_append]

/-- A walk draws bytes of its string, and neither backspace nor newline. -/
theorem mem_cursorWalk {adv line : Int} {bs : List Byte} {cx cy : Int} {g : Int × Int × Byte}
    (hg : g ∈ cursorWalk adv line bs cx cy) : g.2.2 ∈ bs ∧ g.2.2 ≠ 0x08#8 ∧ g.2.2 ≠ 0x0A#8 := by
  induction bs generalizing cx cy with
  | nil => cases hg
  | cons b bs ih =>
    have tail : ∀ {cx cy}, g ∈ cursorWalk adv line bs cx cy → g.2.2 ∈ b :: bs ∧ g.2.2 ≠ 0x08#8 ∧ g.2.2 ≠ 0x0A#8 :=
      fun hg => ⟨List.mem_cons_of_mem b (ih hg).1, (ih hg).2⟩
    rw [cursorWalk] at hg
    split at hg
    · exact tail hg
    · split at hg
      · exact tail hg
      · rcases List.mem_cons.1 hg with rfl | hg
        · exact ⟨List.mem_cons_self, ‹_›, ‹_›⟩
        · exact tail hg

/-- A byte whose walk is a glyph is drawn as it, at the cursor. -/
theorem cursorWalk_singleton {adv line cx cy cx' cy' : Int} {b b' : Byte}
    (h : cursorWalk adv line [b] cx cy = [(cx', cy', b')]) :
    b' = b ∧ cx' = cx ∧ cy' = cy ∧ b ≠ 0x08#8 ∧ b ≠ 0x0A#8 := by
  rw [cursorWalk] at h
  split at h
  · cases h
  · split at h
    · cases h
    · cases h
      exact ⟨rfl, rfl, rfl, ‹_›, ‹_›⟩

/-! ## Strings of glyphs (R194, R195) -/

/-- `glyph x y code` is the blit `B x y code`, and only draws. -/
structure GlyphLaw (s : State) (col : Byte) (B : Int → Int → Byte → BitBlit)
    (glyph : Int → Int → Byte → State → Run) : Prop where
  law : ∀ x y code, (B x y code).Law s col (glyph x y code)
  sameBut : ∀ x y code t u, glyph x y code t = .ok u → SameBut t u

theorem RunDraws.sameBut {A : Int → Prop} {t u : State} {r : Run} (h : RunDraws A t r) (hr : r = .ok u) :
    SameBut t u := by
  subst hr
  exact h.1

theorem glyph1x_law (s : State) (col : Byte) : GlyphLaw s col (glyph1x s) fun x y b => drawGlyph x y b col where
  law x y code := drawGlyph_law s x y code col
  sameBut _ _ _ _ _ hr := (monoBlit_draws ..).sameBut hr

theorem glyph2x_law (s : State) (col : Byte) : GlyphLaw s col (glyph2x s) fun x y b => drawGlyph2x x y b col where
  law x y code := drawGlyph2x_law s x y code col
  sameBut _ _ _ _ _ hr := (mono2xBlit_draws ..).sameBut hr

/-- The glyphs of a walk, one after another, the string at `(x, y)`. -/
def drawWalk (glyph : Int → Int → Byte → State → Run) (x y : Int) : List (Int × Int × Byte) → State → Run :=
  runEach fun g => glyph (x + g.1) (y + g.2.1) g.2.2

/-- What the glyphs of a walk draw. -/
def walkShape (B : Int → Int → Byte → BitBlit) (x y : Int) (walk : List (Int × Int × Byte)) (px py : Int) : Prop :=
  ∃ g ∈ walk, (B (x + g.1) (y + g.2.1) g.2.2).shape px py

section
variable {s : State} {col : Byte} {B : Int → Int → Byte → BitBlit} {glyph : Int → Int → Byte → State → Run}
  (hglyph : GlyphLaw s col B glyph) {addr : Nat} {x y adv line : Int}

include hglyph

/-- The loop over the first bytes of a string draws the glyphs of their walk and goes on at its cursor. -/
theorem stringLoop_add (n m k : Nat) (cx cy : Int) {t : State} (hsame : SameBut s t)
    (hacc : ∀ i, k ≤ i → i < k + n → Accessible s.cfg (stringAddr addr i)) :
    stringLoop glyph addr x y adv line (n + m) k cx cy t =
      (drawWalk glyph x y (cursorWalk adv line (bytesFrom s addr k n) cx cy) t).bind
        (stringLoop glyph addr x y adv line m (k + n)
          (cursorAfter adv line (bytesFrom s addr k n) cx cy).1
          (cursorAfter adv line (bytesFrom s addr k n) cx cy).2) := by
  induction n generalizing k cx cy t with
  | zero => rw [Nat.zero_add]; rfl
  | succ n ih =>
    have ih := fun cx cy {t} (hsame : SameBut s t) =>
      ih (k + 1) cx cy hsame fun i hi hi' => hacc i (by omega) (by omega)
    have hbytes : bytesFrom s addr k (n + 1) = memByte s (stringAddr addr k) :: bytesFrom s addr (k + 1) n := rfl
    have hread : Memory.read t.hmem (stringAddr addr k).toNat = memByte s (stringAddr addr k) :=
      memByte_sameBut hsame _
    rw [Nat.add_right_comm n 1 m, stringLoop,
      readByte_ok _ (by rw [hsame.cfg]; exact hacc k (by omega) (by omega)), hread, hbytes, cursorWalk, cursorAfter,
      Nat.add_comm n 1, ← Nat.add_assoc]
    split
    · exact ih _ _ hsame
    · split
      · exact ih _ _ hsame
      · rw [drawWalk, runEach_cons, Run.bind_assoc]
        cases hg : glyph (x + cx) (y + cy) (memByte s (stringAddr addr k)) t with
        | ok u => exact ih _ _ (hsame.trans (hglyph.sameBut _ _ _ _ _ hg))
        | raise c i u => rfl
        | bad e => rfl

/-- The glyphs of a walk that may all be read draw their shapes. -/
theorem drawWalk_draws {walk : List (Int × Int × Byte)} (hs : Drawable s)
    (hread : ∀ g ∈ walk, ∀ x y, (B x y g.2.2).Readable s.cfg) :
    ∃ u, drawWalk glyph x y walk s = .ok u ∧ Drawable u ∧ Draws (solid col (walkShape B x y walk)) s u :=
  runEach_solid hs fun g hg t ht hsame => (hglyph.law _ _ _).draws t ht hsame (hread g hg _ _)

/-- A readable string draws its glyphs. -/
theorem stringLoop_draws_walk {len : Nat} (hs : Drawable s)
    (hacc : ∀ i : Nat, i < len → Accessible s.cfg (stringAddr addr i))
    (hread : ∀ g ∈ cursorWalk adv line (stringBytes s addr len) 0 0, ∀ x y, (B x y g.2.2).Readable s.cfg) :
    ∃ t, (stringLoop glyph addr x y adv line len 0 0 0 s).outcome = .next t ∧
      Draws (solid col (walkShape B x y (cursorWalk adv line (stringBytes s addr len) 0 0))) s t := by
  obtain ⟨u, hrun, -, hd⟩ := drawWalk_draws (x := x) (y := y) hglyph hs hread
  have hloop := stringLoop_add hglyph (adv := adv) (line := line) (x := x) (y := y) len 0 0 0 0 (.refl s)
    fun i _ hi => hacc i (by omega)
  rw [← stringBytes_eq_bytesFrom, hrun, Run.bind_ok] at hloop
  exact ⟨u, congrArg Run.outcome hloop, hd⟩

variable {len k : Nat} (hs : Drawable s) (hk : k < len)
  (hacc : ∀ i : Nat, i < k → Accessible s.cfg (stringAddr addr i))
  (hread : ∀ g ∈ cursorWalk adv line (stringBytes s addr k) 0 0, ∀ x y, (B x y g.2.2).Readable s.cfg)

include hs hk hacc hread

/-- The loop up to byte `k` draws the glyphs before it and goes on at byte `k`, at the cursor there. -/
theorem stringLoop_reaches : ∃ m u, Drawable u ∧
    Draws (solid col (walkShape B x y (cursorWalk adv line (stringBytes s addr k) 0 0))) s u ∧
    stringLoop glyph addr x y adv line len 0 0 0 s =
      stringLoop glyph addr x y adv line (m + 1) k
        (cursorAfter adv line (stringBytes s addr k) 0 0).1 (cursorAfter adv line (stringBytes s addr k) 0 0).2 u := by
  obtain ⟨m, rfl⟩ : ∃ m, len = k + (m + 1) := ⟨len - k - 1, by omega⟩
  obtain ⟨u, hrun, hud, hd⟩ := drawWalk_draws (x := x) (y := y) hglyph hs hread
  have hloop := stringLoop_add hglyph (adv := adv) (line := line) (x := x) (y := y) k (m + 1) 0 0 0 (.refl s)
    fun i _ hi => hacc i (by omega)
  rw [← stringBytes_eq_bytesFrom, hrun, Run.bind_ok, Nat.zero_add] at hloop
  exact ⟨m, u, hud, hd, hloop⟩

/-- A string stops at its first byte that may not be read, the glyphs before it drawn (R226). -/
theorem stringLoop_stops_at_byte (hna : ¬ Accessible s.cfg (stringAddr addr k)) :
    ∃ u, Draws (solid col (walkShape B x y (cursorWalk adv line (stringBytes s addr k) 0 0))) s u ∧
      (stringLoop glyph addr x y adv line len 0 0 0 s).outcome =
        .next (faulted .hostMemFault (stringAddr addr k) u) := by
  obtain ⟨m, u, -, hd, hloop⟩ := stringLoop_reaches (x := x) (y := y) hglyph hs hk hacc hread
  rw [← hd.cfg_eq] at hna
  exact ⟨u, hd, by rw [hloop, stringLoop, readByte_raise _ hna, Run.outcome_raise, raiseFault_eq_faulted]⟩

/-- A string stops in the glyph of a readable byte where its blit does, the glyphs before it drawn (R226). -/
theorem stringLoop_stops_in_glyph (ha : Accessible s.cfg (stringAddr addr k)) {cx cy : Int} {b : Byte}
    (hwalk : cursorWalk adv line (stringBytes s addr (k + 1)) 0 0 =
      cursorWalk adv line (stringBytes s addr k) 0 0 ++ [(cx, cy, b)]) {fr fc a : Int}
    (hstop : PassStopsAt s.cfg (B (x + cx) (y + cy) b).w (B (x + cx) (y + cy) b).h (B (x + cx) (y + cy) b).reads
      fr fc a) :
    ∃ u, Draws (solid col fun px py =>
        walkShape B x y (cursorWalk adv line (stringBytes s addr k) 0 0) px py ∨
          (B (x + cx) (y + cy) b).part fr fc px py) s u ∧
      (stringLoop glyph addr x y adv line len 0 0 0 s).outcome = .next (faulted .hostMemFault a u) := by
  obtain ⟨m, t, htd, hd, hloop⟩ := stringLoop_reaches (x := x) (y := y) hglyph hs hk hacc hread
  rw [stringBytes_succ, cursorWalk_append, List.append_cancel_left_eq] at hwalk
  obtain ⟨rfl, hcx, hcy, hbs, hnl⟩ := cursorWalk_singleton hwalk
  rw [← hcx, ← hcy] at hloop
  obtain ⟨u, hdg, hglyphRun⟩ := (hglyph.law _ _ _).stops t fr fc a htd hd.sameBut hstop
  have hbyte : Memory.read t.hmem (stringAddr addr k).toNat = memByte s (stringAddr addr k) :=
    memByte_sameBut hd.sameBut _
  rw [← hd.cfg_eq] at ha
  refine ⟨u, hd.trans_solid hdg, ?_⟩
  rw [hloop, stringLoop, readByte_ok _ ha, hbyte, if_neg hbs, if_neg hnl, hglyphRun, Run.bind_raise,
    Run.outcome_raise, raiseFault_eq_faulted]

end

/-! ## STR and STR2X (R194, R195) -/

/-- With a font set, STR is its loop, whose advance and line are the font's (R194). -/
theorem exec_str_of_font {s : State} (hv : s.fontV = true) (x y : Int) (addr len : Nat) (c : Byte) :
    exec (.str x y addr len c) s = (stringLoop (fun gx gy b => drawGlyph gx gy b c) addr x y s.fontW.toNat
      s.fontH.toNat len 0 0 0 s).outcome :=
  congrArg Run.outcome (needFont_of_font hv _)

/-- With a font set, STR2X is its loop, the advance STR2X_ADV times the width and the line doubled (R195). -/
theorem exec_str2x_of_font {s : State} (hv : s.fontV = true) (x y : Int) (addr len : Nat) (c : Byte) :
    exec (.str2x x y addr len c) s = (stringLoop (fun gx gy b => drawGlyph2x gx gy b c) addr x y
      (s.cfg.str2xAdv * s.fontW.toNat) (2 * s.fontH.toNat) len 0 0 0 s).outcome := by
  rw [← Nat.cast_mul, ← Nat.cast_ofNat (n := 2), ← Nat.cast_mul]
  exact congrArg Run.outcome (needFont_of_font hv _)

/-- The glyphs of a walk over a string whose glyphs may be read may be read. -/
theorem GlyphsReadable.of_mem_walk {s : State} {addr n : Nat} (h : GlyphsReadable s addr n) {adv line : Int}
    {g : Int × Int × Byte} (hg : g ∈ cursorWalk adv line (stringBytes s addr n) 0 0) :
    MonoReadable s (glyphAddr s g.2.2) s.fontW.toNat s.fontH.toNat := by
  obtain ⟨hb, hbs, hnl⟩ := mem_cursorWalk hg
  exact h g.2.2 hb hbs hnl

/-- Settles O51: both commands draw the glyphs of the cursor walk, one after another. -/
theorem stringsDraw : Obligations.StringsDraw := by
  intro s x y addr len c hs hv hacc hread
  rw [exec_str_of_font hv, exec_str2x_of_font hv]
  exact ⟨stringLoop_draws_walk (glyph1x_law s c) hs.drawable hacc
      fun _ hg gx gy => blit1x_readable gx gy (hread.of_mem_walk hg),
    stringLoop_draws_walk (glyph2x_law s c) hs.drawable hacc
      fun _ hg gx gy => blit2x_readable gx gy (hread.of_mem_walk hg)⟩

/-- Settles O53: the loop reaches byte `k` with the glyphs before it drawn, and stops there or in its glyph. -/
theorem stringFaultKeepsGlyphsBefore : Obligations.StringFaultKeepsGlyphsBefore := by
  rintro s x y addr len k c w h hs hv rfl rfl hk hacc hread
  rw [exec_str_of_font hv, exec_str2x_of_font hv]
  have hread1x : ∀ g ∈ strWalk s addr k, ∀ gx gy, (glyph1x s gx gy g.2.2).Readable s.cfg :=
    fun _ hg gx gy => blit1x_readable gx gy (hread.of_mem_walk hg)
  have hread2x : ∀ g ∈ str2xWalk s addr k, ∀ gx gy, (glyph2x s gx gy g.2.2).Readable s.cfg :=
    fun _ hg gx gy => blit2x_readable gx gy (hread.of_mem_walk hg)
  refine ⟨fun hna => ⟨?_, ?_⟩, fun ha cx cy b fr fc a => ⟨fun hwalk hstop => ?_, fun hwalk hstop => ?_⟩⟩
  · exact stringLoop_stops_at_byte (glyph1x_law s c) hs.drawable hk hacc hread1x hna
  · exact stringLoop_stops_at_byte (glyph2x_law s c) hs.drawable hk hacc hread2x hna
  · exact stringLoop_stops_in_glyph (glyph1x_law s c) hs.drawable hk hacc hread1x ha hwalk hstop
  · exact stringLoop_stops_in_glyph (glyph2x_law s c) hs.drawable hk hacc hread2x ha hwalk hstop

end Sys2Proof.Machine

namespace Sys2Proof.Machine

/-! ## NOP (R200) -/

/-- Settles O55: NOP's meaning is the state it is given. -/
theorem nopDoesNothing : Obligations.NopDoesNothing := fun _ => rfl

/-! ## FLUSH as a walk over bands (R203) -/

/-- The bands of the rows a flush visits, dirty or not, in its order (R203). -/
def visitedBands (p : Config) (interlaced parity : Bool) : List (Nat × Nat) :=
  (List.range p.h).flatMap fun y =>
    if rowVisited interlaced parity y then (List.range (bandCount p)).map fun b => (y, b) else []

/-- Send a band where it is dirty (R203). -/
def flushBand (q : Nat × Nat) (s : State) : State :=
  if dirtyFlag q.1 q.2 s then emitBand q.1 q.2 s else s

/-- Send a list of bands, in order. -/
def emitBands (l : List (Nat × Nat)) (s : State) : State :=
  l.foldl (fun t q => emitBand q.1 q.2 t) s

/-- The band is one of the canvas. -/
abbrev IsBand (p : Config) (q : Nat × Nat) : Prop :=
  q.1 < p.h ∧ q.2 < bandCount p

theorem mem_visitedBands {p : Config} {interlaced parity : Bool} {q : Nat × Nat} :
    q ∈ visitedBands p interlaced parity ↔ IsBand p q ∧ rowVisited interlaced parity q.1 = true := by
  simp only [visitedBands, List.mem_flatMap, List.mem_range, List.mem_ite_nil_right, List.mem_map]
  constructor
  · rintro ⟨y, hy, hv, b, hb, rfl⟩
    exact ⟨⟨hy, hb⟩, hv⟩
  · rintro ⟨⟨hy, hb⟩, hv⟩
    exact ⟨q.1, hy, hv, q.2, hb, rfl⟩

theorem visitedBands_nodup (p : Config) (interlaced parity : Bool) : (visitedBands p interlaced parity).Nodup := by
  refine List.nodup_flatMap.2 ⟨fun y _ => ?_, List.nodup_range.imp fun hne => ?_⟩
  · split
    · exact List.nodup_range.map (Prod.mk_right_injective y)
    · exact List.nodup_nil
  · intro q hq hq'
    simp only [List.mem_ite_nil_right, List.mem_map] at hq hq'
    obtain ⟨-, b, -, rfl⟩ := hq
    obtain ⟨-, b', -, heq⟩ := hq'
    exact hne (congrArg Prod.fst heq).symm

theorem flushedBands_eq_filter (s : State) :
    flushedBands s =
      (visitedBands s.cfg (flushInterlaced s) s.parity).filter fun q => dirtyFlag q.1 q.2 s := by
  rw [flushedBands, visitedBands, List.filter_flatMap]
  congr 1
  funext y
  split
  · rw [List.filter_map]
    rfl
  · rfl

/-- The bands a flush sends: dirty bands of the rows it visits (R203). -/
theorem mem_flushedBands {s : State} {q : Nat × Nat} :
    q ∈ flushedBands s ↔
      (IsBand s.cfg q ∧ rowVisited (flushInterlaced s) s.parity q.1 = true) ∧ dirtyFlag q.1 q.2 s = true := by
  rw [flushedBands_eq_filter, List.mem_filter, mem_visitedBands]

theorem flushedBands_nodup (s : State) : (flushedBands s).Nodup := by
  rw [flushedBands_eq_filter]
  exact (visitedBands_nodup ..).filter _

theorem flushRow_eq_foldl (y : Nat) (s : State) :
    flushRow y s = ((List.range (bandCount s.cfg)).map fun b => (y, b)).foldl (fun t q => flushBand q t) s := by
  rw [List.foldl_map]
  rfl

/-- FLUSH's loops are one walk over the bands of the visited rows (R203). -/
theorem flushRows_eq_foldl (interlaced parity : Bool) (s : State) :
    flushRows interlaced parity s = (visitedBands s.cfg interlaced parity).foldl (fun t q => flushBand q t) s := by
  rw [flushRows, visitedBands, List.foldl_flatMap]
  suffices h : ∀ (l : List Nat) (t : State), t.cfg = s.cfg →
      l.foldl (fun t y => if rowVisited interlaced parity y then flushRow y t else t) t =
        l.foldl (fun t y => (if rowVisited interlaced parity y then
          (List.range (bandCount s.cfg)).map fun b => (y, b) else []).foldl (fun t q => flushBand q t) t) t from
    h _ s rfl
  intro l
  induction l with
  | nil => exact fun _ _ => rfl
  | cons y l ih =>
    intro t ht
    rw [List.foldl_cons, List.foldl_cons]
    split
    · rw [← ht, ← flushRow_eq_foldl]
      have := ih (flushRow y t) ((flushRow_onlySends y t).cfg.trans ht)
      rwa [← ht] at this
    · exact ih t ht

/-! ## What sending bands does (R204) -/

section
variable {s : State}

/-- Sending a band clears its flag and no other (R204). -/
theorem dirtyFlag_emitBand (hd : s.dirty.length = s.cfg.h * bandCount s.cfg) {q q' : Nat × Nat} (hq : IsBand s.cfg q)
    (hq' : IsBand s.cfg q') :
    dirtyFlag q'.1 q'.2 (emitBand q.1 q.2 s) = if q' = q then false else dirtyFlag q'.1 q'.2 s := by
  have hset : dirtyFlag q'.1 q'.2 (emitBand q.1 q.2 s) = dirtyFlag q'.1 q'.2 (setDirty q.1 q.2 false s) := rfl
  rw [hset, dirtyFlag_setDirty hd hq.1 hq.2 hq'.2]
  simp only [Prod.ext_iff]

theorem emitBand_dirty_length (y b : Nat) (s : State) : (emitBand y b s).dirty.length = s.dirty.length :=
  List.length_set

/-- A walk over different bands sends those that are dirty at its start (R203). -/
theorem foldl_flushBand (hd : s.dirty.length = s.cfg.h * bandCount s.cfg) {l : List (Nat × Nat)} (hn : l.Nodup)
    (hl : ∀ q ∈ l, IsBand s.cfg q) :
    l.foldl (fun t q => flushBand q t) s = emitBands (l.filter fun q => dirtyFlag q.1 q.2 s) s := by
  induction l generalizing s with
  | nil => rfl
  | cons q l ih =>
    obtain ⟨hq, hn⟩ := List.nodup_cons.1 hn
    have hl' : ∀ q' ∈ l, IsBand s.cfg q' := fun q' h => hl q' (List.mem_cons_of_mem q h)
    rw [List.foldl_cons, List.filter_cons, flushBand]
    split
    · have hkeep : (l.filter fun q' => dirtyFlag q'.1 q'.2 (emitBand q.1 q.2 s)) =
          l.filter fun q' => dirtyFlag q'.1 q'.2 s := List.filter_congr fun q' hq' => by
        rw [dirtyFlag_emitBand hd (hl q List.mem_cons_self) (hl' q' hq'), if_neg (ne_of_mem_of_not_mem hq' hq)]
      rw [ih ((emitBand_dirty_length ..).trans hd) hn hl', hkeep]
      rfl
    · exact ih hd hn hl'

/-- A sent band's transactions are those R204 says. -/
theorem emitBand_eq {q : Nat × Nat} (hq : IsBand s.cfg q) :
    emitBand q.1 q.2 s = { s with
      sink := s.sink ++ bandTransactions s q.1 q.2
      dirty := s.dirty.set (dirtyIndex s.cfg q.1 q.2) false } := by
  rw [emitBand, bandBytes_eq hq.1 hq.2, List.map_map]
  rfl

/-- Sending bands appends their transactions, in the colours of the start; beyond that only the dirty map changes. -/
theorem emitBands_eq {l : List (Nat × Nat)} (hl : ∀ q ∈ l, IsBand s.cfg q) :
    emitBands l s = { s with
      sink := s.sink ++ l.flatMap fun q => bandTransactions s q.1 q.2
      dirty := (emitBands l s).dirty } := by
  induction l generalizing s with
  | nil => simp [emitBands]
  | cons q l ih =>
    have hcons : emitBands (q :: l) s = emitBands l (emitBand q.1 q.2 s) := rfl
    rw [hcons]
    refine (ih (s := emitBand q.1 q.2 s) fun q' hq' => hl q' (List.mem_cons_of_mem q hq')).trans ?_
    generalize (emitBands l (emitBand q.1 q.2 s)).dirty = d
    rw [emitBand_eq (hl q List.mem_cons_self), List.flatMap_cons, ← List.append_assoc]
    rfl

theorem emitBands_cfg (l : List (Nat × Nat)) (s : State) : (emitBands l s).cfg = s.cfg := by
  induction l generalizing s with
  | nil => rfl
  | cons q l ih => exact ih _

theorem emitBands_dirty_length (l : List (Nat × Nat)) (s : State) :
    (emitBands l s).dirty.length = s.dirty.length := by
  induction l generalizing s with
  | nil => rfl
  | cons q l ih => exact (ih _).trans (emitBand_dirty_length ..)

/-- Sending bands clears their flags and no other (R204). -/
theorem dirtyFlag_emitBands (hd : s.dirty.length = s.cfg.h * bandCount s.cfg) {l : List (Nat × Nat)}
    (hl : ∀ q ∈ l, IsBand s.cfg q) {q : Nat × Nat} (hq : IsBand s.cfg q) :
    dirtyFlag q.1 q.2 (emitBands l s) = (dirtyFlag q.1 q.2 s && !decide (q ∈ l)) := by
  induction l generalizing s with
  | nil => simp [emitBands]
  | cons r l ih =>
    refine (ih (s := emitBand r.1 r.2 s) ((emitBand_dirty_length ..).trans hd)
      (fun q' hq' => hl q' (List.mem_cons_of_mem r hq')) hq).trans ?_
    rw [dirtyFlag_emitBand hd (hl r List.mem_cons_self) hq]
    by_cases he : q = r <;> simp [he]

/-- Clearing a set flag makes the count one less (R201). -/
theorem dirtyCount_emitBand (hd : s.dirty.length = s.cfg.h * bandCount s.cfg) {q : Nat × Nat} (hq : IsBand s.cfg q)
    (hset : dirtyFlag q.1 q.2 s = true) : dirtyCount (emitBand q.1 q.2 s) + 1 = dirtyCount s := by
  have hlt : dirtyIndex s.cfg q.1 q.2 < s.dirty.length := by rw [hd]; exact dirtyIndex_lt hq.1 hq.2
  have hget : s.dirty[dirtyIndex s.cfg q.1 q.2] = true := by
    rw [dirtyFlag, List.getD_eq_getElem _ _ hlt] at hset
    exact hset
  have hpos : 0 < s.dirty.count true := List.count_pos_iff.2 (hget ▸ List.getElem_mem hlt)
  have hcount : (s.dirty.set (dirtyIndex s.cfg q.1 q.2) false).count true = s.dirty.count true - 1 := by
    rw [List.count_set hlt, hget]
    rfl
  show (s.dirty.set (dirtyIndex s.cfg q.1 q.2) false).count true + 1 = s.dirty.count true
  omega

/-- As many flags are cleared as different dirty bands are sent (R208). -/
theorem dirtyCount_emitBands (hd : s.dirty.length = s.cfg.h * bandCount s.cfg) {l : List (Nat × Nat)} (hn : l.Nodup)
    (hl : ∀ q ∈ l, IsBand s.cfg q) (hset : ∀ q ∈ l, dirtyFlag q.1 q.2 s = true) :
    dirtyCount (emitBands l s) + l.length = dirtyCount s := by
  induction l generalizing s with
  | nil => rfl
  | cons q l ih =>
    obtain ⟨hq, hn⟩ := List.nodup_cons.1 hn
    have hl' : ∀ q' ∈ l, IsBand s.cfg q' := fun q' h => hl q' (List.mem_cons_of_mem q h)
    have hband := hl q List.mem_cons_self
    have ih := ih (s := emitBand q.1 q.2 s) ((emitBand_dirty_length ..).trans hd) hn hl' fun q' hq' => by
      rw [dirtyFlag_emitBand hd hband (hl' q' hq'), if_neg (ne_of_mem_of_not_mem hq' hq)]
      exact hset q' (List.mem_cons_of_mem q hq')
    have hfirst := dirtyCount_emitBand hd hband (hset q List.mem_cons_self)
    have hcons : emitBands (q :: l) s = emitBands l (emitBand q.1 q.2 s) := rfl
    rw [hcons, List.length_cons]
    omega

end

/-! ## FLUSH (R203 to R207) -/

theorem State.Sound.dirty_length {s : State} (hs : s.Sound) : s.dirty.length = s.cfg.h * bandCount s.cfg := by
  obtain ⟨-, -, -, hd, -⟩ := hs
  exact hd

theorem isBand_of_mem_flushedBands {s : State} {q : Nat × Nat} (hq : q ∈ flushedBands s) : IsBand s.cfg q :=
  (mem_flushedBands.1 hq).1.1

/-- The state FLUSH's loops run in (R25). -/
def flushing (s : State) : State :=
  { s with fstate := .flushing }

/-- FLUSH's loops send the flushed bands (R203). -/
theorem flushRows_eq_emitBands {s : State} (hs : s.Sound) :
    flushRows (flushInterlaced s) s.parity (flushing s) = emitBands (flushedBands s) (flushing s) := by
  rw [flushRows_eq_foldl, foldl_flushBand (s := flushing s) hs.dirty_length (visitedBands_nodup ..)
    fun q hq => (mem_visitedBands.1 hq).1, flushedBands_eq_filter]
  rfl

theorem updateParity_eq (interlaced : Bool) (s : State) :
    updateParity interlaced s = { s with
      parity := if s.cfg.parityToggle = .everyFlush ∨ interlaced = true then !s.parity else s.parity } := by
  unfold updateParity
  split <;> rfl

/-- FLUSH sends the flushed bands, and its dirty map is that after sending them (R203 to R207). -/
theorem exec_flush {s : State} (hs : s.Sound) :
    exec .flush s = .next { s with
      sink := s.sink ++ (flushedBands s).flatMap fun q => bandTransactions s q.1 q.2
      dirty := (emitBands (flushedBands s) (flushing s)).dirty
      parity := if s.cfg.parityToggle = .everyFlush ∨ flushInterlaced s = true then !s.parity else s.parity
      ilace := flushInterlaced s
      fstate := .idle } := by
  have hexec : exec .flush s = .next
      { updateParity (flushInterlaced s) (flushRows (flushInterlaced s) s.parity (flushing s)) with
        ilace := flushInterlaced s, fstate := .idle } := rfl
  have hsent := emitBands_eq (s := flushing s) (l := flushedBands s) fun q hq => isBand_of_mem_flushedBands hq
  generalize (emitBands (flushedBands s) (flushing s)).dirty = d at hsent ⊢
  rw [hexec, flushRows_eq_emitBands hs, updateParity_eq, hsent]
  rfl

/-- Settles O56: FLUSH is a walk over the dirty bands of the visited rows, each sent and cleared. -/
theorem flushSends : Obligations.FlushSends := by
  intro s hs
  refine ⟨_, exec_flush hs, rfl, emitBands_dirty_length _ _, fun y b hy hb => ?_⟩
  trans dirtyFlag y b (emitBands (flushedBands s) (flushing s))
  · apply dirtyFlag_congr
    · exact (emitBands_cfg _ (flushing s)).symm
    · rfl
  · exact dirtyFlag_emitBands (s := flushing s) hs.dirty_length
      (fun q hq => isBand_of_mem_flushedBands (s := s) hq) (q := (y, b)) ⟨hy, hb⟩

/-! ## What a flush leaves and how much it sends (R208) -/

/-- Every entry of the dirty map is the flag of a band (R23). -/
theorem exists_dirtyFlag_of_mem {s : State} (hd : s.dirty.length = s.cfg.h * bandCount s.cfg) {v : Bool}
    (hv : v ∈ s.dirty) : ∃ y b, y < s.cfg.h ∧ b < bandCount s.cfg ∧ dirtyFlag y b s = v := by
  obtain ⟨i, hi, rfl⟩ := List.getElem_of_mem hv
  have hi' : i < s.cfg.h * bandCount s.cfg := hd ▸ hi
  have hpos : 0 < bandCount s.cfg := Nat.pos_of_mul_pos_left (Nat.zero_lt_of_lt hi')
  refine ⟨i / bandCount s.cfg, i % bandCount s.cfg, (Nat.div_lt_iff_lt_mul hpos).2 hi', Nat.mod_lt _ hpos, ?_⟩
  rw [dirtyFlag, dirtyIndex, Nat.div_add_mod', List.getD_eq_getElem _ _ hi]

/-- Where no flag is set, none is counted (R201). -/
theorem dirtyCount_of_none_set {s : State} (hd : s.dirty.length = s.cfg.h * bandCount s.cfg)
    (h : ∀ y b, y < s.cfg.h → b < bandCount s.cfg → dirtyFlag y b s = false) : dirtyCount s = 0 := by
  refine List.count_eq_zero.2 fun hmem => ?_
  obtain ⟨y, b, hy, hb, hflag⟩ := exists_dirtyFlag_of_mem hd hmem
  exact Bool.false_ne_true ((h y b hy hb).symm.trans hflag)

/-- Where every flag is set, all of them are counted (R201). -/
theorem dirtyCount_of_all_set {s : State} (hd : s.dirty.length = s.cfg.h * bandCount s.cfg)
    (h : ∀ y b, y < s.cfg.h → b < bandCount s.cfg → dirtyFlag y b s = true) :
    dirtyCount s = s.cfg.h * bandCount s.cfg := by
  rw [← hd]
  refine List.count_eq_length.2 fun v hv => ?_
  obtain ⟨y, b, hy, hb, hflag⟩ := exists_dirtyFlag_of_mem hd hv
  exact (h y b hy hb).symm.trans hflag

theorem rowVisited_of_not_interlaced (parity : Bool) (y : Nat) : rowVisited false parity y = true := rfl

theorem rowVisited_interlaced (parity : Bool) (y : Nat) : rowVisited true parity y = true ↔ y % 2 = parity.toNat :=
  beq_iff_eq

theorem length_flatMap_bandTransactions (s : State) (l : List (Nat × Nat)) :
    (l.flatMap fun q => bandTransactions s q.1 q.2).length = 2 * l.length := by
  induction l with
  | nil => rfl
  | cons q l ih =>
    rw [List.flatMap_cons, List.length_append, ih, List.length_cons]
    show 2 + 2 * l.length = 2 * (l.length + 1)
    omega

section
variable {s t : State} (hs : s.Sound) (h : exec .flush s = .next t)

include hs h

/-- A flush sends a pair for each flushed band (R207). -/
theorem flush_sink_length : t.sink.length = s.sink.length + 2 * (flushedBands s).length := by
  rw [exec_flush hs] at h
  cases h
  rw [List.length_append, length_flatMap_bandTransactions]

/-- A flush clears a flag for each flushed band (R208). -/
theorem flush_dirtyCount : dirtyCount t + (flushedBands s).length = dirtyCount s := by
  rw [exec_flush hs] at h
  cases h
  exact dirtyCount_emitBands (s := flushing s) hs.dirty_length (flushedBands_nodup s)
    (fun _ hq => isBand_of_mem_flushedBands (s := s) hq) fun _ hq => (mem_flushedBands.1 hq).2

/-- A flag after a flush: cleared exactly where its row was visited (R208). -/
theorem flush_dirtyFlag {y b : Nat} (hy : y < s.cfg.h) (hb : b < bandCount s.cfg) :
    dirtyFlag y b t = if rowVisited (flushInterlaced s) s.parity y = true then false else dirtyFlag y b s := by
  obtain ⟨t', ht', -, -, hflags⟩ := flushSends s hs
  rw [h] at ht'
  cases ht'
  rw [hflags y b hy hb]
  have hmem : (y, b) ∈ flushedBands s ↔
      rowVisited (flushInterlaced s) s.parity y = true ∧ dirtyFlag y b s = true := by
    rw [mem_flushedBands]
    exact and_congr_left fun _ => and_iff_right ⟨hy, hb⟩
  simp only [hmem]
  cases rowVisited (flushInterlaced s) s.parity y <;> cases dirtyFlag y b s <;> rfl

/-- Every window a flush sends is that of a flushed band (R204). -/
theorem window_of_flush {x y w k : Nat} (hm : SinkTx.setWindow x y w k ∈ t.sink.drop s.sink.length) :
    ∃ b, (y, b) ∈ flushedBands s ∧ x = bandStart s.cfg b ∧ w = bandWidth s.cfg b ∧ k = 1 := by
  rw [exec_flush hs] at h
  cases h
  rw [List.drop_left] at hm
  obtain ⟨q, hq, hm⟩ := List.mem_flatMap.1 hm
  rcases List.mem_cons.1 hm with he | hm
  · cases he
    exact ⟨q.2, hq, rfl, rfl, rfl⟩
  · cases List.mem_singleton.1 hm

end

/-- Settles O57: a flush clears the flags of the visited rows, and each flag cleared is a band sent. -/
theorem flushClearsDirtyMap : Obligations.FlushClearsDirtyMap := by
  intro s t hs h
  have hsound := exec_sound (i := .flush) rfl hs h
  have hcfg : t.cfg = s.cfg := (exec_footprint h).cfg
  refine ⟨fun hle => ?_, fun hlt y b hy hb => ?_, ?_, fun x y w k hm => ?_⟩
  · have hmode : flushInterlaced s = false := decide_eq_false (Nat.not_lt.2 hle)
    refine dirtyCount_of_none_set hsound.dirty_length fun y b hy hb => ?_
    rw [hcfg] at hy hb
    rw [flush_dirtyFlag hs h hy hb, hmode, if_pos (rowVisited_of_not_interlaced _ y)]
  · have hmode : flushInterlaced s = true := decide_eq_true hlt
    rw [flush_dirtyFlag hs h hy hb, hmode]
    simp only [rowVisited_interlaced]
  · have hsink := flush_sink_length hs h
    have hcount := flush_dirtyCount hs h
    omega
  · obtain ⟨b, hq, hx, hw, hk⟩ := window_of_flush hs h hm
    obtain ⟨⟨⟨hy, hb⟩, -⟩, hset⟩ := mem_flushedBands.1 hq
    exact ⟨b, hb, hx, hw, hk, hy, hset⟩

/-! ## The first refresh (R209) -/

theorem length_flatMap_rows (n c : Nat) (parity : Bool) :
    ((List.range (2 * n)).flatMap fun y =>
      if rowVisited true parity y then (List.range c).map fun b => (y, b) else []).length = n * c := by
  induction n with
  | zero => rw [Nat.zero_mul]; rfl
  | succ n ih =>
    have heven : 2 * n % 2 = 0 := Nat.mul_mod_right 2 n
    have hodd : (2 * n + 1) % 2 = 1 := by omega
    rw [show 2 * (n + 1) = 2 * n + 1 + 1 by omega, List.range_succ, List.range_succ, List.flatMap_append,
      List.flatMap_append, List.length_append, List.length_append, ih, List.flatMap_singleton, List.flatMap_singleton,
      Nat.succ_mul n c, Nat.add_assoc]
    congr 1
    cases parity <;> simp [rowVisited, heven, hodd]

/-- An interlaced flush of this hardware visits 240 rows of 5 bands (R203, R209). -/
theorem length_visitedBands_hardware (parity : Bool) : (visitedBands hardware true parity).length = 1200 :=
  length_flatMap_rows 240 5 parity

/-- Where every flag of the rows of one parity is set, an interlaced flush sends all their bands (R203). -/
theorem flushedBands_eq_visitedBands {s : State} (hmode : flushInterlaced s = true)
    (hset : ∀ y b, y < s.cfg.h → b < bandCount s.cfg → y % 2 = s.parity.toNat → dirtyFlag y b s = true) :
    flushedBands s = visitedBands s.cfg true s.parity := by
  rw [flushedBands_eq_filter, hmode]
  refine List.filter_eq_self.2 fun q hq => ?_
  obtain ⟨⟨hy, hb⟩, hv⟩ := mem_visitedBands.1 hq
  exact hset q.1 q.2 hy hb ((rowVisited_interlaced _ _).1 hv)

/-- What an interlaced flush of this hardware does where every flag of the rows it visits is set: 1200 pairs, the rows
of its parity cleared, the other parity next (R203, R205, R209). -/
structure RefreshesRows (s t : State) : Prop where
  ilace : t.ilace = true
  parity : t.parity = !s.parity
  sent : t.sink.length = s.sink.length + 2 * 1200
  left : dirtyCount t + 1200 = dirtyCount s
  flags : ∀ y b, y < 480 → b < 5 → dirtyFlag y b t = if y % 2 = s.parity.toNat then false else dirtyFlag y b s
  windows : ∀ x y w k, SinkTx.setWindow x y w k ∈ t.sink.drop s.sink.length → y % 2 = s.parity.toNat

/-- On this hardware more than 900 flags make a flush interlaced, and PARITY flips with every flush (R203, R205). -/
theorem flush_refreshesRows {s : State} (hs : s.Sound) (hcfg : s.cfg = hardware) (hmany : 900 < dirtyCount s)
    (hset : ∀ y b, y < 480 → b < 5 → y % 2 = s.parity.toNat → dirtyFlag y b s = true) :
    ∃ t, exec .flush s = .next t ∧ RefreshesRows s t := by
  have hmode : flushInterlaced s = true := by
    unfold flushInterlaced
    rw [hcfg]
    exact decide_eq_true hmany
  have htoggle : s.cfg.parityToggle = .everyFlush := by rw [hcfg]; rfl
  have hbands : flushedBands s = visitedBands hardware true s.parity := by
    rw [← hcfg]
    refine flushedBands_eq_visitedBands hmode fun y b hy hb hp => ?_
    rw [hcfg] at hy hb
    exact hset y b hy hb hp
  have hlen : (flushedBands s).length = 1200 := by rw [hbands, length_visitedBands_hardware]
  obtain ⟨t, h, ht, -⟩ := flushSends s hs
  refine ⟨t, h, by rw [ht, hmode], by rw [ht, if_pos (.inl htoggle)], ?_, ?_, fun y b hy hb => ?_,
    fun x y w k hm => ?_⟩
  · rw [flush_sink_length hs h, hlen]
  · rw [← flush_dirtyCount hs h, hlen]
  · rw [flush_dirtyFlag hs h (by rw [hcfg]; exact hy) (by rw [hcfg]; exact hb), hmode]
    simp only [rowVisited_interlaced]
  · obtain ⟨b, hq, -⟩ := window_of_flush hs h hm
    rw [hbands] at hq
    exact (rowVisited_interlaced _ _).1 (mem_visitedBands.1 hq).2

theorem eq_not_toNat_iff {p : Bool} {n : Nat} (hn : n < 2) : n = (!p).toNat ↔ n ≠ p.toNat := by
  cases p <;> simp <;> omega

/-- Settles O58: the first flush leaves the rows of the other parity, enough for the second to be interlaced too. -/
theorem firstRefreshTakesTwoFlushes : Obligations.FirstRefreshTakesTwoFlushes := by
  intro s hs hcfg hset
  have hcount : dirtyCount s = 2400 := by
    have hall := dirtyCount_of_all_set hs.dirty_length
    rw [hcfg] at hall
    exact hall hset
  obtain ⟨t, h, first⟩ := flush_refreshesRows hs hcfg (by omega) fun y b hy hb _ => hset y b hy hb
  have hleft := first.left
  have other : ∀ y, y % 2 = (!s.parity).toNat ↔ y % 2 ≠ s.parity.toNat :=
    fun y => eq_not_toNat_iff (Nat.mod_lt y (by omega))
  have hflags : ∀ y b, y < 480 → b < 5 → dirtyFlag y b t = decide (y % 2 ≠ s.parity.toNat) := by
    intro y b hy hb
    rw [first.flags y b hy hb, hset y b hy hb]
    by_cases hp : y % 2 = s.parity.toNat <;> simp [hp]
  obtain ⟨u, h', second⟩ := flush_refreshesRows (exec_sound (i := .flush) rfl hs h)
    ((exec_footprint h).cfg.trans hcfg) (by omega) fun y b hy hb hp => by
      rw [first.parity, other] at hp
      rw [hflags y b hy hb]
      exact decide_eq_true hp
  have hleft' := second.left
  refine ⟨t, u, h, h', first.ilace, second.ilace, first.sent, by omega, first.parity, hflags, second.sent, by omega,
    first.windows, fun x y w k hm => ?_⟩
  rw [← other, ← first.parity]
  exact second.windows x y w k hm

end Sys2Proof.Machine
